-- ==== Sys2Proof/Word.lean ====
section
/-! DEFINITION. The word types of GPUJPEG CORE. -/

namespace Sys2Proof

/-- The 32 data bits of a command word, a register value or the data of a response (R9, R23, R70). -/
abbrev Word := BitVec 32

/-- One byte: a sample, a table entry, a register number or a byte of the output buffer (R9, R20). -/
abbrev Byte := BitVec 8

end Sys2Proof
end

