-- ==== Sys2Proof/Config.lean ====
section
/-! DEFINITION. What an instance of the core fixes and the spec leaves open. -/

namespace Sys2Proof

/-- `OUT_CAP`, the capacity of the output buffer in bytes, the one open parameter of the spec (R9, R52, U13):
any number from 0 to `2^32 - 1`, which is exactly the range of the type. It has no value here, so nothing can be proved of it.
It is used in one place only, the state right after power-on (`Machine.State.reset`); every operation reads the
capacity from its state argument, so that a statement over all states is a statement over all capacities. -/
opaque Config.outCap : Word

end Sys2Proof
end

