-- ==== Sys2Proof/Syntax.lean ====
section
/-! DEFINITION. Command words and the eight commands of the opcode map (R70 to R75). -/

namespace Sys2Proof

/-- A command word: the transfer-error bit the transport sets and the 32 bits it delivers (R70, R71). -/
structure CmdWord where
  xerr : Bool
  w : Word
  deriving DecidableEq, Repr

/-- The eight defined values of `op` by name (R75). -/
inductive Op where
  | wrcfg
  | rdreg
  | create
  | beginImage
  | block
  | endImage
  | destroy
  | rdout
  deriving DecidableEq, Repr

/-- A well-formed command (R74, R75): one constructor per row of the opcode table. The first argument of each is the
transfer-error bit of its head word; a payload word carries its own (R71: the bit is part of each word). -/
inductive Instr where
  /-- `WRCFG reg, value` (R202). -/
  | wrcfg (headXerr : Bool) (reg : Byte) (value : CmdWord)
  /-- `RDREG reg` (R203). -/
  | rdreg (headXerr : Bool) (reg : Byte)
  /-- `CREATE` (R204). -/
  | create (headXerr : Bool)
  /-- `BEGIN` (R205). -/
  | beginImage (headXerr : Bool)
  /-- `BLOCK p[0..15]`, four samples in each payload word (R206). -/
  | block (headXerr : Bool) (payload : Vector CmdWord 16)
  /-- `END` (R208). -/
  | endImage (headXerr : Bool)
  /-- `DESTROY` (R209). -/
  | destroy (headXerr : Bool)
  /-- `RDOUT addr` (R210). -/
  | rdout (headXerr : Bool) (addr : CmdWord)
  deriving DecidableEq, Repr

/-- The row of the opcode map a command belongs to. -/
def Instr.op : Instr → Op
  | .wrcfg _ _ _ => .wrcfg
  | .rdreg _ _ => .rdreg
  | .create _ => .create
  | .beginImage _ => .beginImage
  | .block _ _ => .block
  | .endImage _ => .endImage
  | .destroy _ => .destroy
  | .rdout _ _ => .rdout

end Sys2Proof
end

