-- ==== Sys2Proof/Decode.lean ====
section
/-! DEFINITION. The command encoding: opcode map, command length, decoder, encoder (R72 to R76, R78). -/

namespace Sys2Proof

/-- `op = w[31:24]` (R72). -/
def opField (w : Word) : Byte := w.extractLsb' 24 8

/-- `arg[7:0]`, the register number of format R (R74). -/
def regField (w : Word) : Byte := w.extractLsb' 0 8

/-- The `op` value of each command (R75). -/
def opCode : Op → Byte
  | .wrcfg => 0x01
  | .rdreg => 0x02
  | .create => 0x10
  | .beginImage => 0x11
  | .block => 0x12
  | .endImage => 0x13
  | .destroy => 0x14
  | .rdout => 0x20

/-- The eight rows of the opcode map. -/
def opMap : List Op := [.wrcfg, .rdreg, .create, .beginImage, .block, .endImage, .destroy, .rdout]

/-- The command an `op` value selects; `none` for every reserved value (R75). -/
def opOfCode (b : Byte) : Option Op := opMap.find? fun o => opCode o == b

/-- The `match` of a row: the `op` value above a zero `arg` (R75). -/
def opMatch (o : Op) : Word := opCode o ++ (0 : BitVec 24)

/-- The `mask` of a row: format R leaves the register number free, the other formats fix all of `arg` (R74, R75). -/
def opMask : Op → Word
  | .wrcfg => 0xFFFFFF00
  | .rdreg => 0xFFFFFF00
  | .create => 0xFFFFFFFF
  | .beginImage => 0xFFFFFFFF
  | .block => 0xFFFFFFFF
  | .endImage => 0xFFFFFFFF
  | .destroy => 0xFFFFFFFF
  | .rdout => 0xFFFFFFFF

/-- The number of payload words after the head word (R73, R74). -/
def payloadLength : Op → Nat
  | .wrcfg => 1
  | .rdreg => 0
  | .create => 0
  | .beginImage => 0
  | .block => 16
  | .endImage => 0
  | .destroy => 0
  | .rdout => 1

/-- Command length in words, a function of `op` alone; one for a reserved `op` (R73). -/
def commandLength (head : Word) : Nat :=
  match opOfCode (opField head) with
  | some o => payloadLength o + 1
  | none => 1

/-- What the command port holds at its front. -/
inductive Decoded where
  /-- The words of the front command have not all arrived; nothing happens until they have (R266). -/
  | waiting
  /-- A well-formed command and the words after it. -/
  | instr (i : Instr) (rest : List CmdWord)
  /-- A reserved `op`: a one-word command (R73, R75, R231 (a)). -/
  | undefinedOp (rest : List CmdWord)
  /-- A defined `op` with a reserved bit of `arg` set; all words of its length are consumed (R73, R231 (b)). -/
  | reservedArg (o : Op) (rest : List CmdWord)
  deriving DecidableEq, Repr

/-- The command of row `o` with head word `h`, its payload taken from `ps` (R74). -/
def buildInstr (o : Op) (h : CmdWord) (ps : List CmdWord) : Decoded :=
  match o with
  | .wrcfg =>
    match ps with
    | v :: rest => .instr (.wrcfg h.xerr (regField h.w) v) rest
    | [] => .waiting
  | .rdreg => .instr (.rdreg h.xerr (regField h.w)) ps
  | .create => .instr (.create h.xerr) ps
  | .beginImage => .instr (.beginImage h.xerr) ps
  | .block =>
    if hl : 16 ≤ ps.length then
      .instr (.block h.xerr ⟨(ps.take 16).toArray, by simp [hl]⟩) (ps.drop 16)
    else .waiting
  | .endImage => .instr (.endImage h.xerr) ps
  | .destroy => .instr (.destroy h.xerr) ps
  | .rdout =>
    match ps with
    | a :: rest => .instr (.rdout h.xerr a) rest
    | [] => .waiting

/-- Decoding the front of the command port (R73, R75): `op` gives the length and the row, then the row's match and mask
decide validity. The transfer-error bits take no part (R71, R73). -/
def decode : List CmdWord → Decoded
  | [] => .waiting
  | h :: ps =>
    match opOfCode (opField h.w) with
    | none => .undefinedOp ps
    | some o =>
      if ps.length < payloadLength o then .waiting
      else if h.w &&& opMask o = opMatch o then buildInstr o h ps
      else .reservedArg o (ps.drop (payloadLength o))

/-- The head word of a command: `op` and `arg` (R72, R78). -/
def headWord (o : Op) (reg : Byte) : Word := opCode o ++ ((0 : BitVec 16) ++ reg)

/-- The words of a command (R74, R78). -/
def encode : Instr → List CmdWord
  | .wrcfg x reg v => [⟨x, headWord .wrcfg reg⟩, v]
  | .rdreg x reg => [⟨x, headWord .rdreg reg⟩]
  | .create x => [⟨x, headWord .create 0⟩]
  | .beginImage x => [⟨x, headWord .beginImage 0⟩]
  | .block x p => ⟨x, headWord .block 0⟩ :: p.toList
  | .endImage x => [⟨x, headWord .endImage 0⟩]
  | .destroy x => [⟨x, headWord .destroy 0⟩]
  | .rdout x a => [⟨x, headWord .rdout 0⟩, a]

/-- A word the transport delivered completely. -/
def cleanWord (w : Word) : CmdWord := ⟨false, w⟩

/-- The command words of an instruction numbered as the opcode table numbers it: word `i` is bits `32 i + 31` down to
`32 i`, every bit from `nbits` up is 0, and there are as many words as the head word's `op` says. The transfer-error bits,
which the table does not number, are 0. -/
def tableWords (nbits w : Nat) : List CmdWord :=
  let v := w % 2 ^ nbits
  (List.range (commandLength (BitVec.ofNat 32 v))).map fun i => cleanWord (BitVec.ofNat 32 (v >>> (32 * i)))

/-- The instruction the decoder reads from bits numbered as the opcode table numbers them. -/
def decodeTableWord (nbits w : Nat) : Option Instr :=
  match decode (tableWords nbits w) with
  | .instr i _ => some i
  | .waiting => none
  | .undefinedOp _ => none
  | .reservedArg _ _ => none

/-- Four samples in one payload word, the first in the least significant byte (R53 (d), R78). -/
def packSamples (s0 s1 s2 s3 : Byte) : Word := s3 ++ (s2 ++ (s1 ++ s0))

/-- The sixteen payload words of a block of 64 samples in row-major order (R78). -/
def packBlock (s : Vector Byte 64) : Vector CmdWord 16 :=
  Vector.ofFn fun i : Fin 16 =>
    cleanWord (packSamples s[4 * i.val] s[4 * i.val + 1] s[4 * i.val + 2] s[4 * i.val + 3])

end Sys2Proof
end

