-- ==== Sys2Proof/Machine/State.lean ====
section
/-! DEFINITION. The state of the core as plain data, the response codes, and the state after reset (R20 to R39, R230, R261). -/

namespace Sys2Proof.Machine

/-- `STATE`, the lifecycle (R21). -/
inductive Lifecycle where
  | idle
  | created
  | encoding
  | destroyed
  deriving DecidableEq, Repr

/-- The 2-bit value of `STATE` (R21). -/
def Lifecycle.toBits : Lifecycle → BitVec 2
  | .idle => 0
  | .created => 1
  | .encoding => 2
  | .destroyed => 3

/-- The response codes; 9 to 15 are never produced (R230, U11). -/
inductive Code where
  | ok
  | eGeometry
  | eAlloc
  | eTransfer
  | eMalformed
  | eDestroyed
  | eQuality
  | eState
  | eIllegal
  deriving DecidableEq, Repr

/-- The 4-bit value of a response code (R230). -/
def Code.toBits : Code → BitVec 4
  | .ok => 0
  | .eGeometry => 1
  | .eAlloc => 2
  | .eTransfer => 3
  | .eMalformed => 4
  | .eDestroyed => 5
  | .eQuality => 6
  | .eState => 7
  | .eIllegal => 8

/-- A response: a code and 32 bits of data (R70, R77). -/
structure Response where
  code : Code
  data : Word
  deriving DecidableEq, Repr

/-- The five configuration registers (R24, R25). -/
structure Cfg where
  /-- `CFG_WIDTH`, number 0x00. -/
  width : Word
  /-- `CFG_HEIGHT`, number 0x01. -/
  height : Word
  /-- `CFG_NCOMP`, number 0x02. -/
  ncomp : Word
  /-- `CFG_QUALITY`, number 0x03. -/
  quality : Word
  /-- `CFG_SAMP`, number 0x04. -/
  samp : Word
  deriving DecidableEq, Repr

/-- The output space: address and byte of every byte that exists (R50, R51). An address that is not listed is a hole and has
no value. -/
abbrev Memory := List Host.Cell

/-- The canonical form of the output space: its addresses are 0, 1, 2, ... in this order, without a gap (R51). They are
strictly rising, and since an unlisted address has no value no entry can repeat one. -/
abbrev Memory.wf (m : Memory) : Prop := m.map Prod.fst = List.range m.length

/-- The state of the bitstream writer (R33, R36, R100). -/
structure Writer where
  /-- `OUT`. -/
  out : Memory
  /-- `ACC`, of which the low `NACC` bits are meaningful. -/
  acc : Byte
  /-- `NACC`, 0 to 7. -/
  nacc : Fin 8
  deriving DecidableEq, Repr

/-- The complete state (R20), the host's side of the ports (R70, R260) and the capacity of the instance (R9). -/
structure State where
  /-- `STATE` (R21). -/
  lifecycle : Lifecycle
  /-- `CFG[0..4]` (R24, R25). -/
  cfg : Cfg
  /-- `LAST_ERR` (R27). -/
  lastErr : Code
  /-- `OUT_VALID` (R33). -/
  outValid : Bool
  /-- `OUT`, `ACC` and `NACC` (R33, R36). -/
  bw : Writer
  /-- `BLK_DONE` (R29). -/
  blkDone : Word
  /-- `BLK_TOTAL` (R30). -/
  blkTotal : Word
  /-- `BLK_PER_MCU` (R31). -/
  blkPerMcu : BitVec 4
  /-- `QT[0]`, luminance, natural order (R32). -/
  qt0 : Vector Byte 64
  /-- `QT[1]`, chrominance, natural order (R32). -/
  qt1 : Vector Byte 64
  /-- `PRED[0..2]`, two's complement (R35). -/
  pred : Vector (BitVec 12) 3
  /-- `SB[0..63]` (R37). -/
  sb : Vector Byte 64
  /-- `TB[0..63]`, two's complement (R37). -/
  tb : Vector (BitVec 26) 64
  /-- `CB[0..63]`, two's complement, scaled by `2^32` (R37). -/
  cb : Vector (BitVec 44) 64
  /-- `QB[0..63]`, two's complement, natural order (R37). -/
  qb : Vector (BitVec 12) 64
  /-- `ZB[0..63]`, two's complement, zig-zag order (R37). -/
  zb : Vector (BitVec 12) 64
  /-- `OUT_CAP`, a parameter of the instance that nothing changes (R9, R52, R261). -/
  outCap : Word
  /-- The command port: words the host has sent and the core has not taken, oldest first (R58, R70, R264 H11). -/
  cmdPort : List CmdWord
  /-- The response port: responses the host has not taken, oldest first (R70, R264 H11). -/
  respPort : List Response
  /-- The reset input, asserted by the host (R260). -/
  resetIn : Bool
  deriving DecidableEq, Repr

/-- Why the model stops. The spec has no fault: every command has a defined response (R239). The cases below are those the
spec calls unreachable (a proof obligation, U17 and R141); a stop there is safe, and no state that meets the invariants of
R34 reaches one. -/
inductive Fault where
  /-- `QZ.quantize` would divide by a table entry that is 0; raised by `BLOCK` (R141: "The divisor is never 0"). Safe. -/
  | zeroTableEntry
  /-- `BLK_DONE mod BLK_PER_MCU` with `BLK_PER_MCU` = 0; raised by `BLOCK` (R34 (d), R206). Safe. -/
  | zeroBlkPerMcu
  /-- A symbol that has no Huffman code; raised by `BLOCK` (R162, U17: "treats a failed lookup as unreachable"). Safe. -/
  | noHuffmanCode
  deriving DecidableEq, Repr

/-- Why the model gives a command no meaning. -/
inductive Refusal where
  /-- Raised by an arm of `exec` that has no meaning yet; no arm raises it. Safe. -/
  | notModelled (mnemonic : String)
  deriving DecidableEq, Repr

/-- `n` equal values. -/
def vec (n : Nat) {α : Type} (x : α) : Vector α n := Vector.ofFn fun _ => x

/-- The state after a hardware reset of an instance with capacity `cap` (R261). The values of `SB`, `TB`, `CB`, `QB` and
`ZB` are the model's choice (DESIGN CHOICE, log entry 1: the spec leaves them unspecified). -/
def State.resetWith (cap : Word) : State where
  lifecycle := .idle
  cfg := ⟨0, 0, 0, 0, 0x00111111⟩
  lastErr := .ok
  outValid := false
  bw := ⟨[], 0, 0⟩
  blkDone := 0
  blkTotal := 0
  blkPerMcu := 0
  qt0 := vec 64 0
  qt1 := vec 64 0
  pred := vec 3 0
  sb := vec 64 0
  tb := vec 64 0
  cb := vec 64 0
  qb := vec 64 0
  zb := vec 64 0
  outCap := cap
  cmdPort := []
  respPort := []
  resetIn := false

/-- The state right after the first hardware reset (R261): the capacity is the open parameter of the instance. -/
def State.reset : State := State.resetWith Config.outCap

end Sys2Proof.Machine
end

