-- ==== Sys2Proof/Machine/Ops.lean ====
section
/-! DEFINITION. Operations shared by all commands: the output space, responses, failures and `discard`, the common front
end of a command, the host's side of the ports, and hardware reset (R12, R51, R52, R200, R201, R231, R236, R260). -/

namespace Sys2Proof.Machine

/-- What a step or a command answers. -/
abbrev Result := Host.Outcome State Fault Refusal

/-! ### The output space -/

/-- `MemRead(OUT, a, 1)`: the byte at address `a`; `none` at a hole (R12, R51). -/
def Memory.read : Memory → Nat → Option Byte
  | [], _ => none
  | (b, v) :: m, a => if b = a then some v else Memory.read m a

/-- One more byte at the next address, `|OUT|` (R12, R51). -/
def Memory.push (m : Memory) (v : Byte) : Memory := m ++ [(m.length, v)]

/-- The bytes in the order of their addresses. -/
def Memory.bytes (m : Memory) : List Byte := m.map Prod.snd

/-- `OutAppend(b)`, the only write to `OUT`; `none` is `raise E_ALLOC` (R52). -/
def outAppend (cap : Nat) (b : Byte) (w : Writer) : Option Writer :=
  if w.out.length + 1 > cap then none else some { w with out := w.out.push b }

/-! ### Responses and failures -/

/-- `respond(code, data)`: one response joins the response port (R70, R200). -/
def respond (c : Code) (data : Word) (s : State) : State :=
  { s with respPort := s.respPort ++ [⟨c, data⟩] }

/-- `LAST_ERR <- c` (R27, R200). -/
def setLastErr (c : Code) (s : State) : State := { s with lastErr := c }

/-- `RDREG` and `RDOUT` do not write `LAST_ERR` (R27, R200). -/
def writesLastErr : Op → Bool
  | .rdreg => false
  | .rdout => false
  | .wrcfg => true
  | .create => true
  | .beginImage => true
  | .block => true
  | .endImage => true
  | .destroy => true

/-- `ok(data)` of R200. -/
def succeed (o : Op) (data : Word) (s : State) : State :=
  respond .ok data (if writesLastErr o then setLastErr .ok s else s)

/-- `fail(code)` of R200: what stands for taking an exception. The code is recorded in `LAST_ERR` (not by the two reads), the
response carries it with data 0, and control goes nowhere (R230, R236). There is no return from it (R238). -/
def fail (o : Op) (c : Code) (s : State) : State :=
  respond c 0 (if writesLastErr o then setLastErr c s else s)

/-- `discard()`: the image in flight is given up; `ACC`, `NACC` and `PRED` are left as they were (R200, R236). -/
def discard (s : State) : State :=
  { s with bw := { s.bw with out := [] }, outValid := false, blkDone := 0, lifecycle := .created }

/-- A failure that discards the image (R236). -/
def failDiscard (o : Op) (c : Code) (s : State) : State := fail o c (discard s)

/-- A raise of `E_ALLOC` inside a command: `discard()` followed by `fail(E_ALLOC)`, from the state before the command (R200,
R234, R236; log entry 2). -/
def raiseAlloc (o : Op) (s : State) : State := failDiscard o .eAlloc s

/-- The answer to every command in `DESTROYED`: no state changes at all (R200 step 1, R235). -/
def answerDestroyed (s : State) : State := respond .eDestroyed 0 s

/-! ### The common front end of a command -/

/-- The states in which a command is legal (R201). -/
def legal (o : Op) (s : State) : Bool :=
  match o with
  | .wrcfg => s.lifecycle == .idle
  | .rdreg => s.lifecycle != .destroyed
  | .create => s.lifecycle == .idle
  | .beginImage => s.lifecycle == .created
  | .block => s.lifecycle == .encoding
  | .endImage => s.lifecycle == .encoding
  | .destroy => s.lifecycle == .created
  | .rdout => s.lifecycle == .created && s.outValid

/-- Steps 1, 4, 5 and 6 of R200 for a command that passed the decoder's steps 2 and 3; `xerr` says that some word of the
command has its transfer-error bit set, `run` is the command's own rule (R232, R233). -/
def gate (o : Op) (xerr : Bool) (s : State) (run : State → Result) : Result :=
  if s.lifecycle = .destroyed then .next (answerDestroyed s)
  else if xerr then
    if o = .block ∧ s.lifecycle = .encoding then .next (failDiscard o .eTransfer s)
    else .next (fail o .eTransfer s)
  else if legal o s then run s
  else .next (fail o .eState s)

/-- The answer to a reserved `op` (steps 1 and 2 of R200). A reserved `op` is neither of the two reads, so `LAST_ERR` is
written (R231 (a)). -/
def answerUndefinedOp (s : State) : State :=
  if s.lifecycle = .destroyed then answerDestroyed s else respond .eIllegal 0 (setLastErr .eIllegal s)

/-- The answer to a defined `op` with a reserved bit of `arg` set (steps 1 and 3 of R200, R231 (b)). -/
def answerReservedArg (o : Op) (s : State) : State :=
  if s.lifecycle = .destroyed then answerDestroyed s else fail o .eIllegal s

/-! ### Hardware reset and the host's side of the ports -/

/-- Hardware reset, in any state: the state of R261, of the same instance (R260). -/
def hardReset (s : State) : State := State.resetWith s.outCap

/-- The host asserts the reset input (R260, R267). -/
def hostAssertReset (s : State) : State := { s with resetIn := true }

/-- The host sends words to the command port (R6, R70, R264 H11). -/
def hostSend (ws : List CmdWord) (s : State) : State := { s with cmdPort := s.cmdPort ++ ws }

/-- The host takes the oldest response (R6, R70). -/
def hostTake (s : State) : Option (Response × State) :=
  match s.respPort with
  | [] => none
  | r :: rs => some (r, { s with respPort := rs })

/-- The words of one command at the front of the command port, with the reset input released. -/
def placeCommand (ws : List CmdWord) (s : State) : State :=
  { s with cmdPort := ws ++ s.cmdPort, resetIn := false }

end Sys2Proof.Machine
end

