-- ==== Sys2Proof/Machine/Operands.lean ====
section
/-! DEFINITION. Integer arithmetic of the spec and the operands of the commands: register numbers, sampling factors, image
geometry, the samples of a payload (R10, R11, R13, R23, R25, R53, R95, R204, R206, R207). -/

namespace Sys2Proof.Machine

/-! ### Arithmetic -/

/-- `ceil_div(n, d)` (R11). -/
def ceilDiv (n d : Nat) : Nat := (n + d - 1) / d

/-- `rhaz(n, d)`, round half away from zero of `n / d`, for `d > 0` (R11). -/
def rhaz (n : Int) (d : Nat) : Int :=
  if 0 ≤ n then (((2 * n.toNat + d) / (2 * d) : Nat) : Int)
  else -(((2 * (-n).toNat + d) / (2 * d) : Nat) : Int)

/-- `clamp(v, lo, hi)` (R11). -/
def clamp (v lo hi : Nat) : Nat := if v < lo then lo else if v > hi then hi else v

/-- `bitlen(m)`, the number of bits without leading zeros (R11). -/
def bitlen (m : Nat) : Nat := if m = 0 then 0 else m.log2 + 1

/-! ### Blocks of 64 values -/

/-- `k = 8 * row + col` (R13). -/
def ix (row col : Fin 8) : Fin 64 := ⟨8 * row.val + col.val, by omega⟩

/-- The row of index `k` (R13). -/
def rowOf (k : Fin 64) : Fin 8 := ⟨k.val / 8, by omega⟩

/-- The column of index `k` (R13). -/
def colOf (k : Fin 64) : Fin 8 := ⟨k.val % 8, by omega⟩

/-- The sum over 0 to 7 in that order. -/
def sum8 (f : Fin 8 → Int) : Int := f 0 + f 1 + f 2 + f 3 + f 4 + f 5 + f 6 + f 7

/-! ### Roles, components, sampling -/

/-- Luminance (0) or chrominance (1) (glossary). -/
inductive Role where
  | lum
  | chrom
  deriving DecidableEq, Repr

/-- Component 0 has the luminance role, components 1 and 2 the chrominance role (R95, R206). -/
def roleOf (c : Fin 3) : Role := if c = 0 then .lum else .chrom

/-- The quantization table of a role (R32, R95). -/
def qtOf (s : State) : Role → Vector Byte 64
  | .lum => s.qt0
  | .chrom => s.qt1

/-- `H_c`, bits `[8c+7 : 8c+4]` of `CFG_SAMP` (R25). -/
def hSamp (cfg : Cfg) (c : Nat) : Nat := (cfg.samp.extractLsb' (8 * c + 4) 4).toNat

/-- `V_c`, bits `[8c+3 : 8c]` of `CFG_SAMP` (R25). -/
def vSamp (cfg : Cfg) (c : Nat) : Nat := (cfg.samp.extractLsb' (8 * c) 4).toNat

/-- The reserved field of `CFG_SAMP`, bits `[31:24]` (R25). -/
def sampReserved (cfg : Cfg) : Byte := cfg.samp.extractLsb' 24 8

/-- `comp_of(j)`: the component of the `j`-th block of an MCU (R206). -/
def compOf (cfg : Cfg) (j : Nat) : Fin 3 :=
  if cfg.ncomp = 1 then 0
  else if j < hSamp cfg 0 * vSamp cfg 0 then 0
  else if j < hSamp cfg 0 * vSamp cfg 0 + hSamp cfg 1 * vSamp cfg 1 then 1
  else 2

/-! ### Geometry -/

/-- `Hmax` of R204 and R207: the largest horizontal factor, 1 for one component. -/
def hMax (cfg : Cfg) : Nat := if cfg.ncomp = 1 then 1 else max (hSamp cfg 0) (max (hSamp cfg 1) (hSamp cfg 2))

/-- `Vmax` of R204 and R207. -/
def vMax (cfg : Cfg) : Nat := if cfg.ncomp = 1 then 1 else max (vSamp cfg 0) (max (vSamp cfg 1) (vSamp cfg 2))

/-- The number of MCU columns, `MX` (R207 (b)). -/
def mcuCols (cfg : Cfg) : Nat := ceilDiv cfg.width.toNat (8 * hMax cfg)

/-- The number of MCU rows, `MY` (R207 (b)). -/
def mcuRows (cfg : Cfg) : Nat := ceilDiv cfg.height.toNat (8 * vMax cfg)

/-- The number of blocks in one MCU, `bpm` of R204. -/
def blocksPerMcu (cfg : Cfg) : Nat :=
  if cfg.ncomp = 1 then 1
  else hSamp cfg 0 * vSamp cfg 0 + hSamp cfg 1 * vSamp cfg 1 + hSamp cfg 2 * vSamp cfg 2

/-- The number of blocks of one image, `total` of R204. -/
def totalBlocks (cfg : Cfg) : Nat := mcuCols cfg * mcuRows cfg * blocksPerMcu cfg

/-- A sampling factor that check (e) of R204 accepts. -/
def factorOk (f : Nat) : Bool := decide (1 ≤ f ∧ f ≤ 4)

/-- Checks (a) to (f) of R204; width, height and component count are read as `signed32`. -/
def geometryOk (cfg : Cfg) : Bool :=
  decide (1 ≤ cfg.width.toInt ∧ cfg.width.toInt ≤ 65535) &&
  decide (1 ≤ cfg.height.toInt ∧ cfg.height.toInt ≤ 65535) &&
  decide (cfg.ncomp.toInt = 1 ∨ cfg.ncomp.toInt = 3) &&
  sampReserved cfg == 0 &&
  (if cfg.ncomp.toInt = 1 then hSamp cfg 0 == 1 && vSamp cfg 0 == 1
   else
    factorOk (hSamp cfg 0) && factorOk (vSamp cfg 0) &&
    factorOk (hSamp cfg 1) && factorOk (vSamp cfg 1) &&
    factorOk (hSamp cfg 2) && factorOk (vSamp cfg 2) &&
    decide (blocksPerMcu cfg ≤ 10))

/-- Check (g) of R204. -/
def qualityOk (cfg : Cfg) : Bool := decide (1 ≤ cfg.quality.toInt ∧ cfg.quality.toInt ≤ 100)

/-! ### Registers and payloads -/

/-- `CFG[reg] <- value` for the numbers 0x00 to 0x04; `none` for every other number (R23, R202). -/
def writeCfg (cfg : Cfg) (reg : Byte) (v : Word) : Option Cfg :=
  match reg.toNat with
  | 0 => some { cfg with width := v }
  | 1 => some { cfg with height := v }
  | 2 => some { cfg with ncomp := v }
  | 3 => some { cfg with quality := v }
  | 4 => some { cfg with samp := v }
  | _ => none

/-- Sample `k` of a payload: byte `k mod 4` of payload word `k div 4`, the least significant first (R53 (d), R206). -/
def samplesOf (p : Vector CmdWord 16) : Vector Byte 64 :=
  Vector.ofFn fun k : Fin 64 => (p[k.val / 4].w).extractLsb' (8 * (k.val % 4)) 8

/-- Whether some word of a list has its transfer-error bit set (R71, R200 step 4). -/
def anyXerr (ws : List CmdWord) : Bool := ws.any CmdWord.xerr

end Sys2Proof.Machine
end

