-- ==== Sys2Proof/Machine/Flags.lean ====
section
/-! DEFINITION. What the read-only registers return (R23 to R32, R203). The one flag of the core is `OUT_VALID` (R39): it is set
by `END` and cleared by `BEGIN`, `DESTROY`, a discard and reset. -/

namespace Sys2Proof.Machine

/-- `STATUS`: `OUT_VALID` in bit 2, `STATE` in bits 1 and 0, the rest 0 (R26). -/
def statusWord (s : State) : Word := (BitVec.ofBool s.outValid ++ s.lifecycle.toBits).setWidth 32

/-- `OUT_LEN`: `|OUT|` when `OUT_VALID` is 1, else 0 (R28). -/
def outLen (s : State) : Word := if s.outValid then BitVec.ofNat 32 s.bw.out.length else 0

/-- The value `RDREG` returns for a register number; `none` for the undefined numbers (R23, R203). -/
def readReg (s : State) (reg : Byte) : Option Word :=
  match reg.toNat with
  | 0x00 => some s.cfg.width
  | 0x01 => some s.cfg.height
  | 0x02 => some s.cfg.ncomp
  | 0x03 => some s.cfg.quality
  | 0x04 => some s.cfg.samp
  | 0x10 => some (statusWord s)
  | 0x11 => some (s.lastErr.toBits.setWidth 32)
  | 0x12 => some (outLen s)
  | 0x13 => some s.blkDone
  | 0x14 => some s.blkTotal
  | 0x15 => some (s.blkPerMcu.setWidth 32)
  | n =>
    if h0 : 0x40 ≤ n ∧ n < 0x80 then some ((s.qt0[n - 0x40]'(by omega)).setWidth 32)
    else if h1 : 0x80 ≤ n ∧ n < 0xC0 then some ((s.qt1[n - 0x80]'(by omega)).setWidth 32)
    else none

end Sys2Proof.Machine
end

