-- ==== Sys2Proof/Machine/QTable.lean ====
section
/-! DEFINITION. The quantization table builder QTB (R90 to R96). -/

namespace Sys2Proof.Machine

/-- `REF[0]`, luminance, natural order, row 0 first (R92). -/
def refLumList : List Nat :=
  [16, 11, 10, 16, 24, 40, 51, 61] ++
  [12, 12, 14, 19, 26, 58, 60, 55] ++
  [14, 13, 16, 24, 40, 57, 69, 56] ++
  [14, 17, 22, 29, 51, 87, 80, 62] ++
  [18, 22, 37, 56, 68, 109, 103, 77] ++
  [24, 35, 55, 64, 81, 104, 113, 92] ++
  [49, 64, 78, 87, 103, 121, 120, 101] ++
  [72, 92, 95, 98, 112, 100, 103, 99]

/-- `REF[1]`, chrominance, natural order, row 0 first (R92). -/
def refChromList : List Nat :=
  [17, 18, 24, 47, 99, 99, 99, 99] ++
  [18, 21, 26, 66, 99, 99, 99, 99] ++
  [24, 26, 56, 99, 99, 99, 99, 99] ++
  [47, 66, 99, 99, 99, 99, 99, 99] ++
  [99, 99, 99, 99, 99, 99, 99, 99] ++
  [99, 99, 99, 99, 99, 99, 99, 99] ++
  [99, 99, 99, 99, 99, 99, 99, 99] ++
  [99, 99, 99, 99, 99, 99, 99, 99]

/-- `REF[r]` (R92). -/
def refTable : Role → Vector Nat 64
  | .lum => ⟨refLumList.toArray, rfl⟩
  | .chrom => ⟨refChromList.toArray, rfl⟩

/-- `scale` of a quality from 1 to 100 (R91, R93). -/
def qScale (quality : Nat) : Nat := if quality < 50 then 5000 / quality else 200 - 2 * quality

/-- One table entry from its reference entry (R91). -/
def qEntry (quality ref : Nat) : Nat := clamp ((ref * qScale quality + 50) / 100) 1 255

/-- `QTB.build(quality)` for one role; called with a quality from 1 to 100 only (R90, R91). -/
def buildTable (quality : Nat) (r : Role) : Vector Byte 64 :=
  Vector.ofFn fun k : Fin 64 => BitVec.ofNat 8 (qEntry quality (refTable r)[k.val])

end Sys2Proof.Machine
end

