-- ==== Sys2Proof/Machine/Context.lean ====
section
/-! DEFINITION. The context commands CREATE and DESTROY (R204, R209). -/

namespace Sys2Proof.Machine

/-- The state a successful `CREATE` leaves, before its response (R204). -/
def createContext (s : State) : State :=
  { s with
    qt0 := buildTable s.cfg.quality.toNat .lum
    qt1 := buildTable s.cfg.quality.toNat .chrom
    blkPerMcu := BitVec.ofNat 4 (blocksPerMcu s.cfg)
    blkTotal := BitVec.ofNat 32 (totalBlocks s.cfg)
    blkDone := 0
    lifecycle := .created }

/-- The rule of `CREATE` after the common front end (R204): the geometry checks, then the quality check, then the tables. -/
def ruleCreate (s : State) : Result :=
  if geometryOk s.cfg then
    if qualityOk s.cfg then .next (succeed .create (BitVec.ofNat 32 (totalBlocks s.cfg)) (createContext s))
    else .next (fail .create .eQuality s)
  else .next (fail .create .eGeometry s)

/-- `CREATE` (R200, R204). -/
def execCreate (x : Bool) (s : State) : Result := gate .create x s ruleCreate

/-- The state a successful `DESTROY` leaves, before its response (R209). -/
def destroyContext (s : State) : State :=
  { s with bw := { s.bw with out := [] }, outValid := false, lifecycle := .destroyed }

/-- The rule of `DESTROY` after the common front end (R209). -/
def ruleDestroy (s : State) : Result := .next (succeed .destroy 0 (destroyContext s))

/-- `DESTROY` (R200, R209). -/
def execDestroy (x : Bool) (s : State) : Result := gate .destroy x s ruleDestroy

end Sys2Proof.Machine
end

