-- ==== Sys2Proof/Machine/Dct.lean ====
section
/-! DEFINITION. The forward 8x8 DCT-II, FDCT (R120 to R128). -/

namespace Sys2Proof.Machine

/-- The transform matrix `K`, row `j`, column `i` (R122). -/
def kMatrix : Vector (Vector Int 8) 8 := #v[
  #v[23170, 23170, 23170, 23170, 23170, 23170, 23170, 23170],
  #v[32138, 27246, 18205, 6393, -6393, -18205, -27246, -32138],
  #v[30274, 12540, -12540, -30274, -30274, -12540, 12540, 30274],
  #v[27246, -6393, -32138, -18205, 18205, 32138, 6393, -27246],
  #v[23170, -23170, -23170, 23170, 23170, -23170, -23170, 23170],
  #v[18205, -32138, 6393, 27246, -27246, -6393, 32138, -18205],
  #v[12540, -30274, 30274, -12540, -12540, 30274, -30274, 12540],
  #v[6393, -18205, 27246, -32138, 32138, -27246, 18205, -6393]]

/-- `K[j][i]` (R122). -/
def kRom (j i : Fin 8) : Int := kMatrix[j.val][i.val]

/-- `KM[0..7]`, the magnitudes the matrix is made of (R122). -/
def kmRom : Vector Int 8 := #v[23170, 32138, 30274, 27246, 23170, 18205, 12540, 6393]

/-- `SG[4]` (R122). -/
def sg4 : Vector Int 8 := #v[1, -1, -1, 1, 1, -1, -1, 1]

/-- `SG[j][i]` for the two rows that exist, 0 and 4 (R122). -/
def sgRom (j i : Fin 8) : Int := if j = 0 then 1 else sg4[i.val]

/-- The level shift: `xs[k] = SB[k] - 128` (R123). -/
def levelShift (sb : Vector Byte 64) (k : Fin 64) : Int := (sb[k.val].toNat : Int) - 128

/-- The value the row pass gives `TB[8*y + u]` (R124). -/
def rowSum (sb : Vector Byte 64) (y u : Fin 8) : Int :=
  sum8 fun x => kRom u x * levelShift sb (ix y x)

/-- The row pass (R124, R127). -/
def rowPass (sb : Vector Byte 64) : Vector (BitVec 26) 64 :=
  Vector.ofFn fun k : Fin 64 => BitVec.ofInt 26 (rowSum sb (rowOf k) (colOf k))

/-- The four exact positions: `v` and `u` both 0 or 4 (R126). -/
def exactPosition (v u : Fin 8) : Bool := (v == 0 || v == 4) && (u == 0 || u == 4)

/-- The column pass at an exact position (R126). -/
def exactSum (sb : Vector Byte 64) (v u : Fin 8) : Int :=
  2 ^ 29 * sum8 fun y => sum8 fun x => sgRom v y * sgRom u x * levelShift sb (ix y x)

/-- The column pass at every other position (R125). -/
def colSum (tb : Vector (BitVec 26) 64) (v u : Fin 8) : Int :=
  sum8 fun y => kRom v y * (tb[(ix y u).val]).toInt

/-- The column pass (R125 to R127). -/
def colPass (sb : Vector Byte 64) (tb : Vector (BitVec 26) 64) : Vector (BitVec 44) 64 :=
  Vector.ofFn fun k : Fin 64 =>
    BitVec.ofInt 44
      (if exactPosition (rowOf k) (colOf k) then exactSum sb (rowOf k) (colOf k)
       else colSum tb (rowOf k) (colOf k))

end Sys2Proof.Machine
end

