-- ==== Sys2Proof/Machine/BitWriter.lean ====
section
/-! DEFINITION. The bitstream writer BW (R100 to R109). Every operation takes the capacity of the output buffer and answers
`none` where an append raises `E_ALLOC`. -/

namespace Sys2Proof.Machine

/-- `BW.emit_data_byte(b)`: a byte of entropy-coded data, with a zero byte after a literal 0xFF (R101). -/
def emitDataByte (cap : Nat) (b : Byte) (w : Writer) : Option Writer :=
  (outAppend cap b w).bind fun w1 => if b = 0xFF then outAppend cap 0x00 w1 else some w1

/-- `ACC` with one more bit in its least significant place (R102). -/
def accShift (acc : Byte) (b : Bool) : Byte := (acc <<< 1) ||| (BitVec.ofBool b).setWidth 8

/-- `BW.put_bit(b)` (R102). -/
def putBit (cap : Nat) (b : Bool) (w : Writer) : Option Writer :=
  if w.nacc = 7 then emitDataByte cap (accShift w.acc b) { w with acc := 0, nacc := 0 }
  else some { w with acc := accShift w.acc b, nacc := w.nacc + 1 }

/-- `BW.put_bits(v, n)`: bit `n - 1` of `v` first, bit 0 last (R53 (b), R103). -/
def putBits (cap : Nat) (v : Nat) : Nat → Writer → Option Writer
  | 0, w => some w
  | n + 1, w => (putBit cap (v.testBit n) w).bind (putBits cap v n)

/-- The loop of `BW.flush` with at most `fuel` turns (R104). -/
def flushLoop (cap : Nat) : Nat → Writer → Option Writer
  | 0, w => some w
  | fuel + 1, w => if w.nacc = 0 then some w else (putBit cap true w).bind (flushLoop cap fuel)

/-- `BW.flush()`: the loop ends after at most seven bits, since `NACC` is at most 7 (R104). -/
def flush (cap : Nat) (w : Writer) : Option Writer := flushLoop cap 7 w

/-- `BW.put_byte(b)`, a raw byte that is never stuffed. Its precondition `NACC = 0` holds at every call: `BEGIN` calls it
after `BW.reset` and `END` after `BW.flush` (R105). -/
def putByte (cap : Nat) (b : Byte) (w : Writer) : Option Writer := outAppend cap b w

/-- `BW.put_byte` for each byte of a list in order (R107). -/
def putBytes (cap : Nat) : List Byte → Writer → Option Writer
  | [], w => some w
  | b :: bs, w => (putByte cap b w).bind (putBytes cap bs)

/-- `BW.put_marker(m)` (R106). -/
def putMarker (cap : Nat) (m : Byte) (w : Writer) : Option Writer := putBytes cap [0xFF, m] w

/-- The two bytes of a 16-bit field, the more significant first (R53 (c)). -/
def bigEndian16 (n : Nat) : List Byte := [BitVec.ofNat 8 (n / 256), BitVec.ofNat 8 n]

/-- `BW.put_segment(m, payload)`: the length field counts itself and the payload (R107). -/
def putSegment (cap : Nat) (m : Byte) (payload : List Byte) (w : Writer) : Option Writer :=
  (putMarker cap m w).bind (putBytes cap (bigEndian16 (payload.length + 2) ++ payload))

/-- The writer after `BW.reset()`; the same rule clears `OUT_VALID` (R108). -/
def resetWriter : Writer := ⟨[], 0, 0⟩

/-- `BW.finalize()` without its last effect, `OUT_VALID <- 1`, which `END` adds when every append succeeded (R109, R208). -/
def finalize (cap : Nat) (w : Writer) : Option Writer := (flush cap w).bind (putMarker cap 0xD9)

end Sys2Proof.Machine
end

