-- ==== Sys2Proof/Machine/Huffman.lean ====
section
/-! DEFINITION. The four Huffman tables and the construction of their codes (R153 to R162). -/

namespace Sys2Proof.Machine

/-- Which kind of symbol a table codes (R160). -/
inductive CoefKind where
  | dc
  | ac
  deriving DecidableEq, Repr

/-- Table number `t` of a kind and role: 0 DC luminance, 1 AC luminance, 2 DC chrominance, 3 AC chrominance (R160). -/
def tableNumber : CoefKind → Role → Fin 4
  | .dc, .lum => 0
  | .ac, .lum => 1
  | .dc, .chrom => 2
  | .ac, .chrom => 3

/-- `HT_BITS[t][1..16]`, the number of codes of each length (R154, R155, R156, R158). -/
def htBits (t : Fin 4) : List Nat :=
  match t with
  | 0 => [0, 1, 5, 1, 1, 1, 1, 1, 1, 0, 0, 0, 0, 0, 0, 0]
  | 1 => [0, 2, 1, 3, 3, 2, 4, 3, 5, 5, 4, 4, 0, 0, 1, 125]
  | 2 => [0, 3, 1, 1, 1, 1, 1, 1, 1, 1, 1, 0, 0, 0, 0, 0]
  | 3 => [0, 2, 1, 2, 4, 4, 3, 4, 7, 5, 4, 4, 0, 1, 2, 119]

/-- `HT_VALS[0]` and `HT_VALS[2]`, the twelve DC categories (R154, R155). -/
def dcVals : List Byte := [0, 1, 2, 3, 4, 5, 6, 7, 8, 9, 10, 11]

/-- `HT_VALS[1]`, the 162 AC luminance symbols (R156). -/
def acLumVals : List Byte :=
  [0x01, 0x02, 0x03, 0x00, 0x04, 0x11, 0x05, 0x12, 0x21, 0x31, 0x41, 0x06, 0x13, 0x51, 0x61, 0x07] ++
  [0x22, 0x71, 0x14, 0x32, 0x81, 0x91, 0xA1, 0x08, 0x23, 0x42, 0xB1, 0xC1, 0x15, 0x52, 0xD1, 0xF0] ++
  [0x24, 0x33, 0x62, 0x72, 0x82, 0x09, 0x0A, 0x16, 0x17, 0x18, 0x19, 0x1A, 0x25, 0x26, 0x27, 0x28] ++
  [0x29, 0x2A, 0x34, 0x35, 0x36, 0x37, 0x38, 0x39, 0x3A, 0x43, 0x44, 0x45, 0x46, 0x47, 0x48, 0x49] ++
  [0x4A, 0x53, 0x54, 0x55, 0x56, 0x57, 0x58, 0x59, 0x5A, 0x63, 0x64, 0x65, 0x66, 0x67, 0x68, 0x69] ++
  [0x6A, 0x73, 0x74, 0x75, 0x76, 0x77, 0x78, 0x79, 0x7A, 0x83, 0x84, 0x85, 0x86, 0x87, 0x88, 0x89] ++
  [0x8A, 0x92, 0x93, 0x94, 0x95, 0x96, 0x97, 0x98, 0x99, 0x9A, 0xA2, 0xA3, 0xA4, 0xA5, 0xA6, 0xA7] ++
  [0xA8, 0xA9, 0xAA, 0xB2, 0xB3, 0xB4, 0xB5, 0xB6, 0xB7, 0xB8, 0xB9, 0xBA, 0xC2, 0xC3, 0xC4, 0xC5] ++
  [0xC6, 0xC7, 0xC8, 0xC9, 0xCA, 0xD2, 0xD3, 0xD4, 0xD5, 0xD6, 0xD7, 0xD8, 0xD9, 0xDA, 0xE1, 0xE2] ++
  [0xE3, 0xE4, 0xE5, 0xE6, 0xE7, 0xE8, 0xE9, 0xEA, 0xF1, 0xF2, 0xF3, 0xF4, 0xF5, 0xF6, 0xF7, 0xF8] ++
  [0xF9, 0xFA]

/-- `HT_VALS[3]`, the 162 AC chrominance symbols (R158). -/
def acChromVals : List Byte :=
  [0x00, 0x01, 0x02, 0x03, 0x11, 0x04, 0x05, 0x21, 0x31, 0x06, 0x12, 0x41, 0x51, 0x07, 0x61, 0x71] ++
  [0x13, 0x22, 0x32, 0x81, 0x08, 0x14, 0x42, 0x91, 0xA1, 0xB1, 0xC1, 0x09, 0x23, 0x33, 0x52, 0xF0] ++
  [0x15, 0x62, 0x72, 0xD1, 0x0A, 0x16, 0x24, 0x34, 0xE1, 0x25, 0xF1, 0x17, 0x18, 0x19, 0x1A, 0x26] ++
  [0x27, 0x28, 0x29, 0x2A, 0x35, 0x36, 0x37, 0x38, 0x39, 0x3A, 0x43, 0x44, 0x45, 0x46, 0x47, 0x48] ++
  [0x49, 0x4A, 0x53, 0x54, 0x55, 0x56, 0x57, 0x58, 0x59, 0x5A, 0x63, 0x64, 0x65, 0x66, 0x67, 0x68] ++
  [0x69, 0x6A, 0x73, 0x74, 0x75, 0x76, 0x77, 0x78, 0x79, 0x7A, 0x82, 0x83, 0x84, 0x85, 0x86, 0x87] ++
  [0x88, 0x89, 0x8A, 0x92, 0x93, 0x94, 0x95, 0x96, 0x97, 0x98, 0x99, 0x9A, 0xA2, 0xA3, 0xA4, 0xA5] ++
  [0xA6, 0xA7, 0xA8, 0xA9, 0xAA, 0xB2, 0xB3, 0xB4, 0xB5, 0xB6, 0xB7, 0xB8, 0xB9, 0xBA, 0xC2, 0xC3] ++
  [0xC4, 0xC5, 0xC6, 0xC7, 0xC8, 0xC9, 0xCA, 0xD2, 0xD3, 0xD4, 0xD5, 0xD6, 0xD7, 0xD8, 0xD9, 0xDA] ++
  [0xE2, 0xE3, 0xE4, 0xE5, 0xE6, 0xE7, 0xE8, 0xE9, 0xEA, 0xF2, 0xF3, 0xF4, 0xF5, 0xF6, 0xF7, 0xF8] ++
  [0xF9, 0xFA]

/-- `HT_VALS[t]`, the symbols in order of increasing code length. -/
def htVals (t : Fin 4) : List Byte :=
  match t with
  | 0 => dcVals
  | 1 => acLumVals
  | 2 => dcVals
  | 3 => acChromVals

/-- A symbol with its code, a number of `len` bits (R153). -/
structure HuffEntry where
  sym : Byte
  len : Nat
  code : Nat
  deriving DecidableEq, Repr

/-- The inner loop of the canonical construction: `n` codes of length `len` from `code` on; the entries, the next code and
the symbols left (R153). -/
def assignLength (len : Nat) : Nat → Nat → List Byte → List HuffEntry × Nat × List Byte
  | 0, code, vals => ([], code, vals)
  | _ + 1, code, [] => ([], code, [])
  | n + 1, code, v :: vals =>
    (⟨v, len, code⟩ :: (assignLength len n (code + 1) vals).1, (assignLength len n (code + 1) vals).2)

/-- The outer loop of the canonical construction, from length `len` on (R153). -/
def assignCodes : List Nat → Nat → Nat → List Byte → List HuffEntry
  | [], _, _, _ => []
  | b :: bits, len, code, vals =>
    (assignLength len b code vals).1 ++
      assignCodes bits (len + 1) (2 * (assignLength len b code vals).2.1) (assignLength len b code vals).2.2

/-- Table `t` with its codes, in the order of `HT_VALS[t]` (R153). -/
def huffTable (t : Fin 4) : List HuffEntry := assignCodes (htBits t) 1 0 (htVals t)

/-- `HT_CODE[t][sym]` and `HT_LEN[t][sym]`; `none` for a symbol that has no code (R161 (d), R162). -/
def huffCode (t : Fin 4) (sym : Nat) : Option HuffEntry :=
  (huffTable t).find? fun e => e.sym.toNat == sym

end Sys2Proof.Machine
end

