-- ==== Sys2Proof/Machine/Entropy.lean ====
section
/-! DEFINITION. The run-length and Huffman entropy coder, EC (R150 to R166). What a block writes is the list of its calls of
`BW.put_bits` in order, a function of `ZB`, the predictor and the role alone; the writer then carries the list out. -/

namespace Sys2Proof.Machine

/-- The arguments `(v, n)` of one call of `BW.put_bits`. -/
abbrev BitsCall := Nat × Nat

/-- The category of a value (R152). -/
def category (v : Int) : Nat := bitlen v.natAbs

/-- `value_bits(v, s)` (R152). -/
def valueBits (v : Int) (s : Nat) : Nat := if v > 0 then v.toNat else (v + 2 ^ s - 1).toNat

/-- The call that writes the code of a symbol; `none` where the symbol has no code. -/
def symbolCall (t : Fin 4) (sym : Nat) : Option BitsCall := (huffCode t sym).map fun e => (e.code, e.len)

/-- Part (b) of R151: the category of the DC difference, then its value bits. -/
def dcCalls (t : Fin 4) (diff : Int) : Option (List BitsCall) :=
  (symbolCall t (category diff)).map fun c =>
    if category diff > 0 then [c, (valueBits diff (category diff), category diff)] else [c]

/-- The calls for one non-zero AC value after `run` zeros: a ZRL for each 16 of them, the symbol of the rest and the
category, the value bits (R151, R164 (a)). -/
def acValueCalls (t : Fin 4) (run : Nat) (v : Int) : Option (List BitsCall) :=
  match symbolCall t 0xF0, symbolCall t (run % 16 * 16 + category v) with
  | some zrl, some c => some (List.replicate (run / 16) zrl ++ [c, (valueBits v (category v), category v)])
  | _, _ => none

/-- Part (c) of R151: the values still to be visited, after `run` zeros. -/
def acCalls (t : Fin 4) : Nat → List Int → Option (List BitsCall)
  | run, [] => if run > 0 then (symbolCall t 0x00).map fun c => [c] else some []
  | run, v :: vs =>
    if v = 0 then acCalls t (run + 1) vs
    else
      match acValueCalls t run v, acCalls t 0 vs with
      | some here, some after => some (here ++ after)
      | _, _ => none

/-- The AC values `ZB[1..63]` in the order they are visited. -/
def acValues (zb : Vector (BitVec 12) 64) : List Int := zb.toList.tail.map BitVec.toInt

/-- All calls of `EC.block(c)` for a component with role `r` and predictor `pred` (R151); `none` where a symbol has no code,
which R162 shows unreachable. -/
def blockCalls (r : Role) (pred : BitVec 12) (zb : Vector (BitVec 12) 64) : Option (List BitsCall) :=
  match dcCalls (tableNumber .dc r) (zb[0].toInt - pred.toInt), acCalls (tableNumber .ac r) 0 (acValues zb) with
  | some dc, some ac => some (dc ++ ac)
  | _, _ => none

/-- The calls carried out by the writer in order; `none` where an append raises `E_ALLOC`. -/
def putCalls (cap : Nat) : List BitsCall → Writer → Option Writer
  | [], w => some w
  | c :: cs, w => (putBits cap c.1 c.2 w).bind (putCalls cap cs)

end Sys2Proof.Machine
end

