-- ==== Sys2Proof/Machine/Quantizer.lean ====
section
/-! DEFINITION. The quantizer with coefficient reorder, QZ (R140 to R147). -/

namespace Sys2Proof.Machine

/-- The zig-zag table as rows of eight (R143). -/
def zigzagList : List (Fin 64) :=
  [0, 1, 8, 16, 9, 2, 3, 10] ++
  [17, 24, 32, 25, 18, 11, 4, 5] ++
  [12, 19, 26, 33, 40, 48, 41, 34] ++
  [27, 20, 13, 6, 7, 14, 21, 28] ++
  [35, 42, 49, 56, 57, 50, 43, 36] ++
  [29, 22, 15, 23, 30, 37, 44, 51] ++
  [58, 59, 52, 45, 38, 31, 39, 46] ++
  [53, 60, 61, 54, 47, 55, 62, 63]

/-- `ZZ[0..63]`: the natural index of the coefficient visited `z`-th (R143). -/
def zigzag : Vector (Fin 64) 64 := ⟨zigzagList.toArray, rfl⟩

/-- Whether some entry of a table is 0, in which case it is no divisor (R141). -/
def hasZeroEntry (qt : Vector Byte 64) : Bool := qt.toList.any fun e => e == 0

/-- One quantized coefficient: coefficient over table entry, rounded once (R141). -/
def quantizeOne (c : BitVec 44) (q : Byte) : Int := rhaz c.toInt (q.toNat * 2 ^ 32)

/-- `QZ.quantize(role)` with the table of the role, for a table without a zero entry (R141). -/
def quantize (qt : Vector Byte 64) (cb : Vector (BitVec 44) 64) : Vector (BitVec 12) 64 :=
  Vector.ofFn fun k : Fin 64 => BitVec.ofInt 12 (quantizeOne cb[k.val] qt[k.val])

/-- Any block of 64 values in zig-zag order: `QZ.reorder()` for coefficients, and the order of the entries in a
quantization-table segment (R144, R184). -/
def reorder {α : Type} (b : Vector α 64) : Vector α 64 :=
  Vector.ofFn fun z : Fin 64 => b[(zigzag[z.val]).val]

end Sys2Proof.Machine
end

