-- ==== Sys2Proof/Machine/Headers.lean ====
section
/-! DEFINITION. The marker segments before the scan, HDR (R180 to R192). -/

namespace Sys2Proof.Machine

/-- `APP0_PAYLOAD` (R183). -/
def app0Payload : List Byte :=
  [0x4A, 0x46, 0x49, 0x46, 0x00, 0x01, 0x01, 0x00, 0x00, 0x01, 0x00, 0x01, 0x00, 0x00]

/-- `dqt_payload(r)`: precision 0 and table identifier `r`, then the entries in zig-zag order (R184). -/
def dqtPayload (tq : Byte) (qt : Vector Byte 64) : List Byte := tq :: (reorder qt).toList

/-- The bytes of component `c` in the frame header: identifier, sampling byte, table selector (R186). -/
def sof0Component (cfg : Cfg) (c : Nat) : List Byte :=
  [BitVec.ofNat 8 (c + 1), cfg.samp.extractLsb' (8 * c) 8, if c = 0 then 0x00 else 0x01]

/-- `sof0_payload()` (R186). -/
def sof0Payload (cfg : Cfg) : List Byte :=
  [0x08] ++ bigEndian16 cfg.height.toNat ++ bigEndian16 cfg.width.toNat ++ [cfg.ncomp.setWidth 8] ++
    (List.range cfg.ncomp.toNat).flatMap (sof0Component cfg)

/-- `TCTH[t]` (R187). -/
def tcth (t : Fin 4) : Byte :=
  match t with
  | 0 => 0x00
  | 1 => 0x10
  | 2 => 0x01
  | 3 => 0x11

/-- `dht_payload(t)` (R187). -/
def dhtPayload (t : Fin 4) : List Byte := tcth t :: ((htBits t).map (BitVec.ofNat 8) ++ htVals t)

/-- The bytes of component `c` in the scan header: identifier and table destinations (R189). -/
def sosComponent (c : Nat) : List Byte := [BitVec.ofNat 8 (c + 1), if c = 0 then 0x00 else 0x11]

/-- `sos_payload()` (R189). -/
def sosPayload (cfg : Cfg) : List Byte :=
  [cfg.ncomp.setWidth 8] ++ (List.range cfg.ncomp.toNat).flatMap sosComponent ++ [0x00, 0x3F, 0x00]

/-- The segments of `HDR.write_headers()` after start-of-image: marker code and payload, in order (R181). -/
def headerSegments (cfg : Cfg) (qt0 qt1 : Vector Byte 64) : List (Byte × List Byte) :=
  [(0xE0, app0Payload), (0xDB, dqtPayload 0 qt0), (0xDB, dqtPayload 1 qt1), (0xC0, sof0Payload cfg),
   (0xC4, dhtPayload 0), (0xC4, dhtPayload 1), (0xC4, dhtPayload 2), (0xC4, dhtPayload 3), (0xDA, sosPayload cfg)]

/-- `BW.put_segment` for each segment of a list in order. -/
def putSegments (cap : Nat) : List (Byte × List Byte) → Writer → Option Writer
  | [], w => some w
  | g :: gs, w => (putSegment cap g.1 g.2 w).bind (putSegments cap gs)

/-- `HDR.write_headers()` (R181). -/
def writeHeaders (cap : Nat) (cfg : Cfg) (qt0 qt1 : Vector Byte 64) (w : Writer) : Option Writer :=
  (putMarker cap 0xD8 w).bind (putSegments cap (headerSegments cfg qt0 qt1))

/-- The bytes of a segment as it stands in the stream: marker, length, payload (R106, R107). -/
def segmentBytes (g : Byte × List Byte) : List Byte :=
  [0xFF, g.1] ++ bigEndian16 (g.2.length + 2) ++ g.2

/-- The bytes of the header as they stand in the stream (R181, R190). -/
def headerBytes (cfg : Cfg) (qt0 qt1 : Vector Byte 64) : List Byte :=
  [0xFF, 0xD8] ++ (headerSegments cfg qt0 qt1).flatMap segmentBytes

/-- The length of the header, which depends on the component count only (R190). -/
def headerLength (cfg : Cfg) : Nat := if cfg.ncomp = 1 then 613 else 623

end Sys2Proof.Machine
end

