-- ==== Sys2Proof/Machine/Encode.lean ====
section
/-! DEFINITION. The commands of one image: BEGIN, BLOCK and END (R205, R206, R208). -/

namespace Sys2Proof.Machine

/-- The state a successful `BEGIN` leaves, before its response, when the headers are in `w` (R205). -/
def beginWith (w : Writer) (s : State) : State :=
  { s with bw := w, outValid := false, pred := vec 3 0, blkDone := 0, lifecycle := .encoding }

/-- The rule of `BEGIN` after the common front end (R205). -/
def ruleBegin (s : State) : Result :=
  match writeHeaders s.outCap.toNat s.cfg s.qt0 s.qt1 resetWriter with
  | none => .next (raiseAlloc .beginImage s)
  | some w => .next (succeed .beginImage (BitVec.ofNat 32 w.out.length) (beginWith w s))

/-- `BEGIN` (R200, R205). -/
def execBegin (x : Bool) (s : State) : Result := gate .beginImage x s ruleBegin

/-- The component of the next block: its position in the sequence alone decides (R206). -/
def nextComponent (s : State) : Fin 3 := compOf s.cfg (s.blkDone.toNat % s.blkPerMcu.toNat)

/-- The samples of the payload in `SB` (R37, R206). -/
def loadSamples (payload : Vector CmdWord 16) (s : State) : State := { s with sb := samplesOf payload }

/-- `FDCT.run`: the row pass fills `TB` from `SB`, the column pass fills `CB` (R37, R127). -/
def runTransform (s : State) : State := { s with tb := rowPass s.sb, cb := colPass s.sb (rowPass s.sb) }

/-- `QZ.run(role)`: `QB` from `CB` and the table of the role, then `ZB` from `QB` (R37, R145). -/
def runQuantizer (r : Role) (s : State) : State :=
  { s with qb := quantize (qtOf s r) s.cb, zb := reorder (quantize (qtOf s r) s.cb) }

/-- The state with the five datapath buffers of one block filled stage by stage (R57, R206). -/
def runStages (payload : Vector CmdWord 16) (r : Role) (s : State) : State :=
  runQuantizer r (runTransform (loadSamples payload s))

/-- The state a successful `BLOCK` for component `c` leaves, before its response, when `d` is the state after the stages and
the code is in `w` (R151, R206). -/
def blockWith (c : Fin 3) (w : Writer) (d : State) : State :=
  { d with bw := w, pred := d.pred.set c d.zb[0], blkDone := d.blkDone + 1 }

/-- `EC.block(c)` and the end of `BLOCK`, for the state `d` after the stages; `s` is the state before the command, which a
raise of `E_ALLOC` falls back to (R151, R206, R236). -/
def codeBlock (c : Fin 3) (s d : State) : Result :=
  match blockCalls (roleOf c) d.pred[c] d.zb with
  | none => .fault .noHuffmanCode
  | some calls =>
    match putCalls d.outCap.toNat calls d.bw with
    | none => .next (raiseAlloc .block s)
    | some w => .next (succeed .block (d.blkDone + 1) (blockWith c w d))

/-- The rule of `BLOCK p[0..15]` after the common front end (R206). -/
def ruleBlock (payload : Vector CmdWord 16) (s : State) : Result :=
  if s.blkTotal ≤ s.blkDone then .next (failDiscard .block .eMalformed s)
  else if s.blkPerMcu = 0 then .fault .zeroBlkPerMcu
  else if hasZeroEntry (qtOf s (roleOf (nextComponent s))) then .fault .zeroTableEntry
  else codeBlock (nextComponent s) s (runStages payload (roleOf (nextComponent s)) s)

/-- `BLOCK p[0..15]` (R200, R206). -/
def execBlock (x : Bool) (payload : Vector CmdWord 16) (s : State) : Result :=
  gate .block (x || anyXerr payload.toList) s (ruleBlock payload)

/-- The state a successful `END` leaves, before its response, when the finished stream is in `w` (R208). -/
def endWith (w : Writer) (s : State) : State :=
  { s with bw := w, outValid := true, lifecycle := .created }

/-- The rule of `END` after the common front end (R208). -/
def ruleEnd (s : State) : Result :=
  if s.blkDone = s.blkTotal then
    match finalize s.outCap.toNat s.bw with
    | none => .next (raiseAlloc .endImage s)
    | some w => .next (succeed .endImage (BitVec.ofNat 32 w.out.length) (endWith w s))
  else .next (failDiscard .endImage .eMalformed s)

/-- `END` (R200, R208). -/
def execEnd (x : Bool) (s : State) : Result := gate .endImage x s ruleEnd

end Sys2Proof.Machine
end

