-- ==== Sys2Proof/Machine/Readback.lean ====
section
/-! DEFINITION. The readback command RDOUT (R210). -/

namespace Sys2Proof.Machine

/-- The rule of `RDOUT addr` after the common front end (R210): an address that holds no byte is one not below `|OUT|`
(R51). -/
def ruleRdout (addr : Word) (s : State) : Result :=
  match Memory.read s.bw.out addr.toNat with
  | some b => .next (succeed .rdout (b.setWidth 32) s)
  | none => .next (fail .rdout .eIllegal s)

/-- `RDOUT addr` (R200, R210). -/
def execRdout (x : Bool) (addr : CmdWord) (s : State) : Result :=
  gate .rdout (x || addr.xerr) s (ruleRdout addr.w)

end Sys2Proof.Machine
end

