-- ==== Sys2Proof/Machine/RegAccess.lean ====
section
/-! DEFINITION. The register commands WRCFG and RDREG (R202, R203). -/

namespace Sys2Proof.Machine

/-- The rule of `WRCFG reg, value` after the common front end (R202). -/
def ruleWrcfg (reg : Byte) (value : Word) (s : State) : Result :=
  match writeCfg s.cfg reg value with
  | some cfg => .next (succeed .wrcfg 0 { s with cfg := cfg })
  | none => .next (fail .wrcfg .eIllegal s)

/-- `WRCFG reg, value` (R200, R202). -/
def execWrcfg (x : Bool) (reg : Byte) (value : CmdWord) (s : State) : Result :=
  gate .wrcfg (x || value.xerr) s (ruleWrcfg reg value.w)

/-- The rule of `RDREG reg` after the common front end (R203). -/
def ruleRdreg (reg : Byte) (s : State) : Result :=
  match readReg s reg with
  | some v => .next (succeed .rdreg v s)
  | none => .next (fail .rdreg .eIllegal s)

/-- `RDREG reg` (R200, R203). -/
def execRdreg (x : Bool) (reg : Byte) (s : State) : Result := gate .rdreg x s (ruleRdreg reg)

end Sys2Proof.Machine
end

