-- ==== Sys2Proof/Machine/Dispatch.lean ====
section
/-! DEFINITION. One arm per command (R200 step 6). -/

namespace Sys2Proof.Machine

def exec (i : Instr) (s : State) : Host.Outcome State Fault Refusal :=
  match i with
  | .wrcfg x reg value => Sys2Proof.Machine.execWrcfg x reg value s
  | .rdreg x reg => Sys2Proof.Machine.execRdreg x reg s
  | .create x => Sys2Proof.Machine.execCreate x s
  | .beginImage x => Sys2Proof.Machine.execBegin x s
  | .block x payload => Sys2Proof.Machine.execBlock x payload s
  | .endImage x => Sys2Proof.Machine.execEnd x s
  | .destroy x => Sys2Proof.Machine.execDestroy x s
  | .rdout x addr => Sys2Proof.Machine.execRdout x addr s

end Sys2Proof.Machine
end

