-- ==== Sys2Proof/Machine/Step.lean ====
section
/-! DEFINITION. One step of the core: it executes one whole command (R6, R7, R58, R200). -/

namespace Sys2Proof.Machine

/-- Hardware reset if its input is asserted (R260); otherwise the command at the front of the command port is taken and
executed (R58); otherwise, when no whole command has arrived, nothing changes (R247, R266). -/
def step (s : State) : Host.Outcome State Fault Refusal :=
  if s.resetIn then .next (hardReset s)
  else
    match decode s.cmdPort with
    | .waiting => .next s
    | .instr i rest => exec i { s with cmdPort := rest }
    | .undefinedOp rest => .next (answerUndefinedOp { s with cmdPort := rest })
    | .reservedArg o rest => .next (answerReservedArg o { s with cmdPort := rest })

/-- The instruction with bits `w`, numbered as the opcode table numbers them, at the front of the command port, where the
next step takes its command; the reset input is released, or the next step would be a reset. -/
def State.withFetchWord (s : State) (nbits w : Nat) : State := placeCommand (tableWords nbits w) s

end Sys2Proof.Machine
end

