-- ==== Sys2Proof/Machine/HostContract.lean ====
section
/-! DEFINITION. The host's side: the order in which it must send the blocks of an image (R207) and the pseudo-commands that map
the three operations of the source onto commands (R79). The core checks the number of blocks only (R207 (d), (e)). -/

namespace Sys2Proof.Machine

/-- Where a block lies: component, block column and block row in the plane of the component (R207 (b), (c)). -/
structure BlockPlace where
  comp : Fin 3
  col : Nat
  row : Nat
  deriving DecidableEq, Repr

/-- `H_c` of the plane of component `c`, 1 for an image of one component (R207 (b)). -/
def planeH (cfg : Cfg) (c : Fin 3) : Nat := if cfg.ncomp = 1 then 1 else hSamp cfg c.val

/-- `V_c` of the plane of component `c`, 1 for an image of one component (R207 (b)). -/
def planeV (cfg : Cfg) (c : Fin 3) : Nat := if cfg.ncomp = 1 then 1 else vSamp cfg c.val

/-- The position inside an MCU of the first block of component `c` (R206). -/
def compStart (cfg : Cfg) (c : Fin 3) : Nat :=
  if c = 0 then 0
  else if c = 1 then hSamp cfg 0 * vSamp cfg 0
  else hSamp cfg 0 * vSamp cfg 0 + hSamp cfg 1 * vSamp cfg 1

/-- The place of the `i`-th block of an image: MCU by MCU in raster order, inside an MCU component by component, inside a
component row by row (R207 (c)). -/
def blockPlace (cfg : Cfg) (i : Nat) : BlockPlace :=
  let mcu := i / blocksPerMcu cfg
  let c := compOf cfg (i % blocksPerMcu cfg)
  let k := i % blocksPerMcu cfg - compStart cfg c
  { comp := c
    col := mcu % mcuCols cfg * planeH cfg c + k % planeH cfg c
    row := mcu / mcuCols cfg * planeV cfg c + k / planeH cfg c }

/-- A place in the plane of its component: `MX * H_c` by `MY * V_c` blocks (R207 (b)). -/
def inPlane (cfg : Cfg) (p : BlockPlace) : Prop :=
  (p.comp.val < 1 ∨ cfg.ncomp ≠ 1) ∧ p.col < mcuCols cfg * planeH cfg p.comp ∧ p.row < mcuRows cfg * planeV cfg p.comp

/-- The component planes the host presents (R207 (a), (b)): the sample of a component in a column and a row of its plane, an
unsigned byte. -/
abbrev Planes := Fin 3 → Nat → Nat → Byte

/-- The 8 by 8 samples at a place of the planes, row by row from the top left (R13, R207 (c)). -/
def blockAt (planes : Planes) (p : BlockPlace) : Vector Byte 64 :=
  Vector.ofFn fun k : Fin 64 => planes p.comp (8 * p.col + (colOf k).val) (8 * p.row + (rowOf k).val)

/-- The blocks of an image in the order the host must send them (R207 (c), (d)). -/
def orderedBlocks (cfg : Cfg) (planes : Planes) : List (Vector Byte 64) :=
  (List.range (totalBlocks cfg)).map fun i => blockAt planes (blockPlace cfg i)

/-- The number of sample columns of component `c` that show part of the real image. DEDUCED (log entry 17): R207 (b) gives the
size of the plane, not where in the plane of a subsampled component the real image ends. Unsafe for a claim about a decoded
picture, of which none is stated; the core checks none of this (R207 (e)). -/
def realCols (cfg : Cfg) (c : Fin 3) : Nat := ceilDiv (cfg.width.toNat * planeH cfg c) (hMax cfg)

/-- The number of sample rows of component `c` that show part of the real image. DEDUCED, unsafe in the same way
(log entry 17). -/
def realRows (cfg : Cfg) (c : Fin 3) : Nat := ceilDiv (cfg.height.toNat * planeV cfg c) (vMax cfg)

/-- Right and bottom edge replication: a sample outside the real image is that of the last real column and row (R207 (b)). -/
def EdgesReplicated (cfg : Cfg) (planes : Planes) : Prop :=
  ∀ p : BlockPlace, inPlane cfg p → ∀ y x : Fin 8,
    planes p.comp (8 * p.col + x.val) (8 * p.row + y.val) =
      planes p.comp (min (8 * p.col + x.val) (realCols cfg p.comp - 1)) (min (8 * p.row + y.val) (realRows cfg p.comp - 1))

/-- `BlocksInOrder` (R270): the blocks are those of planes as R207 (a) to (c) ask for. The core checks none of it (R207 (e)). -/
def BlocksInOrder (cfg : Cfg) (planes : Planes) (blocks : List (Vector Byte 64)) : Prop :=
  EdgesReplicated cfg planes ∧ blocks = orderedBlocks cfg planes

/-- `SETUP w, h, n, q` (R79). -/
def pseudoSetup (w h n q : Word) : List Instr :=
  [.wrcfg false 0x00 (cleanWord w), .wrcfg false 0x01 (cleanWord h), .wrcfg false 0x02 (cleanWord n),
   .wrcfg false 0x03 (cleanWord q), .create false]

/-- One `WRCFG` for each of the five configuration registers, the first five commands of `SETUP` with `samp` (R79, R270). -/
def configWrites (w h n q samp : Word) : List Instr :=
  [.wrcfg false 0x00 (cleanWord w), .wrcfg false 0x01 (cleanWord h), .wrcfg false 0x02 (cleanWord n),
   .wrcfg false 0x03 (cleanWord q), .wrcfg false 0x04 (cleanWord samp)]

/-- `SETUP w, h, n, q, samp` (R79). -/
def pseudoSetupSamp (w h n q samp : Word) : List Instr := configWrites w h n q samp ++ [.create false]

/-- `ENCODE_IMAGE b[0], ..., b[N-1]` (R79). -/
def pseudoEncodeImage (blocks : List (Vector Byte 64)) : List Instr :=
  [.beginImage false] ++ blocks.map (fun b => .block false (packBlock b)) ++ [.endImage false]

/-- `READ_IMAGE` for a stream of `len` bytes (R79). -/
def pseudoReadImage (len : Nat) : List Instr :=
  [.rdreg false 0x12] ++ (List.range len).map fun a => .rdout false (cleanWord (BitVec.ofNat 32 a))

end Sys2Proof.Machine
end

