-- ==== Sys2Proof/Safety.lean ====
section
/-! DEFINITION. The terms claims use: the bits a writer holds (R36, R53), the shape of a stream (R110, R191), the invariants of
R34, what the host can see of a state (R8), the stream the rules produce for given blocks, and the premises of a successful
encode (R270). -/

namespace Sys2Proof.Machine

/-! ### Bits and stuffed bytes -/

/-- The low `n` bits of a number, bit `n - 1` first (R53 (b)). -/
def bitsOf (v n : Nat) : List Bool := (List.range n).map fun i => v.testBit (n - 1 - i)

/-- The bits of a data byte, bit 7 first (R53 (a)). -/
def byteBits (b : Byte) : List Bool := bitsOf b.toNat 8

/-- The pending bits of the partial byte, the earliest first (R36). -/
def pendingBits (w : Writer) : List Bool := bitsOf w.acc.toNat w.nacc.val

/-- The bits of a sequence of calls of `BW.put_bits`. -/
def callBits (cs : List BitsCall) : List Bool := cs.flatMap fun c => bitsOf c.1 c.2

/-- Data bytes as they stand in the stream, a zero byte after each 0xFF (R101). -/
def stuffBytes (raw : List Byte) : List Byte := raw.flatMap fun b => if b = 0xFF then [0xFF, 0x00] else [b]

/-- The number of bits of a sequence of calls. -/
def bitCount (cs : List BitsCall) : Nat := (cs.map Prod.snd).sum

/-- The number of bytes `END` appends: `FF D9` and, when bits are pending, the padded byte, which is 0xFF and is stuffed exactly
when all of them are 1 (R101, R104, R109, R234). -/
def endBytes (w : Writer) : Nat :=
  if w.nacc = 0 then 2 else if pendingBits w = List.replicate w.nacc.val true then 4 else 3

/-! ### Invariants -/

/-- The scan data of the image in flight is `raw`, stuffed, after the header (R110, R190). -/
def ScanData (s : State) (raw : List Byte) : Prop :=
  Memory.bytes s.bw.out = headerBytes s.cfg s.qt0 s.qt1 ++ stuffBytes raw

/-- `OUT` is a finished stream with scan data `raw`: header, stuffed data of at least one byte, end-of-image (R191). -/
def FinishedStream (s : State) (raw : List Byte) : Prop :=
  raw ≠ [] ∧ Memory.bytes s.bw.out = headerBytes s.cfg s.qt0 s.qt1 ++ stuffBytes raw ++ [0xFF, 0xD9]

/-- The configuration passed every check of `CREATE` and what `CREATE` computes from it is in place (R204). -/
def ContextBuilt (s : State) : Prop :=
  geometryOk s.cfg = true ∧ qualityOk s.cfg = true ∧
  s.qt0 = buildTable s.cfg.quality.toNat .lum ∧ s.qt1 = buildTable s.cfg.quality.toNat .chrom ∧
  s.blkPerMcu = BitVec.ofNat 4 (blocksPerMcu s.cfg) ∧ s.blkTotal = BitVec.ofNat 32 (totalBlocks s.cfg)

/-- Every predictor is a value a quantized DC coefficient can take (R35). -/
def PredInRange (s : State) : Prop :=
  ∀ c : Fin 3, -1024 ≤ (s.pred[c.val]).toInt ∧ (s.pred[c.val]).toInt ≤ 1016

/-- The invariant that every step keeps. It implies the invariants of R34 and says what R33, R35, R52 and R191 add to them. -/
structure Sound (s : State) : Prop where
  memory : Memory.wf s.bw.out
  capacity : s.bw.out.length ≤ s.outCap.toNat
  idle : s.lifecycle = .idle → s.bw.out = [] ∧ s.blkTotal = 0
  destroyed : s.lifecycle = .destroyed → s.bw.out = []
  valid : s.outValid = true → s.lifecycle = .created ∧ s.bw.nacc = 0 ∧ ∃ raw, FinishedStream s raw
  created : s.lifecycle = .created → s.outValid = false → s.bw.out = []
  encoding : s.lifecycle = .encoding →
    PredInRange s ∧ ∃ raw, ScanData s raw ∧ (0 < s.blkDone.toNat → raw ≠ [] ∨ s.bw.nacc ≠ 0)
  configured : s.lifecycle = .created ∨ s.lifecycle = .encoding → ContextBuilt s
  counted : s.blkDone ≤ s.blkTotal

/-- The six invariants of R34, in the words of the rule. -/
structure InvariantR34 (s : State) : Prop where
  a : s.outValid = true → s.lifecycle = .created ∧ 616 ≤ s.bw.out.length
  b : s.lifecycle = .encoding → s.outValid = false ∧ s.bw.nacc.val ≤ 7 ∧ 613 ≤ s.bw.out.length
  c : s.lifecycle = .idle → s.bw.out.length = 0 ∧ s.outValid = false ∧ s.blkTotal = 0
  d : s.lifecycle = .created ∨ s.lifecycle = .encoding →
    geometryOk s.cfg = true ∧ qualityOk s.cfg = true ∧
    (∀ r : Role, ∀ k : Fin 64, 1 ≤ ((qtOf s r)[k.val]).toNat ∧ ((qtOf s r)[k.val]).toNat ≤ 255) ∧
    1 ≤ s.blkPerMcu.toNat ∧ s.blkPerMcu.toNat ≤ s.blkTotal.toNat
  e : s.lifecycle = .created → s.outValid = false → s.bw.out.length = 0
  f : s.blkDone.toNat ≤ s.blkTotal.toNat

/-! ### What the host can see -/

/-- Two states of one context: same lifecycle, configuration and tables, and the same input to come (R60). -/
structure SameContext (s t : State) : Prop where
  lifecycle : s.lifecycle = t.lifecycle
  cfg : s.cfg = t.cfg
  blkTotal : s.blkTotal = t.blkTotal
  blkPerMcu : s.blkPerMcu = t.blkPerMcu
  qt0 : s.qt0 = t.qt0
  qt1 : s.qt1 = t.qt1
  outCap : s.outCap = t.outCap
  cmdPort : s.cmdPort = t.cmdPort
  resetIn : s.resetIn = t.resetIn

/-- Two states the host cannot tell apart, now or later: they agree on everything it can read, and during an image on the bits
and predictors that later bytes depend on. The datapath buffers and the responses already given may differ (R8, R36, R37). -/
structure SameView (s t : State) : Prop extends SameContext s t where
  lastErr : s.lastErr = t.lastErr
  outValid : s.outValid = t.outValid
  out : s.bw.out = t.bw.out
  blkDone : s.blkDone = t.blkDone
  inFlight : s.lifecycle = .encoding → s.bw = t.bw ∧ s.pred = t.pred

/-- The responses a step adds to the response port. -/
def NewResponses (s t : State) (rs : List Response) : Prop := t.respPort = s.respPort ++ rs

/-! ### The stream the rules produce -/

/-- `ZB` of a block with samples `sb` under the quantization table `qt` (R127, R145). -/
def quantizedBlock (qt sb : Vector Byte 64) : Vector (BitVec 12) 64 := reorder (quantize qt (colPass sb (rowPass sb)))

/-- The calls of `BW.put_bits` for the blocks from number `j` on, with predictors `pred` (R151, R206); `none` where a symbol has
no code, which R162 shows unreachable. -/
def scanCalls (cfg : Cfg) : Nat → Vector (BitVec 12) 3 → List (Vector Byte 64) → Option (List BitsCall)
  | _, _, [] => some []
  | j, pred, sb :: sbs =>
    let c := compOf cfg (j % blocksPerMcu cfg)
    let zb := quantizedBlock (buildTable cfg.quality.toNat (roleOf c)) sb
    match blockCalls (roleOf c) pred[c] zb, scanCalls cfg (j + 1) (pred.set c zb[0]) sbs with
    | some here, some after => some (here ++ after)
    | _, _ => none

/-- `stream` is what the rules produce for an image of the blocks `blocks` with the configuration `cfg`: the header, the bits of
the blocks padded with 1-bits to whole bytes and stuffed, `FF D9` (R191, R205, R206, R208). It depends on nothing else. -/
def StreamOfRules (cfg : Cfg) (blocks : List (Vector Byte 64)) (stream : List Byte) : Prop :=
  ∃ (calls : List BitsCall) (raw : List Byte), scanCalls cfg 0 (vec 3 0) blocks = some calls ∧
    raw.flatMap byteBits = callBits calls ++ List.replicate ((8 - bitCount calls % 8) % 8) true ∧
    stream = headerBytes cfg (buildTable cfg.quality.toNat .lum) (buildTable cfg.quality.toNat .chrom) ++
      stuffBytes raw ++ [0xFF, 0xD9]

/-! ### What commands carry -/

/-- The samples of a `BLOCK`. -/
def blockSamples : Instr → Option (Vector Byte 64)
  | .wrcfg _ _ _ => none
  | .rdreg _ _ => none
  | .create _ => none
  | .beginImage _ => none
  | .block _ payload => some (samplesOf payload)
  | .endImage _ => none
  | .destroy _ => none
  | .rdout _ _ => none

/-- The blocks a sequence of commands sends, in order. -/
def blocksOf (cmds : List Instr) : List (Vector Byte 64) := cmds.filterMap blockSamples

/-- The register numbers that exist (R23). -/
def regDefined (reg : Byte) : Bool :=
  decide (reg.toNat ≤ 0x04 ∨ (0x10 ≤ reg.toNat ∧ reg.toNat ≤ 0x15) ∨ (0x40 ≤ reg.toNat ∧ reg.toNat ≤ 0xBF))

/-- The response code of a command of a successful encode: `OK`, but for an `RDREG` of a number that does not exist (R231 (d)). -/
def successCode : Instr → Code
  | .wrcfg _ _ _ => .ok
  | .rdreg _ reg => if regDefined reg then .ok else .eIllegal
  | .create _ => .ok
  | .beginImage _ => .ok
  | .block _ _ => .ok
  | .endImage _ => .ok
  | .destroy _ => .ok
  | .rdout _ _ => .ok

/-! ### Premises (R270) -/

/-- `FreshReset`: the state of R261, of some instance, with any contents of the datapath buffers, which the rule leaves
unspecified, and any responses not yet taken. -/
def FreshReset (s : State) : Prop :=
  s = { State.resetWith s.outCap with sb := s.sb, tb := s.tb, cb := s.cb, qb := s.qb, zb := s.zb, respPort := s.respPort }

/-- `Configured(W, H, n, q, samp)`: the five `WRCFG` commands, in some order (R263), and a `CREATE` are the next commands of `s`;
they lead to `t`, and the `CREATE` is answered `OK`. -/
def Configured (w h n q samp : Word) (writes : List Instr) (s t : State) : Prop :=
  writes.Perm (configWrites w h n q samp) ∧
  (∃ rest, s.cmdPort = (writes ++ [Instr.create false]).flatMap encode ++ rest) ∧
  core.run 6 s = .next t ∧ t.respPort.getLast?.map Response.code = some .ok

/-- `NoTransferError`: every transfer-error bit is 0. -/
def NoTransferError (cmds : List Instr) : Prop := anyXerr (cmds.flatMap encode) = false

/-- `CapAtLeast(L)`. -/
def CapAtLeast (s : State) (l : Nat) : Prop := l ≤ s.outCap.toNat

/-- `WellFormedImage`: `BEGIN`, exactly `total` `BLOCK`s, `END`, with only `RDREG` between. -/
def WellFormedImage (total : Word) (cmds : List Instr) : Prop :=
  ∃ (x y : Bool) (between : List Instr), cmds = .beginImage x :: between ++ [.endImage y] ∧
    (∀ i ∈ between, i.op = .block ∨ i.op = .rdreg) ∧ (blocksOf between).length = total.toNat

end Sys2Proof.Machine
end

