-- ==== Sys2Proof/WellFormed.lean ====
section
/-! DEFINITION. Well-formed commands, as lists of words and as instructions (R73 to R75). -/

namespace Sys2Proof

/-- A list of words is a well-formed command iff it is not empty, its `op` is in the opcode map, it has the length of its
`op`, and its head word meets the row's match and mask (R73, R75). Payload words have no reserved bits (R74). -/
def wellFormedWords : List CmdWord → Bool
  | [] => false
  | h :: ps =>
    match opOfCode (opField h.w) with
    | none => false
    | some o => ps.length == payloadLength o && (h.w &&& opMask o == opMatch o)

/-- An instruction is well-formed when its words are. Every field of `Instr` has exactly the values its encoding admits
(R74), so no instruction is excluded: what can be ill-formed is a list of words, which `wellFormedWords` checks. -/
def Instr.wellFormed (i : Instr) : Bool := wellFormedWords (encode i)

end Sys2Proof
end

