-- ==== Sys2Proof/Certificates/Slice0/Obligations.lean ====
section
/-! DEFINITION. The statements for the provers, each with the rule of the spec it formalises. -/

open Sys2Proof Sys2Proof.Machine

/-! ### Encoding -/

/-- R72 to R75: decoding the words of any command, whatever follows them, gives that command with every operand bit and every
transfer-error bit, and leaves what follows. -/
def Obligations.DecodeOfEncodeIsTheCommand : Prop :=
  ∀ (i : Instr) (rest : List CmdWord), decode (encode i ++ rest) = .instr i rest

/-- R72, R76: a command has one encoding: words that decode to a command are the words of that command, they are well-formed
as R75 says, and every well-formed word list decodes. -/
def Obligations.EveryCommandHasOneEncoding : Prop :=
  (∀ (ws : List CmdWord) (i : Instr) (rest : List CmdWord), decode ws = .instr i rest → ws = encode i ++ rest) ∧
  (∀ ws : List CmdWord, wellFormedWords ws = true ↔ ∃ i : Instr, ws = encode i) ∧
  (∀ (o o' : Op) (w : Word), w &&& opMask o = opMatch o → w &&& opMask o' = opMatch o' → o = o')

/-- R73: the length of a command is a function of `op` alone, and a command is taken exactly when all its words have arrived. -/
def Obligations.CommandLengthFollowsOp : Prop :=
  ∀ (h : CmdWord) (ps : List CmdWord),
    commandLength h.w =
      (if opField h.w = 0x01 ∨ opField h.w = 0x20 then 2 else if opField h.w = 0x12 then 17 else 1) ∧
    (decode (h :: ps) = .waiting ↔ ps.length + 1 < commandLength h.w) ∧
    (∀ i rest, decode (h :: ps) = .instr i rest → rest = ps.drop (commandLength h.w - 1)) ∧
    (∀ rest, decode (h :: ps) = .undefinedOp rest → rest = ps.drop (commandLength h.w - 1)) ∧
    (∀ o rest, decode (h :: ps) = .reservedArg o rest → rest = ps.drop (commandLength h.w - 1))

/-- R74, R75: a head word is refused for its `op` exactly when `op` is none of the eight, and for its reserved bits exactly when
a bit of `arg[23:8]` (format R) or of `arg[23:0]` (the other formats) is 1; it is then refused as a word of the row of its own
`op`. -/
def Obligations.ReservedHeadWordsAreRefused : Prop :=
  ∀ (h : CmdWord) (ps : List CmdWord), commandLength h.w ≤ ps.length + 1 →
    ((∃ rest, decode (h :: ps) = .undefinedOp rest) ↔
      opField h.w ∉ ([0x01, 0x02, 0x10, 0x11, 0x12, 0x13, 0x14, 0x20] : List Byte)) ∧
    ((∃ o rest, decode (h :: ps) = .reservedArg o rest) ↔
      (opField h.w ∈ ([0x01, 0x02] : List Byte) ∧ h.w.extractLsb' 8 16 ≠ 0) ∨
      (opField h.w ∈ ([0x10, 0x11, 0x12, 0x13, 0x14, 0x20] : List Byte) ∧ h.w.extractLsb' 0 24 ≠ 0)) ∧
    (∀ o rest, decode (h :: ps) = .reservedArg o rest → opCode o = opField h.w)

/-- R75, R78: words written out from the opcode map decode to the commands they stand for. -/
def Obligations.KnownWordsDecode : Prop :=
  decode [cleanWord 0x01000003, cleanWord 0x0000004B] = .instr (.wrcfg false 0x03 (cleanWord 75)) [] ∧
  decode [cleanWord 0x02000012] = .instr (.rdreg false 0x12) [] ∧
  decode [cleanWord 0x10000000, cleanWord 0x11000000] = .instr (.create false) [cleanWord 0x11000000] ∧
  decode [⟨true, 0x11000000⟩] = .instr (.beginImage true) [] ∧
  decode (cleanWord 0x12000000 :: List.replicate 16 (cleanWord 0x80808080)) =
    .instr (.block false (vec 16 (cleanWord 0x80808080))) [] ∧
  decode [cleanWord 0x13000000] = .instr (.endImage false) [] ∧
  decode [cleanWord 0x14000000] = .instr (.destroy false) [] ∧
  decode [cleanWord 0x20000000, cleanWord 0x00000277] = .instr (.rdout false (cleanWord 631)) [] ∧
  decode [cleanWord 0x10000001] = .reservedArg .create [] ∧
  decode [cleanWord 0x02000110] = .reservedArg .rdreg [] ∧
  decode [cleanWord 0x55000000] = .undefinedOp []

/-- R53 (d), R206: sample `4i + j` of a block is bits `[8j+7 : 8j]` of payload word `i`, so the samples a host packs by R78 are
the samples the core unpacks. -/
def Obligations.SamplesArePackedLittleEndian : Prop :=
  (∀ (p : Vector CmdWord 16) (i : Fin 16) (j : Fin 4) (b : Fin 8),
    ((samplesOf p)[4 * i.val + j.val]).getLsbD b.val = (p[i.val].w).getLsbD (8 * j.val + b.val)) ∧
  (∀ s : Vector Byte 64, samplesOf (packBlock s) = s)

/-! ### One step -/

/-- R58: a step takes the words of one command from the port and executes that command; the words after it stay for the steps
to come. -/
def Obligations.StepRunsTheDecodedCommand : Prop :=
  ∀ (s : State) (i : Instr) (rest : List CmdWord), s.resetIn = false → s.cmdPort = encode i ++ rest →
    step s = exec i { s with cmdPort := rest }

/-- R247, R266: while no whole command has arrived the core waits with no state change. -/
def Obligations.WaitingChangesNothing : Prop :=
  ∀ s : State, s.resetIn = false →
    (s.cmdPort = [] ∨ ∃ h ps, s.cmdPort = h :: ps ∧ ps.length + 1 < commandLength h.w) → step s = .next s

/-- R260, R261: reset in any state, in `DESTROYED` and with a command partly received too, puts every piece of state at the
value the spec states for it (the spec states none for the datapath buffers). -/
def Obligations.ResetFromEveryState : Prop :=
  ∀ s : State, s.resetIn = true → ∃ t : State, step s = .next t ∧
    t.lifecycle = .idle ∧ t.cfg = ⟨0, 0, 0, 0, 0x00111111⟩ ∧ t.lastErr = .ok ∧ t.outValid = false ∧ t.bw.out = [] ∧
    t.blkDone = 0 ∧ t.blkTotal = 0 ∧ t.blkPerMcu = 0 ∧ (∀ k : Fin 64, t.qt0[k.val] = 0 ∧ t.qt1[k.val] = 0) ∧
    (∀ c : Fin 3, t.pred[c.val] = 0) ∧ t.bw.acc = 0 ∧ t.bw.nacc = 0 ∧ t.cmdPort = [] ∧ t.outCap = s.outCap ∧
    statusWord t = 0 ∧ outLen t = 0 ∧ InvariantR34 t

/-! ### The front end: priority, transfer errors, legal states, illegal commands -/

/-- R235, R209, R239: in `DESTROYED` every command, whatever its `op`, `arg`, transfer-error bits or payload, is answered
`E_DESTROYED` and changes nothing else; only reset leaves `DESTROYED`. -/
def Obligations.DestroyedIsTerminal : Prop :=
  ∀ s : State, s.lifecycle = .destroyed → s.resetIn = false →
    decode s.cmdPort = .waiting ∧ step s = .next s ∨
    ∃ rest, step s =
      .next { s with cmdPort := rest, respPort := s.respPort ++ [⟨.eDestroyed, 0⟩] } ∧ rest.length < s.cmdPort.length

/-- R233: a transfer error on any word of a command outside `DESTROYED` is answered `E_TRANSFER`; it discards the image for a
`BLOCK` in `ENCODING` and otherwise only `LAST_ERR` changes, not even that for the two reads; no other command is answered so.
The transfer-error bits take no part in length, `op` and reserved-bit checks. -/
def Obligations.TransferErrors : Prop :=
  (∀ (i : Instr) (s : State), s.lifecycle ≠ .destroyed → anyXerr (encode i) = true →
    exec i s = .next
      (if i.op = .block ∧ s.lifecycle = .encoding then
        { s with bw := { s.bw with out := [] }, outValid := false, blkDone := 0, lifecycle := .created,
                 lastErr := .eTransfer, respPort := s.respPort ++ [⟨.eTransfer, 0⟩] }
      else if i.op = .rdreg ∨ i.op = .rdout then { s with respPort := s.respPort ++ [⟨.eTransfer, 0⟩] }
      else { s with lastErr := .eTransfer, respPort := s.respPort ++ [⟨.eTransfer, 0⟩] })) ∧
  (∀ (i : Instr) (s t : State) (d : Word), exec i s = .next t → t.respPort = s.respPort ++ [⟨.eTransfer, d⟩] →
    anyXerr (encode i) = true) ∧
  (∀ ws ws' : List CmdWord, ws.map CmdWord.w = ws'.map CmdWord.w →
    match decode ws, decode ws' with
    | .waiting, .waiting => True
    | .undefinedOp rest, .undefinedOp rest' => rest.length = rest'.length
    | .reservedArg o rest, .reservedArg o' rest' => o = o' ∧ rest.length = rest'.length
    | .instr i rest, .instr i' rest' => i.op = i'.op ∧ rest.length = rest'.length
    | _, _ => False)

/-- R201: the table of legal states. In `DESTROYED` every command is answered `E_DESTROYED`; elsewhere a command without transfer
error (step 5 comes after step 4) is answered `E_STATE` exactly when its column is not satisfied, and then only `LAST_ERR`
changes (not for `RDOUT`, R200). -/
def Obligations.WrongStateIsRefused : Prop :=
  ∀ (i : Instr) (s : State),
    (let legalWhen : Prop :=
      match i.op with
      | .wrcfg => s.lifecycle = .idle
      | .rdreg => s.lifecycle = .idle ∨ s.lifecycle = .created ∨ s.lifecycle = .encoding
      | .create => s.lifecycle = .idle
      | .beginImage => s.lifecycle = .created
      | .block => s.lifecycle = .encoding
      | .endImage => s.lifecycle = .encoding
      | .destroy => s.lifecycle = .created
      | .rdout => s.lifecycle = .created ∧ s.outValid = true
     (s.lifecycle = .destroyed → ¬legalWhen ∧ exec i s = .next { s with respPort := s.respPort ++ [⟨.eDestroyed, 0⟩] }) ∧
     (s.lifecycle ≠ .destroyed → anyXerr (encode i) = false → ¬legalWhen →
        exec i s = .next { s with lastErr := if i.op = .rdout then s.lastErr else .eState,
                                  respPort := s.respPort ++ [⟨.eState, 0⟩] }) ∧
     (legalWhen → ∀ (t : State) (d : Word), exec i s = .next t → t.respPort ≠ s.respPort ++ [⟨.eState, d⟩]))

/-- R231 (a), (b), steps 1 to 3 of R200: an undefined `op` or a reserved bit is answered `E_ILLEGAL` (`E_DESTROYED` in
`DESTROYED`) with no other effect than `LAST_ERR` (not for the two reads); an image in flight is not disturbed. -/
def Obligations.IllegalWordsAreAnswered : Prop :=
  ∀ (s : State) (rest : List CmdWord), s.resetIn = false →
    (decode s.cmdPort = .undefinedOp rest → step s = .next
      (if s.lifecycle = .destroyed then { s with cmdPort := rest, respPort := s.respPort ++ [⟨.eDestroyed, 0⟩] }
       else { s with cmdPort := rest, lastErr := .eIllegal, respPort := s.respPort ++ [⟨.eIllegal, 0⟩] })) ∧
    (∀ o : Op, decode s.cmdPort = .reservedArg o rest → step s = .next
      (if s.lifecycle = .destroyed then { s with cmdPort := rest, respPort := s.respPort ++ [⟨.eDestroyed, 0⟩] }
       else if o = .rdreg ∨ o = .rdout then { s with cmdPort := rest, respPort := s.respPort ++ [⟨.eIllegal, 0⟩] }
       else { s with cmdPort := rest, lastErr := .eIllegal, respPort := s.respPort ++ [⟨.eIllegal, 0⟩] }))

/-- R231 (c), (d), (e): a well-formed command is answered `E_ILLEGAL` exactly in three cases: `WRCFG` in `IDLE` above number 4,
`RDREG` of an undefined number, `RDOUT` at or above `|OUT|` of a finished stream; nothing but `LAST_ERR` changes, and that for
`WRCFG` only. -/
def Obligations.IllegalOperands : Prop :=
  ∀ (i : Instr) (s : State), Memory.wf s.bw.out →
    (let illegal : Prop := s.lifecycle ≠ .destroyed ∧ anyXerr (encode i) = false ∧
      (match i with
        | .wrcfg _ reg _ => s.lifecycle = .idle ∧ 0x04 < reg.toNat
        | .rdreg _ reg => (0x05 ≤ reg.toNat ∧ reg.toNat ≤ 0x0F) ∨ (0x16 ≤ reg.toNat ∧ reg.toNat ≤ 0x3F) ∨ 0xC0 ≤ reg.toNat
        | .rdout _ addr => s.lifecycle = .created ∧ s.outValid = true ∧ s.bw.out.length ≤ addr.w.toNat
        | .create _ => False
        | .beginImage _ => False
        | .block _ _ => False
        | .endImage _ => False
        | .destroy _ => False)
     (illegal → exec i s = .next { s with lastErr := if i.op = .wrcfg then .eIllegal else s.lastErr,
                                          respPort := s.respPort ++ [⟨.eIllegal, 0⟩] }) ∧
     (∀ (t : State) (d : Word), exec i s = .next t → t.respPort = s.respPort ++ [⟨.eIllegal, d⟩] → illegal))

/-- R236: every command answers with exactly one response, and after a code other than `OK` the data is 0 and the state is the
state before with `discard()` applied in the cases of the table, plus `LAST_ERR`; `ACC`, `NACC`, `PRED`, the configuration and
the tables are as they were. That the datapath buffers and `ACC`, `NACC`, `PRED` hold what they held before the failing
command (and not what it left half way) is the model's choice where the spec calls it unobservable (log entry 2). -/
def Obligations.FailuresChangeOnlyWhatTheTableSays : Prop :=
  ∀ (i : Instr) (s t : State), exec i s = .next t → ∃ r : Response, t.respPort = s.respPort ++ [r] ∧
    (r.code ≠ .ok → r.data = 0 ∧
      t = { (if r.code = .eAlloc ∨ r.code = .eMalformed ∨
                (r.code = .eTransfer ∧ i.op = .block ∧ s.lifecycle = .encoding)
             then { s with bw := { s.bw with out := [] }, outValid := false, blkDone := 0, lifecycle := .created }
             else s) with
            lastErr := if r.code = .eDestroyed ∨ i.op = .rdreg ∨ i.op = .rdout then s.lastErr else r.code
            respPort := s.respPort ++ [r] })

/-! ### The register commands -/

/-- R202: in `IDLE`, without transfer error, `WRCFG` stores any 32-bit value in the register of its number and changes nothing
else but `LAST_ERR`. -/
def Obligations.WrcfgStoresTheValue : Prop :=
  ∀ (reg : Byte) (v : Word) (s : State), s.lifecycle = .idle → reg.toNat ≤ 4 →
    exec (.wrcfg false reg ⟨false, v⟩) s = .next
      { s with
        cfg := ⟨if reg = 0x00 then v else s.cfg.width, if reg = 0x01 then v else s.cfg.height,
                if reg = 0x02 then v else s.cfg.ncomp, if reg = 0x03 then v else s.cfg.quality,
                if reg = 0x04 then v else s.cfg.samp⟩
        lastErr := .ok
        respPort := s.respPort ++ [⟨.ok, 0⟩] }

/-- R203, R23, R26 to R32: outside `DESTROYED`, without transfer error, `RDREG` of a defined number answers with the register's
value and changes nothing at all. -/
def Obligations.RdregReturnsTheRegister : Prop :=
  ∀ (reg : Byte) (s : State), s.lifecycle ≠ .destroyed →
    (let answers (v : Nat) : Prop := ∃ d : Word, d.toNat = v ∧
      exec (.rdreg false reg) s = .next { s with respPort := s.respPort ++ [⟨.ok, d⟩] }
     (reg = 0x00 → answers s.cfg.width.toNat) ∧ (reg = 0x01 → answers s.cfg.height.toNat) ∧
     (reg = 0x02 → answers s.cfg.ncomp.toNat) ∧ (reg = 0x03 → answers s.cfg.quality.toNat) ∧
     (reg = 0x04 → answers s.cfg.samp.toNat) ∧
     (reg = 0x10 → answers (s.lifecycle.toBits.toNat + if s.outValid then 4 else 0)) ∧
     (reg = 0x11 → answers s.lastErr.toBits.toNat) ∧
     (reg = 0x12 → s.bw.out.length < 2 ^ 32 → answers (if s.outValid then s.bw.out.length else 0)) ∧
     (reg = 0x13 → answers s.blkDone.toNat) ∧ (reg = 0x14 → answers s.blkTotal.toNat) ∧
     (reg = 0x15 → answers s.blkPerMcu.toNat) ∧
     (∀ k : Fin 64, reg.toNat = 0x40 + k.val → answers (s.qt0[k.val]).toNat) ∧
     (∀ k : Fin 64, reg.toNat = 0x80 + k.val → answers (s.qt1[k.val]).toNat))

/-! ### The context commands -/

/-- R204: in `IDLE`, without transfer error, with the checks (a) to (g) passed, `CREATE` builds both tables, computes the block
counts from the rounded-up size, and answers with `BLK_TOTAL`; nothing else changes. -/
def Obligations.CreateBuildsTheContext : Prop :=
  ∀ (s : State) (w h q : Nat), s.lifecycle = .idle →
    s.cfg.width.toInt = w → s.cfg.height.toInt = h → s.cfg.quality.toInt = q →
    1 ≤ w → w ≤ 65535 → 1 ≤ h → h ≤ 65535 → 1 ≤ q → q ≤ 100 → s.cfg.samp.extractLsb' 24 8 = 0 →
    ∀ bpm total : Nat,
    ((s.cfg.ncomp.toInt = 1 ∧ hSamp s.cfg 0 = 1 ∧ vSamp s.cfg 0 = 1 ∧ bpm = 1 ∧ total = ((w + 7) / 8) * ((h + 7) / 8)) ∨
     (s.cfg.ncomp.toInt = 3 ∧ (∀ c : Fin 3, 1 ≤ hSamp s.cfg c.val ∧ hSamp s.cfg c.val ≤ 4 ∧
        1 ≤ vSamp s.cfg c.val ∧ vSamp s.cfg c.val ≤ 4) ∧
      bpm = hSamp s.cfg 0 * vSamp s.cfg 0 + hSamp s.cfg 1 * vSamp s.cfg 1 + hSamp s.cfg 2 * vSamp s.cfg 2 ∧ bpm ≤ 10 ∧
      (∃ hm vm : Nat, hm = max (hSamp s.cfg 0) (max (hSamp s.cfg 1) (hSamp s.cfg 2)) ∧
        vm = max (vSamp s.cfg 0) (max (vSamp s.cfg 1) (vSamp s.cfg 2)) ∧
        total = ((w + 8 * hm - 1) / (8 * hm)) * ((h + 8 * vm - 1) / (8 * vm)) * bpm))) →
    ∃ t : State, exec (.create false) s = .next t ∧
      t.blkPerMcu.toNat = bpm ∧ t.blkTotal.toNat = total ∧ total ≤ 201351168 ∧
      t = { s with
            qt0 := buildTable q .lum, qt1 := buildTable q .chrom, blkPerMcu := t.blkPerMcu, blkTotal := t.blkTotal,
            blkDone := 0, lifecycle := .created, lastErr := .ok,
            respPort := s.respPort ++ [⟨.ok, t.blkTotal⟩] }

/-- R204, R30 say that `total` is at most 8192 × 8192 × 3 = 201326592. By the rule's own formula this is false: width and height
65535 with `CFG_SAMP` = 0x00131313 pass every check (nine blocks per MCU) and give 8192 × 2731 × 9 = 201351168 blocks. The model
follows the formula (log entry 6), and this statement, which is the sentence of the rule, is expected to fail. -/
def Obligations.BlockTotalIsWithinThePrintedBound : Prop :=
  ∀ cfg : Cfg, geometryOk cfg = true → totalBlocks cfg ≤ 201326592

/-- R204: in `IDLE`, without transfer error, a configuration that fails one of the checks (a) to (f) is answered `E_GEOMETRY`,
also when the quality is wrong too; one that passes them and fails (g) is answered `E_QUALITY`; only `LAST_ERR` changes. -/
def Obligations.CreateRefusesBadConfigurations : Prop :=
  ∀ s : State, s.lifecycle = .idle →
    (let geometry : Prop :=
      (1 ≤ s.cfg.width.toInt ∧ s.cfg.width.toInt ≤ 65535) ∧ (1 ≤ s.cfg.height.toInt ∧ s.cfg.height.toInt ≤ 65535) ∧
      (s.cfg.ncomp.toInt = 1 ∨ s.cfg.ncomp.toInt = 3) ∧ s.cfg.samp.extractLsb' 24 8 = 0 ∧
      (s.cfg.ncomp.toInt = 1 → hSamp s.cfg 0 = 1 ∧ vSamp s.cfg 0 = 1) ∧
      (s.cfg.ncomp.toInt = 3 → (∀ c : Fin 3, 1 ≤ hSamp s.cfg c.val ∧ hSamp s.cfg c.val ≤ 4 ∧
          1 ≤ vSamp s.cfg c.val ∧ vSamp s.cfg c.val ≤ 4) ∧
        hSamp s.cfg 0 * vSamp s.cfg 0 + hSamp s.cfg 1 * vSamp s.cfg 1 + hSamp s.cfg 2 * vSamp s.cfg 2 ≤ 10)
     (¬geometry → exec (.create false) s =
        .next { s with lastErr := .eGeometry, respPort := s.respPort ++ [⟨.eGeometry, 0⟩] }) ∧
     (geometry → ¬(1 ≤ s.cfg.quality.toInt ∧ s.cfg.quality.toInt ≤ 100) → exec (.create false) s =
        .next { s with lastErr := .eQuality, respPort := s.respPort ++ [⟨.eQuality, 0⟩] }))

/-- R209: in `CREATED`, without transfer error, `DESTROY` empties `OUT`, clears `OUT_VALID` and leaves `DESTROYED`; everything
else keeps its value. -/
def Obligations.DestroyReleasesTheContext : Prop :=
  ∀ s : State, s.lifecycle = .created →
    exec (.destroy false) s = .next
      { s with bw := { s.bw with out := [] }, outValid := false, lifecycle := .destroyed, lastErr := .ok,
               respPort := s.respPort ++ [⟨.ok, 0⟩] }

/-- R210, R51: for a finished stream, without transfer error, `RDOUT` of an address below `|OUT|` answers with the byte there,
zero-extended, and changes nothing at all. -/
def Obligations.RdoutReturnsTheByte : Prop :=
  ∀ (addr : Word) (s : State), s.lifecycle = .created → s.outValid = true → Memory.wf s.bw.out →
    addr.toNat < s.bw.out.length →
    ∃ b : Byte, (Memory.bytes s.bw.out)[addr.toNat]? = some b ∧
      exec (.rdout false ⟨false, addr⟩) s = .next { s with respPort := s.respPort ++ [⟨.ok, b.setWidth 32⟩] }

/-! ### The commands of an image -/

/-- R205, R181: in `CREATED`, without transfer error, with a component count of 1 or 3 and room for the header, `BEGIN` leaves
exactly the header bytes in `OUT`, clears `ACC`, `NACC`, the predictors, `BLK_DONE` and `OUT_VALID`, and answers with the
length of the header; nothing else changes. -/
def Obligations.BeginWritesTheHeader : Prop :=
  ∀ s : State, s.lifecycle = .created → s.cfg.ncomp = 1 ∨ s.cfg.ncomp = 3 → headerLength s.cfg ≤ s.outCap.toNat →
    ∃ m : Memory, Memory.bytes m = headerBytes s.cfg s.qt0 s.qt1 ∧ Memory.wf m ∧ m.length = headerLength s.cfg ∧
      exec (.beginImage false) s = .next
        { s with bw := ⟨m, 0, 0⟩, outValid := false, pred := vec 3 0, blkDone := 0, lifecycle := .encoding, lastErr := .ok,
                 respPort := s.respPort ++ [⟨.ok, BitVec.ofNat 32 (headerLength s.cfg)⟩] }

/-- R205, R234: `BEGIN` without room for the header is answered `E_ALLOC`; the image is discarded, `STATE` stays `CREATED`. -/
def Obligations.BeginWithoutRoomIsDiscarded : Prop :=
  ∀ s : State, s.lifecycle = .created → s.cfg.ncomp = 1 ∨ s.cfg.ncomp = 3 → s.outCap.toNat < headerLength s.cfg →
    exec (.beginImage false) s = .next
      { s with bw := { s.bw with out := [] }, outValid := false, blkDone := 0, lifecycle := .created, lastErr := .eAlloc,
               respPort := s.respPort ++ [⟨.eAlloc, 0⟩] }

/-- R206, R57: in `ENCODING`, without transfer error, while blocks are missing, with a legal table and predictors in range,
`BLOCK` takes the samples through the stages, writes the block's code, replaces the predictor of its own component only, counts
the block and answers with the count, and nothing else changes: whenever the output has room for 416 bytes, and whenever it has
room for just the code of this block. -/
def Obligations.BlockCodesTheBlock : Prop :=
  ∀ (p : Vector CmdWord 16) (s : State), s.lifecycle = .encoding → anyXerr p.toList = false → s.blkDone < s.blkTotal →
    0 < s.blkPerMcu.toNat → (∀ (r : Role) (k : Fin 64), (qtOf s r)[k.val] ≠ 0) → PredInRange s →
    (let c := nextComponent s
     let sb := samplesOf p
     let tb := rowPass sb
     let cb := colPass sb tb
     let qb := quantize (qtOf s (roleOf c)) cb
     let zb := reorder qb
     let coded (w : Writer) : State :=
       { s with sb := sb, tb := tb, cb := cb, qb := qb, zb := zb, bw := w, pred := s.pred.set c.val zb[0],
                blkDone := s.blkDone + 1, lastErr := .ok, respPort := s.respPort ++ [⟨.ok, s.blkDone + 1⟩] }
     ∃ calls : List BitsCall, blockCalls (roleOf c) s.pred[c.val] zb = some calls ∧
       (s.bw.out.length + 416 ≤ s.outCap.toNat → ∃ w : Writer, putCalls s.outCap.toNat calls s.bw = some w ∧
         exec (.block false p) s = .next (coded w)) ∧
       (∀ w : Writer, putCalls s.outCap.toNat calls s.bw = some w → exec (.block false p) s = .next (coded w)))

/-- R206, R236: a `BLOCK` beyond `BLK_TOTAL` is answered `E_MALFORMED`, a `BLOCK` whose code does not fit is answered `E_ALLOC`;
both discard the image, and the count is checked first. -/
def Obligations.BlockRefusalsDiscard : Prop :=
  ∀ (p : Vector CmdWord 16) (s : State), s.lifecycle = .encoding → anyXerr p.toList = false →
    (let discarded (code : Code) : State :=
      { s with bw := { s.bw with out := [] }, outValid := false, blkDone := 0, lifecycle := .created, lastErr := code,
               respPort := s.respPort ++ [⟨code, 0⟩] }
     (s.blkTotal ≤ s.blkDone → exec (.block false p) s = .next (discarded .eMalformed)) ∧
     (s.blkDone < s.blkTotal → 0 < s.blkPerMcu.toNat → (∀ (r : Role) (k : Fin 64), (qtOf s r)[k.val] ≠ 0) →
      PredInRange s →
      (∀ calls, blockCalls (roleOf (nextComponent s)) s.pred[(nextComponent s).val]
          (reorder (quantize (qtOf s (roleOf (nextComponent s))) (colPass (samplesOf p) (rowPass (samplesOf p))))) =
          some calls → putCalls s.outCap.toNat calls s.bw = none) →
      exec (.block false p) s = .next (discarded .eAlloc)))

/-- R208, R109, R234: in `ENCODING`, without transfer error, with all blocks sent and room for exactly the bytes it appends (two
with nothing pending, four when the padded byte is 0xFF, else three), `END` appends the padded last byte if bits are pending,
stuffed, then `FF D9`, sets `OUT_VALID` and answers with the length of the stream; nothing else changes. -/
def Obligations.EndFinishesTheStream : Prop :=
  ∀ s : State, s.lifecycle = .encoding → s.blkDone = s.blkTotal →
    s.bw.out.length + endBytes s.bw ≤ s.outCap.toNat →
    ∃ (w : Writer) (raw : List Byte),
      Memory.bytes w.out = Memory.bytes s.bw.out ++ stuffBytes raw ++ [0xFF, 0xD9] ∧ w.nacc = 0 ∧
      w.acc = (if s.bw.nacc = 0 then s.bw.acc else 0) ∧ (Memory.wf s.bw.out → Memory.wf w.out) ∧
      w.out.length = s.bw.out.length + endBytes s.bw ∧
      (s.bw.nacc = 0 → raw = []) ∧
      (s.bw.nacc ≠ 0 → raw.length = 1 ∧
        raw.flatMap byteBits = pendingBits s.bw ++ List.replicate (8 - s.bw.nacc.val) true) ∧
      exec (.endImage false) s = .next
        { s with bw := w, outValid := true, lifecycle := .created, lastErr := .ok,
                 respPort := s.respPort ++ [⟨.ok, BitVec.ofNat 32 w.out.length⟩] }

/-- R208, R234, R236: an `END` with the wrong number of blocks is answered `E_MALFORMED`, one with less room than the bytes it
appends need `E_ALLOC`; both discard the image. -/
def Obligations.EndRefusalsDiscard : Prop :=
  ∀ s : State, s.lifecycle = .encoding →
    (let discarded (code : Code) : State :=
      { s with bw := { s.bw with out := [] }, outValid := false, blkDone := 0, lifecycle := .created, lastErr := code,
               respPort := s.respPort ++ [⟨code, 0⟩] }
     (s.blkDone ≠ s.blkTotal → exec (.endImage false) s = .next (discarded .eMalformed)) ∧
     (s.blkDone = s.blkTotal → s.outCap.toNat < s.bw.out.length + endBytes s.bw →
      exec (.endImage false) s = .next (discarded .eAlloc)))

/-! ### Tables and arithmetic -/

/-- R91, R94: for every quality from 1 to 100 each table entry is the rounded, scaled reference entry clamped to 1 to 255 (the
product fits 20 bits); every entry is in 1 to 255, an entry never grows with the quality, and the tables depend on the quality
only. -/
def Obligations.TablesFollowTheQuality : Prop :=
  (∀ (q : Nat) (r : Role) (k : Fin 64), 1 ≤ q → q ≤ 100 →
    (let scale := if q < 50 then 5000 / q else 200 - 2 * q
     ((buildTable q r)[k.val]).toNat = max 1 (min 255 (((refTable r)[k.val] * scale + 50) / 100)) ∧
     scale ≤ 5000 ∧ (refTable r)[k.val] * scale + 50 ≤ 605050 ∧
     1 ≤ ((buildTable q r)[k.val]).toNat ∧ ((buildTable q r)[k.val]).toNat ≤ 255)) ∧
  (∀ (q : Nat) (r : Role) (k : Fin 64), 1 ≤ q → q < 100 →
    ((buildTable (q + 1) r)[k.val]).toNat ≤ ((buildTable q r)[k.val]).toNat) ∧
  (∀ s s' t t' : State, s.lifecycle = .idle → s'.lifecycle = .idle → s.cfg.quality = s'.cfg.quality →
    exec (.create false) s = .next t → exec (.create false) s' = .next t' → t.lifecycle = .created → t'.lifecycle = .created →
    t.qt0 = t'.qt0 ∧ t.qt1 = t'.qt1)

/-- R11: for a positive divisor `rhaz` is the nearest integer, with exact halves away from zero, and odd in its first argument. -/
def Obligations.RoundingIsHalfAwayFromZero : Prop :=
  ∀ (n : Int) (d : Nat), 0 < d →
    2 * n.natAbs < (2 * (rhaz n d).natAbs + 1) * d ∧ (2 * (rhaz n d).natAbs) * d ≤ 2 * n.natAbs + d ∧
    (0 ≤ n → 0 ≤ rhaz n d) ∧ (n ≤ 0 → rhaz n d ≤ 0) ∧ rhaz (-n) d = -(rhaz n d)

/-- R125, R127: the transform is exact: `TB` and `CB` hold the integer sums of the rules, no value wraps in 26 or 44 bits; the
column sum over `TB` is the double sum over the samples; the unit reads `SB` only and writes `TB` and `CB` only. -/
def Obligations.TransformIsExact : Prop :=
  ∀ (sb : Vector Byte 64) (v u : Fin 8),
    (let xs (y x : Fin 8) : Int := ((sb[(ix y x).val]).toNat : Int) - 128
     ((rowPass sb)[(ix v u).val]).toInt = ∑ x : Fin 8, kRom u x * xs v x ∧
     ((colPass sb (rowPass sb))[(ix v u).val]).toInt =
       (if (v = 0 ∨ v = 4) ∧ (u = 0 ∨ u = 4) then 2 ^ 29 * ∑ y : Fin 8, ∑ x : Fin 8, sgRom v y * sgRom u x * xs y x
        else ∑ y : Fin 8, kRom v y * ((rowPass sb)[(ix y u).val]).toInt) ∧
     (¬((v = 0 ∨ v = 4) ∧ (u = 0 ∨ u = 4)) → ((colPass sb (rowPass sb))[(ix v u).val]).toInt =
       ∑ y : Fin 8, ∑ x : Fin 8, kRom v y * kRom u x * xs y x)) ∧
    (∀ s : State, s.sb = sb → runTransform s = { s with tb := rowPass sb, cb := colPass sb (rowPass sb) })

/-- R124, R126: the ranges of `TB` and `CB`, and that their ends are reached. -/
def Obligations.TransformRanges : Prop :=
  (∀ (sb : Vector Byte 64) (k : Fin 64),
    (-23726080 ≤ ((rowPass sb)[k.val]).toInt ∧ ((rowPass sb)[k.val]).toInt ≤ 23633400) ∧
    (-(2 ^ 42) ≤ ((colPass sb (rowPass sb))[k.val]).toInt ∧ ((colPass sb (rowPass sb))[k.val]).toInt ≤ 1020 * 2 ^ 32) ∧
    (k ≠ 0 → -(1020 * 2 ^ 32) ≤ ((colPass sb (rowPass sb))[k.val]).toInt)) ∧
  (∃ sb : Vector Byte 64, ((rowPass sb)[0]).toInt = -23726080 ∧ ((colPass sb (rowPass sb))[0]).toInt = -(2 ^ 42)) ∧
  (∃ sb : Vector Byte 64, ((rowPass sb)[4]).toInt = 23633400 ∧ ((colPass sb (rowPass sb))[4]).toInt = 1020 * 2 ^ 32)

/-- R130: a flat block has its DC coefficient only, exactly; a block constant along one direction has no frequency in it; the
transform of the transposed block is the transposed transform. -/
def Obligations.FlatAndTransposedBlocks : Prop :=
  (∀ (sb : Vector Byte 64) (a : Byte), (∀ k : Fin 64, sb[k.val] = a) →
    ((colPass sb (rowPass sb))[0]).toInt = 2 ^ 32 * (8 * ((a.toNat : Int) - 128)) ∧
    ∀ k : Fin 64, k ≠ 0 → ((colPass sb (rowPass sb))[k.val]).toInt = 0) ∧
  (∀ sb : Vector Byte 64, (∀ y x : Fin 8, sb[(ix y x).val] = sb[(ix y 0).val]) →
    ∀ v u : Fin 8, u ≠ 0 → ((colPass sb (rowPass sb))[(ix v u).val]).toInt = 0) ∧
  (∀ sb : Vector Byte 64, (∀ y x : Fin 8, sb[(ix y x).val] = sb[(ix 0 x).val]) →
    ∀ v u : Fin 8, v ≠ 0 → ((colPass sb (rowPass sb))[(ix v u).val]).toInt = 0) ∧
  (∀ sb sb' : Vector Byte 64, (∀ y x : Fin 8, sb'[(ix y x).val] = sb[(ix x y).val]) →
    ∀ v u : Fin 8, (colPass sb' (rowPass sb'))[(ix u v).val] = (colPass sb (rowPass sb))[(ix v u).val]) ∧
  (∀ sa sb sc : Vector Byte 64,
    (∀ k : Fin 64, ((sc[k.val]).toNat : Int) - 128 = (((sa[k.val]).toNat : Int) - 128) + (((sb[k.val]).toNat : Int) - 128)) →
    ∀ k : Fin 64, ((colPass sc (rowPass sc))[k.val]).toInt =
      ((colPass sa (rowPass sa))[k.val]).toInt + ((colPass sb (rowPass sb))[k.val]).toInt)

/-- R141, R142: with a table that has no zero entry every quantized coefficient is the coefficient over its own table entry,
rounded once; the DC value lies in -1024 to 1016 and every other within 1020 of 0. -/
def Obligations.QuantizedCoefficients : Prop :=
  ∀ (sb qt : Vector Byte 64), (∀ k : Fin 64, qt[k.val] ≠ 0) → ∀ k : Fin 64,
    (let cb := colPass sb (rowPass sb)
     let q := ((quantize qt cb)[k.val]).toInt
     q = rhaz (cb[k.val]).toInt ((qt[k.val]).toNat * 2 ^ 32) ∧
     q = (cb[k.val]).toInt.sign *
       (((2 * (cb[k.val]).toInt.natAbs + (qt[k.val]).toNat * 2 ^ 32) / (2 * ((qt[k.val]).toNat * 2 ^ 32)) : Nat) : Int) ∧
     (k = 0 → -1024 ≤ q ∧ q ≤ 1016) ∧ (k ≠ 0 → -1020 ≤ q ∧ q ≤ 1020))

/-- R143, R144: `ZZ` visits the anti-diagonals in order, upward on an even one and downward on an odd one, so it is a
permutation, and `ZB[z]` is `QB[ZZ[z]]`. -/
def Obligations.ZigzagOrder : Prop :=
  (∀ z : Fin 63,
    (let a := zigzag[z.val]
     let b := zigzag[z.val + 1]
     let d := (rowOf a).val + (colOf a).val
     ((rowOf b).val + (colOf b).val = d ∧
       (if d % 2 = 0 then (rowOf b).val + 1 = (rowOf a).val else (rowOf b).val = (rowOf a).val + 1)) ∨
     ((rowOf b).val + (colOf b).val = d + 1 ∧
       (if d % 2 = 0 then (rowOf a).val = 0 ∨ (colOf a).val = 7 else (colOf a).val = 0 ∨ (rowOf a).val = 7)))) ∧
  (∀ k : Fin 64, ∃! z : Fin 64, zigzag[z.val] = k) ∧
  (∀ (qb : Vector (BitVec 12) 64) (z : Fin 64), (reorder qb)[z.val] = qb[(zigzag[z.val]).val]) ∧
  zigzag[0] = 0 ∧ zigzag[1] = 1 ∧ zigzag[2] = 8 ∧ zigzag[63] = 63

/-! ### Entropy coding -/

/-- R152: the category of a non-zero value is the bit length of its magnitude, its value bits fit the category, their leading
bit tells the sign, those of a negative value are the low bits of the value less 1, they give the value back, and they are
written after the code of the category; category 0 has no value bits. -/
def Obligations.CategoryAndValueBits : Prop :=
  category 0 = 0 ∧ (∀ t : Fin 4, dcCalls t 0 = (symbolCall t 0).map fun c => [c]) ∧
  ∀ v : Int, v ≠ 0 →
    category v = bitlen v.natAbs ∧
    1 ≤ category v ∧ 2 ^ (category v - 1) ≤ v.natAbs ∧ v.natAbs < 2 ^ category v ∧
    valueBits v (category v) < 2 ^ category v ∧
    (if 0 < v then 2 ^ (category v - 1) ≤ valueBits v (category v) ∧ (valueBits v (category v) : Int) = v
     else valueBits v (category v) < 2 ^ (category v - 1) ∧ (valueBits v (category v) : Int) = v + 2 ^ category v - 1 ∧
       (valueBits v (category v) : Int) = (v - 1) % 2 ^ category v) ∧
    ∀ t : Fin 4, dcCalls t v = (symbolCall t (category v)).map fun c => [c, (valueBits v (category v), category v)]

/-- R161: each Huffman table is prefix-free, no code is all ones, codes fit their lengths, and the tables hold exactly the
symbols of the rule. -/
def Obligations.HuffmanTables : Prop :=
  ∀ t : Fin 4,
    (∀ e ∈ huffTable t, ∀ e' ∈ huffTable t, e ≠ e' → ¬(bitsOf e.code e.len <+: bitsOf e'.code e'.len)) ∧
    (∀ e ∈ huffTable t, e.code + 1 < 2 ^ e.len ∧ 2 ≤ e.len ∧
      e.len ≤ (if t = 0 then 9 else if t = 2 then 11 else 16)) ∧
    (huffTable t).length = (if t = 0 ∨ t = 2 then 12 else 162) ∧
    (∀ sym : Nat, (huffCode t sym).isSome = true ↔
      if t = 0 ∨ t = 2 then sym ≤ 11
      else sym = 0x00 ∨ sym = 0xF0 ∨ (sym < 256 ∧ 1 ≤ sym % 16 ∧ sym % 16 ≤ 10))

/-- R162: for coefficients in the ranges of R142 and a predictor in its range the DC category is at most 11, an AC category is 1 to
10 and every symbol has a code; every call of `BW.put_bits` has at most 16 bits and a value that fits them. -/
def Obligations.EverySymbolHasACode : Prop :=
  ∀ (r : Role) (pred : BitVec 12) (zb : Vector (BitVec 12) 64),
    -1024 ≤ pred.toInt → pred.toInt ≤ 1016 → -1024 ≤ (zb[0]).toInt → (zb[0]).toInt ≤ 1016 →
    (∀ z : Fin 64, z ≠ 0 → ((zb[z.val]).toInt).natAbs ≤ 1020) →
    category ((zb[0]).toInt - pred.toInt) ≤ 11 ∧
    (∀ z : Fin 64, z ≠ 0 → (zb[z.val]).toInt ≠ 0 → 1 ≤ category (zb[z.val]).toInt ∧ category (zb[z.val]).toInt ≤ 10) ∧
    (∀ run cat : Nat, run < 16 → 1 ≤ cat → cat ≤ 10 → ∃ c, symbolCall (tableNumber .ac r) (run * 16 + cat) = some c) ∧
    ∃ calls, blockCalls r pred zb = some calls ∧ ∀ c ∈ calls, c.2 ≤ 16 ∧ c.1 < 2 ^ c.2

/-- R164: `r` zeros before a non-zero value are coded as `r div 16` ZRL symbols, the symbol of the rest and the category, and
the value bits; zeros that run to the end are one EOB and never a ZRL; after a non-zero last value there is no EOB. -/
def Obligations.RunLengthCoding : Prop :=
  ∀ t : Fin 4,
    acCalls t 0 [] = some [] ∧
    (∀ n : Nat, 0 < n → acCalls t 0 (List.replicate n 0) = (symbolCall t 0x00).map fun eob => [eob]) ∧
    (∀ (n : Nat) (v : Int) (vs : List Int) (zrl c : BitsCall) (after : List BitsCall), v ≠ 0 →
      symbolCall t 0xF0 = some zrl → symbolCall t (n % 16 * 16 + category v) = some c → acCalls t 0 vs = some after →
      acCalls t 0 (List.replicate n 0 ++ v :: vs) =
        some (List.replicate (n / 16) zrl ++ [c, (valueBits v (category v), category v)] ++ after))

/-- R165: a block costs at least 6 bits (luminance) or 4 bits (chrominance) and at most 1660, and writing it appends at most 416
bytes. -/
def Obligations.BlockSizeIsBounded : Prop :=
  (∀ (r : Role) (pred : BitVec 12) (zb : Vector (BitVec 12) 64) (calls : List BitsCall),
    (∀ z : Fin 64, z ≠ 0 → ((zb[z.val]).toInt).natAbs ≤ 1020) → blockCalls r pred zb = some calls →
    (if r = .lum then 6 else 4) ≤ bitCount calls ∧ bitCount calls ≤ 1660) ∧
  (∀ (cap : Nat) (calls : List BitsCall) (w w' : Writer), bitCount calls ≤ 1660 → putCalls cap calls w = some w' →
    w.out.length ≤ w'.out.length ∧ w'.out.length ≤ w.out.length + 416)

/-! ### The bitstream writer -/

/-- R101 to R103, R53: writing `n` bits of `v` appends whole data bytes, stuffed, and keeps the rest pending: the pending bits
before and the new bits, most significant first, are the bits of the data bytes and the pending bits after. -/
def Obligations.WriterKeepsTheBits : Prop :=
  (∀ (cap v n : Nat) (w w' : Writer), putBits cap v n w = some w' → ∃ raw : List Byte,
    Memory.bytes w'.out = Memory.bytes w.out ++ stuffBytes raw ∧
    pendingBits w ++ bitsOf v n = raw.flatMap byteBits ++ pendingBits w') ∧
  (∀ (cap : Nat) (calls : List BitsCall) (w w' : Writer), putCalls cap calls w = some w' → ∃ raw : List Byte,
    Memory.bytes w'.out = Memory.bytes w.out ++ stuffBytes raw ∧
    pendingBits w ++ callBits calls = raw.flatMap byteBits ++ pendingBits w')

/-- R104: `BW.flush` writes nothing when no bit is pending; otherwise it appends one data byte, the pending bits and 1-bits, with
a zero byte after it if it is 0xFF; afterwards nothing is pending. -/
def Obligations.FlushPadsWithOnes : Prop :=
  ∀ (cap : Nat) (w w' : Writer), flush cap w = some w' →
    w'.nacc = 0 ∧ (w.nacc = 0 → w' = w) ∧
    (w.nacc ≠ 0 → ∃ b : Byte, byteBits b = pendingBits w ++ List.replicate (8 - w.nacc.val) true ∧
      Memory.bytes w'.out = Memory.bytes w.out ++ if b = 0xFF then [0xFF, 0x00] else [b])

/-- R52, R105, R107: bytes of a segment are appended as they are, the length field counts itself and the payload, big-endian;
the append fails exactly when the bytes do not fit, and it keeps the output space canonical and every byte there was. -/
def Obligations.SegmentsAreAppended : Prop :=
  ∀ (cap : Nat) (m : Byte) (payload : List Byte) (w : Writer),
    (w.out.length + payload.length + 4 ≤ cap → ∃ w' : Writer, putSegment cap m payload w = some w' ∧
      Memory.bytes w'.out = Memory.bytes w.out ++
        ([0xFF, m, BitVec.ofNat 8 ((payload.length + 2) / 256), BitVec.ofNat 8 ((payload.length + 2) % 256)] ++ payload) ∧
      w'.acc = w.acc ∧ w'.nacc = w.nacc ∧ (Memory.wf w.out → Memory.wf w'.out) ∧
      ∀ a : Nat, a < w.out.length → Memory.wf w.out → Memory.read w'.out a = Memory.read w.out a) ∧
    (cap < w.out.length + payload.length + 4 → putSegment cap m payload w = none)

/-- R190, R186: the sizes of the segments, the length of the header, and where the height and the width stand in it. -/
def Obligations.HeaderLayout : Prop :=
  ∀ (cfg : Cfg) (qt0 qt1 : Vector Byte 64), cfg.ncomp = 1 ∨ cfg.ncomp = 3 →
    (headerSegments cfg qt0 qt1).map (fun g => (segmentBytes g).length) =
      (if cfg.ncomp = 1 then [18, 69, 69, 13, 33, 183, 33, 183, 10] else [18, 69, 69, 19, 33, 183, 33, 183, 14]) ∧
    (headerBytes cfg qt0 qt1).length = (if cfg.ncomp = 1 then 613 else 623) ∧
    (headerBytes cfg qt0 qt1)[163]? = some (cfg.height.extractLsb' 8 8) ∧
    (headerBytes cfg qt0 qt1)[164]? = some (cfg.height.extractLsb' 0 8) ∧
    (headerBytes cfg qt0 qt1)[165]? = some (cfg.width.extractLsb' 8 8) ∧
    (headerBytes cfg qt0 qt1)[166]? = some (cfg.width.extractLsb' 0 8) ∧
    (∀ z : Fin 64, (headerBytes cfg qt0 qt1)[25 + z.val]? = some qt0[(zigzag[z.val]).val] ∧
      (headerBytes cfg qt0 qt1)[94 + z.val]? = some qt1[(zigzag[z.val]).val])

/-! ### Invariants and whole-machine rules -/

/-- R261, R34: the state after reset meets the invariant, whatever the capacity. -/
def Obligations.ResetIsSound : Prop := Sound State.reset ∧ ∀ cap : Word, Sound (State.resetWith cap)

/-- R34, R33, R35, R52, R110, R191: every step keeps the invariant, from every state that meets it. -/
def Obligations.EveryStepKeepsSoundness : Prop := ∀ s t : State, Sound s → step s = .next t → Sound t

/-- R34 (a) to (f), in the words of the rule, follow from the invariant. -/
def Obligations.SoundStatesMeetR34 : Prop := ∀ s : State, Sound s → InvariantR34 s

/-- R239: from a state that meets the invariant the core never stops: every step answers a next state. -/
def Obligations.SoundStatesNeverStop : Prop := ∀ s : State, Sound s → ∃ t : State, step s = .next t

/-- R21: a step that changes `STATE` is one of those of the rule: reset to `IDLE`, a successful `CREATE`, `BEGIN`, `END` or
`DESTROY`, or a discard of the image in flight. -/
def Obligations.LifecycleTransitions : Prop :=
  ∀ s t : State, step s = .next t → s.lifecycle ≠ t.lifecycle →
    (s.resetIn = true ∧ t.lifecycle = .idle) ∨
    ∃ (i : Instr) (rest : List CmdWord) (r : Response),
      s.cmdPort = encode i ++ rest ∧ t.respPort = s.respPort ++ [r] ∧
      ((s.lifecycle = .idle ∧ t.lifecycle = .created ∧ i.op = .create ∧ r.code = .ok) ∨
       (s.lifecycle = .created ∧ t.lifecycle = .encoding ∧ i.op = .beginImage ∧ r.code = .ok) ∨
       (s.lifecycle = .encoding ∧ t.lifecycle = .created ∧ i.op = .endImage ∧ r.code = .ok) ∨
       (s.lifecycle = .encoding ∧ t.lifecycle = .created ∧ (i.op = .block ∨ i.op = .endImage) ∧
        (r.code = .eAlloc ∨ r.code = .eMalformed ∨ r.code = .eTransfer) ∧
        t.bw.out = [] ∧ t.outValid = false ∧ t.blkDone = 0) ∨
       (s.lifecycle = .created ∧ t.lifecycle = .destroyed ∧ i.op = .destroy ∧ r.code = .ok))

/-- R27: `LAST_ERR` receives the response code of every command but `RDREG` and `RDOUT`, and of none in `DESTROYED`; it has no
effect on anything but its own read. -/
def Obligations.LastErrIsRecordedAndInert : Prop :=
  (∀ (i : Instr) (s t : State), exec i s = .next t → ∃ r : Response, t.respPort = s.respPort ++ [r] ∧
    t.lastErr = if s.lifecycle = .destroyed ∨ i.op = .rdreg ∨ i.op = .rdout then s.lastErr else r.code) ∧
  (∀ (i : Instr) (s : State) (c : Code), (∀ x : Bool, i ≠ .rdreg x 0x11) →
    match exec i s, exec i { s with lastErr := c } with
    | .next t, .next t' => { t' with lastErr := t.lastErr } = t
    | .fault f, .fault f' => f = f'
    | .refused _, _ => False
    | _, .refused _ => False
    | .next _, .fault _ => False
    | .fault _, .next _ => False)

/-- R24, R30, R32, R9: outside reset the configuration changes in `IDLE` only and only by `WRCFG`, the tables and block counts only
by `CREATE`, and the capacity never. -/
def Obligations.ConfigurationIsImmutable : Prop :=
  (∀ (i : Instr) (s t : State), exec i s = .next t →
    (¬(s.lifecycle = .idle ∧ i.op = .wrcfg) → t.cfg = s.cfg) ∧
    (¬(s.lifecycle = .idle ∧ i.op = .create) →
      t.qt0 = s.qt0 ∧ t.qt1 = s.qt1 ∧ t.blkTotal = s.blkTotal ∧ t.blkPerMcu = s.blkPerMcu)) ∧
  (∀ s t : State, step s = .next t → t.outCap = s.outCap)

/-- R33, R52, R51: `OUT` grows at its end or is emptied: a command other than `BEGIN` either leaves it empty or keeps every byte
at its address, and only a `BLOCK` or an `END` makes it longer; while `OUT_VALID` stays 1 it does not change. -/
def Obligations.OutputIsAppendOnly : Prop :=
  ∀ (i : Instr) (s t : State), Sound s → exec i s = .next t → i.op ≠ .beginImage →
    (t.bw.out = [] ∨ ∀ a : Nat, a < s.bw.out.length → Memory.read t.bw.out a = Memory.read s.bw.out a) ∧
    (i.op ≠ .block → i.op ≠ .endImage → t.bw.out = [] ∨ ∀ a : Nat, Memory.read t.bw.out a = Memory.read s.bw.out a) ∧
    (s.outValid = true → t.outValid = true → t.bw.out = s.bw.out) ∧
    (t.outValid = true → s.outValid = true ∨ i.op = .endImage)

/-- R203, R210, R23: `RDREG` and `RDOUT` change nothing but the response port, whatever the outcome, in every state. -/
def Obligations.ReadsChangeNothing : Prop :=
  ∀ (i : Instr) (s : State), i.op = .rdreg ∨ i.op = .rdout →
    ∃ r : Response, exec i s = .next { s with respPort := s.respPort ++ [r] }

/-- R35, R163: the predictors are zeroed by `BEGIN`, a successful `BLOCK` replaces the one of its own component by the quantized
DC value and leaves the others, and no other command touches them. -/
def Obligations.PredictorsArePerComponent : Prop :=
  ∀ (i : Instr) (s t : State) (d : Word), exec i s = .next t → t.respPort = s.respPort ++ [⟨.ok, d⟩] →
    (i.op = .beginImage → ∀ c : Fin 3, t.pred[c.val] = 0) ∧
    (i.op = .block → ∀ c : Fin 3, t.pred[c.val] = if c = nextComponent s then t.zb[0] else s.pred[c.val]) ∧
    (i.op ≠ .beginImage → i.op ≠ .block → t.pred = s.pred)

/-- R110, R191: in a finished stream every 0xFF of the scan data is followed by 0x00 before the end-of-image marker, and the marker
stands at the end. -/
def Obligations.ScanDataIsStuffed : Prop :=
  ∀ s : State, Sound s → s.outValid = true →
    (let start := headerLength s.cfg
     let stop := s.bw.out.length - 2
     start < stop ∧ Memory.read s.bw.out stop = some 0xFF ∧ Memory.read s.bw.out (stop + 1) = some 0xD9 ∧
     ∀ a : Nat, start ≤ a → a < stop → Memory.read s.bw.out a = some 0xFF →
       a + 1 < stop ∧ Memory.read s.bw.out (a + 1) = some 0x00)

/-- R60: `BEGIN` forgets every earlier image: from two states of one context, whatever they encoded before, it leaves states the
host cannot tell apart. -/
def Obligations.BeginForgetsEarlierImages : Prop :=
  ∀ (s t : State) (rest : List CmdWord), SameContext s t → s.lifecycle = .created → s.resetIn = false →
    s.cmdPort = encode (.beginImage false) ++ rest →
    ∃ s' t' : State, step s = .next s' ∧ step t = .next t' ∧ SameView s' t'

/-- R212, R8: states the host cannot tell apart stay so under every step and give the same responses: what the datapath buffers
hold, what `ACC`, `NACC` and `PRED` hold outside an image, and the history never show. -/
def Obligations.HiddenStateNeverShows : Prop :=
  ∀ s t : State, SameView s t →
    if s.resetIn = true then step s = .next (hardReset s) ∧ step t = .next (hardReset s)
    else
      (∃ (s' t' : State) (rs : List Response), step s = .next s' ∧ step t = .next t' ∧ SameView s' t' ∧
        NewResponses s s' rs ∧ NewResponses t t' rs) ∨
      (∃ f : Fault, step s = .fault f ∧ step t = .fault f)

/-- R270, R211, R234: from any state in `CREATED` that meets the invariant, with the commands of a whole image of any blocks next,
with any `RDREG` between, and no transfer error: there is exactly one stream the rules produce for these blocks; if it fits the
capacity every command succeeds and the run ends with exactly this stream, whose length is the last response; if it does not
fit, some command is answered `E_ALLOC` and no output is left. That an `RDREG` of a number that does not exist is answered
`E_ILLEGAL` in a successful encode is read from R231 (d) (log entry 18). -/
def Obligations.EveryImageIsEncoded : Prop :=
  ∀ (s : State) (cmds : List Instr) (rest : List CmdWord), Sound s → s.lifecycle = .created → s.resetIn = false →
    s.cmdPort = cmds.flatMap encode ++ rest → NoTransferError cmds → WellFormedImage s.blkTotal cmds →
    ∃ stream : List Byte, StreamOfRules s.cfg (blocksOf cmds) stream ∧
      (∀ stream' : List Byte, StreamOfRules s.cfg (blocksOf cmds) stream' → stream' = stream) ∧
      stream.length ≤ headerLength s.cfg + 416 * s.blkTotal.toNat + 4 ∧
      ∃ (t : State) (rs : List Response),
        core.run cmds.length s = .next t ∧ t.respPort = s.respPort ++ rs ∧ rs.length = cmds.length ∧
        t.lifecycle = .created ∧ t.cmdPort = rest ∧ Sound t ∧
        (CapAtLeast s stream.length →
          rs.map Response.code = cmds.map successCode ∧ rs.getLast? = some ⟨.ok, BitVec.ofNat 32 stream.length⟩ ∧
          t.outValid = true ∧ Memory.bytes t.bw.out = stream ∧ t.blkDone = s.blkTotal) ∧
        (¬CapAtLeast s stream.length → t.outValid = false ∧ t.bw.out = [] ∧ ∃ r ∈ rs, r.code = .eAlloc)

/-- R270, under its premises. After reset, with the five `WRCFG` in any order and a `CREATE` next, the `CREATE` is answered `OK`
exactly when the checks of R204 pass; the state it leads to has the configuration written and the context built from it. With
the commands of a whole image after it, no transfer error and the capacity for the stream of the rules, every response is `OK`
(but for an `RDREG` of a number that does not exist, log entry 18) and `OUT` is that stream. -/
def Obligations.EveryImageFromResetIsEncoded : Prop :=
  ∀ (w h n q samp : Word) (writes : List Instr) (rest : List CmdWord) (s : State), FreshReset s →
    writes.Perm (configWrites w h n q samp) →
    (let start := hostSend ((writes ++ [Instr.create false]).flatMap encode ++ rest) s
     ((∃ t : State, Configured w h n q samp writes start t) ↔
       geometryOk ⟨w, h, n, q, samp⟩ = true ∧ qualityOk ⟨w, h, n, q, samp⟩ = true) ∧
     ∀ t : State, Configured w h n q samp writes start t →
       t.lifecycle = .created ∧ t.cfg = ⟨w, h, n, q, samp⟩ ∧ ContextBuilt t ∧ Sound t ∧ t.cmdPort = rest ∧
       t.respPort = s.respPort ++ List.replicate 5 ⟨.ok, 0⟩ ++ [⟨.ok, t.blkTotal⟩] ∧
       ∀ (cmds : List Instr) (after : List CmdWord) (stream : List Byte), rest = cmds.flatMap encode ++ after →
         NoTransferError cmds → WellFormedImage t.blkTotal cmds →
         StreamOfRules ⟨w, h, n, q, samp⟩ (blocksOf cmds) stream → CapAtLeast s stream.length →
         ∃ (u : State) (rs : List Response),
           core.run (6 + cmds.length) start = .next u ∧ u.respPort = t.respPort ++ rs ∧
           rs.map Response.code = cmds.map successCode ∧ rs.getLast? = some ⟨.ok, BitVec.ofNat 32 stream.length⟩ ∧
           Memory.bytes u.bw.out = stream ∧ u.outValid = true ∧ u.lifecycle = .created ∧ u.cmdPort = after)

/-- R207, R206: for a legal geometry the block order of R207 visits every block of every plane exactly once, and the component the
core selects for a block is the component of its place; in the blocks of `BlocksInOrder` every sample of every plane stands in
the one block of its place, at its row and column (whatever is replicated at the edges, log entry 17). -/
def Obligations.BlockOrderCoversThePlanes : Prop :=
  ∀ s : State, geometryOk s.cfg = true → s.blkPerMcu = BitVec.ofNat 4 (blocksPerMcu s.cfg) →
    (∀ i : Nat, i < totalBlocks s.cfg → inPlane s.cfg (blockPlace s.cfg i)) ∧
    (∀ p : BlockPlace, inPlane s.cfg p → ∃! i : Nat, i < totalBlocks s.cfg ∧ blockPlace s.cfg i = p) ∧
    nextComponent s = (blockPlace s.cfg s.blkDone.toNat).comp ∧
    (∀ (planes : Planes) (blocks : List (Vector Byte 64)), BlocksInOrder s.cfg planes blocks →
      blocks.length = totalBlocks s.cfg ∧
      ∀ (p : BlockPlace) (y x : Fin 8), inPlane s.cfg p → ∃ (i : Nat) (b : Vector Byte 64),
        blocks[i]? = some b ∧ blockPlace s.cfg i = p ∧
        b[(ix y x).val] = planes p.comp (8 * p.col + x.val) (8 * p.row + y.val))
end

