-- ==== Sys2Proof/Laws/Memory.lean ====
section
/-! SUPPORT. The laws of the output space (R51, R52): what a read finds, and that an append keeps the canonical form and every
byte there was. -/

namespace Sys2Proof.Machine

@[simp] theorem Memory.bytes_nil : Memory.bytes [] = [] := rfl

@[simp] theorem Memory.bytes_push (m : Memory) (v : Byte) : (m.push v).bytes = m.bytes ++ [v] := by
  simp [Memory.bytes, Memory.push]

@[simp] theorem Memory.length_push (m : Memory) (v : Byte) : (m.push v).length = m.length + 1 := by
  simp [Memory.push]

@[simp] theorem Memory.length_bytes (m : Memory) : m.bytes.length = m.length := by simp [Memory.bytes]

theorem Memory.wf_nil : Memory.wf [] := rfl

theorem Memory.wf_push {m : Memory} (h : m.wf) (v : Byte) : (m.push v).wf := by
  simp only [Memory.wf, Memory.push, List.map_append, List.map_cons, List.map_nil, List.length_append, List.length_cons,
    List.length_nil, List.range_succ]
  rw [show m.map Prod.fst = List.range m.length from h]

/-- Reading finds the first cell of its address. -/
theorem Memory.read_eq_lookup (m : Memory) (a : Nat) :
    Memory.read m a = (m.find? fun c => c.1 == a).map Prod.snd := by
  induction m with
  | nil => rfl
  | cons c m ih =>
    obtain ⟨b, v⟩ := c
    by_cases h : b = a <;> simp [Memory.read, h, ih]

theorem Memory.read_append (m m' : Memory) (a : Nat) :
    Memory.read (m ++ m') a = (Memory.read m a).or (Memory.read m' a) := by
  induction m with
  | nil => simp [Memory.read]
  | cons c m ih =>
    obtain ⟨b, v⟩ := c
    by_cases h : b = a <;> simp [Memory.read, h, ih]

theorem Memory.read_eq_none {m : Memory} {a : Nat} : Memory.read m a = none ↔ a ∉ m.map Prod.fst := by
  induction m with
  | nil => simp [Memory.read]
  | cons c m ih =>
    obtain ⟨b, v⟩ := c
    by_cases h : b = a
    · simp [Memory.read, h]
    · simp [Memory.read, h, ih, Ne.symm h]

/-- In the canonical form an address is a hole exactly when it is not below the number of bytes (R51). -/
theorem Memory.read_none_iff {m : Memory} (h : m.wf) {a : Nat} : Memory.read m a = none ↔ m.length ≤ a := by
  rw [Memory.read_eq_none, show m.map Prod.fst = List.range m.length from h]
  simp

/-- A canonical memory that is not empty is a canonical memory with one byte more. -/
theorem Memory.wf_cases {m : Memory} (h : m.wf) : m = [] ∨ ∃ m' v, Memory.wf m' ∧ m = Memory.push m' v := by
  rcases List.eq_nil_or_concat m with rfl | ⟨m', ⟨a, v⟩, rfl⟩
  · exact .inl rfl
  · right
    have h' := h
    simp only [Memory.wf, List.map_append, List.map_cons, List.map_nil, List.length_append, List.length_cons,
      List.length_nil, List.range_succ, List.concat_eq_append] at h'
    obtain ⟨h1, h2⟩ := List.append_inj h' (by simp)
    refine ⟨m', v, h1, ?_⟩
    simp only [List.cons.injEq, and_true] at h2
    simp [Memory.push, h2]

/-- In the canonical form the byte at an address is the byte of that index (R51). -/
theorem Memory.read_eq_getElem {m : Memory} (h : m.wf) (a : Nat) : Memory.read m a = m.bytes[a]? := by
  induction hn : m.length generalizing m with
  | zero => simp [List.length_eq_zero_iff.mp hn, Memory.read]
  | succ n ih =>
    rcases Memory.wf_cases h with rfl | ⟨m', v, hw, rfl⟩
    · simp [Memory.read]
    · have hl : m'.length = n := by simpa using hn
      rw [Memory.push, Memory.read_append, ih hw hl]
      rw [show (m' ++ [(m'.length, v)] : Memory) = m'.push v from rfl, Memory.bytes_push, List.getElem?_append]
      by_cases hlt : a < m'.length
      · simp [Memory.read, hlt, Nat.ne_of_gt hlt]
      · by_cases he : a = m'.length
        · simp [Memory.read, he]
        · have h1 : m'.length < a := by omega
          have h2 : a - m'.length ≠ 0 := by omega
          simp [Memory.read, hlt, Ne.symm he, h2]

/-- What an append can do (R52): it fails exactly when the buffer is full, and otherwise adds one byte at the end. -/
theorem outAppend_eq_some {cap : Nat} {b : Byte} {w w' : Writer} :
    outAppend cap b w = some w' ↔ w.out.length + 1 ≤ cap ∧ w' = { w with out := w.out.push b } := by
  unfold outAppend
  split
  · simp; omega
  · simp [eq_comm]; omega

theorem outAppend_eq_none {cap : Nat} {b : Byte} {w : Writer} :
    outAppend cap b w = none ↔ cap < w.out.length + 1 := by
  unfold outAppend
  split <;> simp <;> omega

end Sys2Proof.Machine
end

