-- ==== Sys2Proof/Laws/BitWriter.lean ====
section
/-! SUPPORT. The laws of the bitstream writer: what writing bits can do, when it succeeds, and what `BW.flush` does
(R52, R101 to R104). -/

namespace Sys2Proof.Machine

/-! ### Bits -/

@[simp] theorem bitsOf_zero (v : Nat) : bitsOf v 0 = [] := rfl

@[simp] theorem length_bitsOf (v n : Nat) : (bitsOf v n).length = n := by simp [bitsOf]

/-- The most significant of `n + 1` bits comes first. -/
theorem bitsOf_succ (v n : Nat) : bitsOf v (n + 1) = v.testBit n :: bitsOf v n := by
  simp only [bitsOf, List.range_succ_eq_map, List.map_cons, List.map_map, List.cons.injEq]
  refine ⟨by simp, List.map_congr_left fun i hi => ?_⟩
  simp only [Function.comp_apply]
  congr 1
  simp at hi; omega

/-- One more bit in the least significant place is one more bit at the end. -/
theorem bitsOf_accShift (acc : Byte) (b : Bool) {n : Nat} (hn : n ≤ 7) :
    bitsOf (accShift acc b).toNat (n + 1) = bitsOf acc.toNat n ++ [b] := by
  have hbit : ∀ i, i ≤ 7 → (accShift acc b).toNat.testBit i = if i = 0 then b else acc.toNat.testBit (i - 1) := by
    intro i hi
    rw [← BitVec.getLsbD, ← BitVec.getLsbD, accShift, BitVec.getLsbD_or, BitVec.getLsbD_shiftLeft, BitVec.getLsbD_setWidth]
    rcases i with _ | i
    · simp
    · have h8 : i + 1 < 8 := by omega
      simp [h8]
  unfold bitsOf
  rw [List.range_succ, List.map_append, List.map_singleton]
  congr 1
  · refine List.map_congr_left fun i hi => ?_
    simp at hi
    rw [hbit _ (by omega), if_neg (by omega)]
    congr 1; omega
  · rw [hbit _ (by omega)]; simp

theorem stuffBytes_append (r r' : List Byte) : stuffBytes (r ++ r') = stuffBytes r ++ stuffBytes r' := by
  simp [stuffBytes]

@[simp] theorem stuffBytes_nil : stuffBytes [] = [] := rfl

theorem stuffBytes_singleton (b : Byte) : stuffBytes [b] = if b = 0xFF then [0xFF, 0x00] else [b] := by
  simp [stuffBytes]

theorem length_stuffBytes_le (r : List Byte) : (stuffBytes r).length ≤ 2 * r.length := by
  induction r with
  | nil => simp
  | cons b r ih =>
    rw [← List.singleton_append, stuffBytes_append, stuffBytes_singleton]
    split <;> simp <;> omega

theorem le_length_stuffBytes (r : List Byte) : r.length ≤ (stuffBytes r).length := by
  induction r with
  | nil => simp
  | cons b r ih =>
    rw [← List.singleton_append, stuffBytes_append, stuffBytes_singleton]
    split <;> simp <;> omega

/-- `w` became `w'` by whole data bytes `raw` and nothing else that is lost: what appending the bits `bits` can do. -/
structure Wrote (bits : List Bool) (w w' : Writer) (raw : List Byte) : Prop where
  bytes : Memory.bytes w'.out = Memory.bytes w.out ++ stuffBytes raw
  bits : pendingBits w ++ bits = raw.flatMap byteBits ++ pendingBits w'
  wf : Memory.wf w.out → Memory.wf w'.out

theorem emitDataByte_eq_some {cap : Nat} {b : Byte} {w w' : Writer} (h : emitDataByte cap b w = some w') :
    w'.acc = w.acc ∧ w'.nacc = w.nacc ∧ Memory.bytes w'.out = Memory.bytes w.out ++ stuffBytes [b] ∧
    (Memory.wf w.out → Memory.wf w'.out) ∧ w'.out.length ≤ cap := by
  simp only [emitDataByte, Option.bind_eq_some_iff] at h
  obtain ⟨w1, h1, h2⟩ := h
  obtain ⟨hc, rfl⟩ := outAppend_eq_some.mp h1
  rw [stuffBytes_singleton]
  split at h2 <;> rename_i hb
  · rw [if_pos hb]
    obtain ⟨hc2, rfl⟩ := outAppend_eq_some.mp h2
    subst_vars
    simp at hc2
    refine ⟨rfl, rfl, by simp, fun hw => Memory.wf_push (Memory.wf_push hw _) _, by simpa using hc2⟩
  · rw [if_neg hb]
    simp only [Option.some.injEq] at h2
    subst h2
    exact ⟨rfl, rfl, by simp, fun hw => Memory.wf_push hw _, by simpa using hc⟩

theorem emitDataByte_isSome {cap : Nat} (b : Byte) {w : Writer} (h : w.out.length + 2 ≤ cap) :
    ∃ w', emitDataByte cap b w = some w' := by
  have h1 : outAppend cap b w = some { w with out := w.out.push b } := outAppend_eq_some.mpr ⟨by omega, rfl⟩
  simp only [emitDataByte, h1, Option.bind_some]
  split
  · exact ⟨_, outAppend_eq_some.mpr ⟨by simp; omega, rfl⟩⟩
  · exact ⟨_, rfl⟩

/-- What one bit can do (R102). -/
theorem putBit_wrote {cap : Nat} {b : Bool} {w w' : Writer} (h : putBit cap b w = some w') :
    ∃ raw, Wrote [b] w w' raw := by
  unfold putBit at h
  split at h
  case isTrue h7 =>
    obtain ⟨ha, hn, hb, hw, -⟩ := emitDataByte_eq_some h
    refine ⟨[accShift w.acc b], hb, ?_, hw⟩
    have h7' : w.nacc.val = 7 := by rw [h7]; rfl
    simp only [pendingBits, ha, hn, h7', List.flatMap_cons, List.flatMap_nil, List.append_nil, byteBits]
    rw [bitsOf_accShift _ _ (le_refl 7)]
    simp
  case isFalse h7 =>
    simp only [Option.some.injEq] at h
    subst h
    have hlt : w.nacc.val < 7 := by
      have := w.nacc.isLt
      have : w.nacc.val ≠ 7 := fun hh => h7 (Fin.ext hh)
      omega
    refine ⟨[], by simp, ?_, id⟩
    have hv : (w.nacc + 1).val = w.nacc.val + 1 := by
      rw [Fin.val_add]; simp; omega
    simp only [pendingBits, hv, List.flatMap_nil, List.nil_append]
    rw [bitsOf_accShift _ _ (by omega)]

theorem Wrote.refl (w : Writer) : Wrote [] w w [] := ⟨by simp, by simp, id⟩

theorem Wrote.trans {b1 b2 : List Bool} {w w1 w2 : Writer} {r1 r2 : List Byte} (h1 : Wrote b1 w w1 r1)
    (h2 : Wrote b2 w1 w2 r2) : Wrote (b1 ++ b2) w w2 (r1 ++ r2) where
  bytes := by rw [h2.bytes, h1.bytes, stuffBytes_append, List.append_assoc]
  bits := by
    rw [← List.append_assoc, h1.bits, List.append_assoc, h2.bits]
    simp
  wf := fun h => h2.wf (h1.wf h)

theorem length_flatMap_byteBits (raw : List Byte) : (raw.flatMap byteBits).length = 8 * raw.length := by
  induction raw with
  | nil => rfl
  | cons b r ih => simp only [List.flatMap_cons, List.length_append, ih, byteBits, length_bitsOf, List.length_cons]; omega

/-- How many data bytes were written: pending and new bits, in whole bytes. -/
theorem Wrote.length {bits : List Bool} {w w' : Writer} {raw : List Byte} (h : Wrote bits w w' raw) :
    w.nacc.val + bits.length = 8 * raw.length + w'.nacc.val := by
  have := congrArg List.length h.bits
  simpa only [pendingBits, List.length_append, length_bitsOf, length_flatMap_byteBits] using this

/-- The output grows by at most two bytes for each whole byte of bits, and never shrinks. -/
theorem Wrote.out_length {bits : List Bool} {w w' : Writer} {raw : List Byte} (h : Wrote bits w w' raw) :
    w.out.length ≤ w'.out.length ∧ w'.out.length ≤ w.out.length + 2 * ((w.nacc.val + bits.length) / 8) := by
  have hb := congrArg List.length h.bytes
  simp only [Memory.length_bytes, List.length_append] at hb
  have := length_stuffBytes_le raw
  have := h.length
  omega

/-- What writing `n` bits of a number can do (R103). -/
theorem putBits_wrote {cap v n : Nat} {w w' : Writer} (h : putBits cap v n w = some w') :
    ∃ raw, Wrote (bitsOf v n) w w' raw := by
  induction n generalizing w with
  | zero => simp only [putBits, Option.some.injEq] at h; subst h; exact ⟨[], .refl _⟩
  | succ n ih =>
    simp only [putBits, Option.bind_eq_some_iff] at h
    obtain ⟨w1, h1, h2⟩ := h
    obtain ⟨r1, hr1⟩ := putBit_wrote h1
    obtain ⟨r2, hr2⟩ := ih h2
    exact ⟨r1 ++ r2, by rw [bitsOf_succ, ← List.singleton_append]; exact hr1.trans hr2⟩

/-- What a sequence of calls can do. -/
theorem putCalls_wrote {cap : Nat} {cs : List BitsCall} {w w' : Writer} (h : putCalls cap cs w = some w') :
    ∃ raw, Wrote (callBits cs) w w' raw := by
  induction cs generalizing w with
  | nil => simp only [putCalls, Option.some.injEq] at h; subst h; exact ⟨[], .refl _⟩
  | cons c cs ih =>
    simp only [putCalls, Option.bind_eq_some_iff] at h
    obtain ⟨w1, h1, h2⟩ := h
    obtain ⟨r1, hr1⟩ := putBits_wrote h1
    obtain ⟨r2, hr2⟩ := ih h2
    exact ⟨r1 ++ r2, by simpa [callBits] using hr1.trans hr2⟩

theorem length_callBits (cs : List BitsCall) : (callBits cs).length = bitCount cs := by
  induction cs with
  | nil => rfl
  | cons c cs ih => simp [callBits, bitCount] at ih ⊢

/-- One bit is written whenever there is room for the bytes it may complete. -/
theorem putBit_isSome {cap : Nat} (b : Bool) {w : Writer} (h : w.out.length + 2 * ((w.nacc.val + 1) / 8) ≤ cap) :
    ∃ w', putBit cap b w = some w' := by
  unfold putBit
  split
  case isTrue h7 =>
    have h7' : w.nacc.val = 7 := by rw [h7]; rfl
    exact emitDataByte_isSome _ (by simp; omega)
  case isFalse => exact ⟨_, rfl⟩

theorem putBits_isSome {cap v n : Nat} {w : Writer} (h : w.out.length + 2 * ((w.nacc.val + n) / 8) ≤ cap) :
    ∃ w', putBits cap v n w = some w' := by
  induction n generalizing w with
  | zero => exact ⟨w, rfl⟩
  | succ n ih =>
    obtain ⟨w1, h1⟩ := putBit_isSome (v.testBit n) (w := w) (cap := cap) (by omega)
    obtain ⟨r, hr⟩ := putBit_wrote h1
    have hl := hr.length
    have ho := hr.out_length
    have hn := w1.nacc.isLt
    simp at hl ho
    simp only [putBits, h1, Option.bind_some]
    exact ih (by omega)

/-- A sequence of calls is carried out whenever there is room for two bytes for each whole byte of bits. -/
theorem putCalls_isSome {cap : Nat} {cs : List BitsCall} {w : Writer}
    (h : w.out.length + 2 * ((w.nacc.val + bitCount cs) / 8) ≤ cap) : ∃ w', putCalls cap cs w = some w' := by
  induction cs generalizing w with
  | nil => exact ⟨w, rfl⟩
  | cons c cs ih =>
    simp only [bitCount, List.map_cons, List.sum_cons] at h ih
    obtain ⟨w1, h1⟩ := putBits_isSome (v := c.1) (n := c.2) (w := w) (cap := cap) (by omega)
    obtain ⟨r, hr⟩ := putBits_wrote h1
    have hl := hr.length
    have ho := hr.out_length
    have hn := w1.nacc.isLt
    simp at hl ho
    simp only [putCalls, h1, Option.bind_some]
    exact ih (by omega)

/-! ### Capacity -/

/-- Nothing the writer does takes the output past its capacity (R52). -/
theorem putBit_capacity {cap : Nat} {b : Bool} {w w' : Writer} (h : putBit cap b w = some w')
    (hc : w.out.length ≤ cap) : w'.out.length ≤ cap := by
  unfold putBit at h
  split at h
  · exact (emitDataByte_eq_some h).2.2.2.2
  · simp only [Option.some.injEq] at h; subst h; exact hc

theorem putBits_capacity {cap v n : Nat} {w w' : Writer} (h : putBits cap v n w = some w')
    (hc : w.out.length ≤ cap) : w'.out.length ≤ cap := by
  induction n generalizing w with
  | zero => simp only [putBits, Option.some.injEq] at h; subst h; exact hc
  | succ n ih =>
    simp only [putBits, Option.bind_eq_some_iff] at h
    obtain ⟨w1, h1, h2⟩ := h
    exact ih h2 (putBit_capacity h1 hc)

theorem putCalls_capacity {cap : Nat} {cs : List BitsCall} {w w' : Writer} (h : putCalls cap cs w = some w')
    (hc : w.out.length ≤ cap) : w'.out.length ≤ cap := by
  induction cs generalizing w with
  | nil => simp only [putCalls, Option.some.injEq] at h; subst h; exact hc
  | cons c cs ih =>
    simp only [putCalls, Option.bind_eq_some_iff] at h
    obtain ⟨w1, h1, h2⟩ := h
    exact ih h2 (putBits_capacity h1 hc)

/-! ### Flush -/

/-- The loop of `flush` with enough turns writes the 1-bits that complete the byte, and only those. -/
theorem flushLoop_eq_putBits {cap fuel : Nat} {w : Writer} (hf : 8 - w.nacc.val ≤ fuel) (h0 : w.nacc ≠ 0) :
    ∀ v, (∀ i, i < 8 → v.testBit i = true) → flushLoop cap fuel w = putBits cap v (8 - w.nacc.val) w := by
  intro v hv
  induction fuel generalizing w with
  | zero => have := w.nacc.isLt; omega
  | succ fuel ih =>
    have hlt := w.nacc.isLt
    have hpos : 0 < w.nacc.val := by
      rcases Nat.eq_zero_or_pos w.nacc.val with h | h
      · exact absurd (Fin.ext h) h0
      · exact h
    obtain ⟨k, hk⟩ : ∃ k, 8 - w.nacc.val = k + 1 := ⟨7 - w.nacc.val, by omega⟩
    rw [hk, flushLoop, if_neg h0, putBits, hv k (by omega)]
    cases h1 : putBit cap true w with
    | none => rfl
    | some w1 =>
      simp only [Option.bind_some]
      obtain ⟨r, hr⟩ := putBit_wrote h1
      have hl := hr.length
      have hn := w1.nacc.isLt
      simp only [List.length_singleton] at hl
      rcases Nat.eq_zero_or_pos k with rfl | hkpos
      · have : w1.nacc = 0 := Fin.ext (by simp; omega)
        cases fuel <;> simp [flushLoop, putBits, this]
      · have hrl : r.length = 0 := by omega
        have h1n : w1.nacc.val = w.nacc.val + 1 := by omega
        have : w1.nacc ≠ 0 := fun hh => by rw [hh] at h1n; simp at h1n
        rw [ih (by omega) this]
        congr 1; omega

/-- What `flush` does when bits are pending: it writes as many 1-bits as complete the byte (R104). -/
theorem flush_eq_putBits {cap : Nat} {w : Writer} (h0 : w.nacc ≠ 0) :
    flush cap w = putBits cap 0xFF (8 - w.nacc.val) w := by
  have hpos : w.nacc.val ≠ 0 := fun h => h0 (Fin.ext h)
  refine flushLoop_eq_putBits (by omega) h0 _ fun i hi => ?_
  interval_cases i <;> rfl

/-- `flush` with nothing pending does nothing (R104). -/
theorem flush_of_nacc_zero {cap : Nat} {w : Writer} (h0 : w.nacc = 0) : flush cap w = some w := by
  simp [flush, flushLoop, h0]

end Sys2Proof.Machine
end

