-- ==== Sys2Proof/Laws/Segments.lean ====
section
/-! SUPPORT. The laws of raw bytes: segments and the header are bytes appended as they are (R105 to R107, R181). -/

namespace Sys2Proof.Machine

/-- `w` became `w'` by the bytes `bs`, appended as they are: what raw bytes can do (R105). -/
structure Appended (bs : List Byte) (w w' : Writer) : Prop where
  bytes : Memory.bytes w'.out = Memory.bytes w.out ++ bs
  acc : w'.acc = w.acc
  nacc : w'.nacc = w.nacc
  wf : Memory.wf w.out → Memory.wf w'.out

theorem Appended.refl (w : Writer) : Appended [] w w := ⟨by simp, rfl, rfl, id⟩

theorem Appended.trans {b1 b2 : List Byte} {w w1 w2 : Writer} (h1 : Appended b1 w w1) (h2 : Appended b2 w1 w2) :
    Appended (b1 ++ b2) w w2 where
  bytes := by rw [h2.bytes, h1.bytes, List.append_assoc]
  acc := h2.acc.trans h1.acc
  nacc := h2.nacc.trans h1.nacc
  wf := fun h => h2.wf (h1.wf h)

theorem Appended.length {bs : List Byte} {w w' : Writer} (h : Appended bs w w') :
    w'.out.length = w.out.length + bs.length := by
  have := congrArg List.length h.bytes
  simpa only [Memory.length_bytes, List.length_append] using this

/-- Every byte there was stays at its address (R51, R52). -/
theorem Appended.read {bs : List Byte} {w w' : Writer} (h : Appended bs w w') (hw : Memory.wf w.out) {a : Nat}
    (ha : a < w.out.length) : Memory.read w'.out a = Memory.read w.out a := by
  rw [Memory.read_eq_getElem (h.wf hw), Memory.read_eq_getElem hw, h.bytes, List.getElem?_append_left (by simpa using ha)]

theorem putBytes_append (cap : Nat) (b1 b2 : List Byte) (w : Writer) :
    putBytes cap (b1 ++ b2) w = (putBytes cap b1 w).bind (putBytes cap b2) := by
  induction b1 generalizing w with
  | nil => rfl
  | cons b b1 ih =>
    simp only [List.cons_append, putBytes]
    cases putByte cap b w with
    | none => rfl
    | some w1 => simpa using ih w1

/-- What raw bytes can do. -/
theorem putBytes_appended {cap : Nat} {bs : List Byte} {w w' : Writer} (h : putBytes cap bs w = some w') :
    Appended bs w w' ∧ (w.out.length ≤ cap → w'.out.length ≤ cap) := by
  induction bs generalizing w with
  | nil => simp only [putBytes, Option.some.injEq] at h; subst h; exact ⟨.refl _, id⟩
  | cons b bs ih =>
    simp only [putBytes, putByte, Option.bind_eq_some_iff] at h
    obtain ⟨w1, h1, h2⟩ := h
    obtain ⟨hc, rfl⟩ := outAppend_eq_some.mp h1
    obtain ⟨ha, hl⟩ := ih h2
    refine ⟨?_, fun _ => hl (by simpa using hc)⟩
    have h0 : Appended [b] w { w with out := w.out.push b } := ⟨by simp, rfl, rfl, fun hw => Memory.wf_push hw _⟩
    exact h0.trans ha

/-- Raw bytes that fit are appended. -/
theorem putBytes_isSome {cap : Nat} {bs : List Byte} {w : Writer} (h : w.out.length + bs.length ≤ cap) :
    ∃ w', putBytes cap bs w = some w' := by
  induction bs generalizing w with
  | nil => exact ⟨w, rfl⟩
  | cons b bs ih =>
    simp only [List.length_cons] at h
    have h1 : putByte cap b w = some { w with out := w.out.push b } := outAppend_eq_some.mpr ⟨by omega, rfl⟩
    simp only [putBytes, h1, Option.bind_some]
    exact ih (by simp; omega)

/-- Raw bytes that do not fit raise `E_ALLOC`. -/
theorem putBytes_eq_none {cap : Nat} {bs : List Byte} {w : Writer} (h : cap < w.out.length + bs.length)
    (hb : bs ≠ []) : putBytes cap bs w = none := by
  induction bs generalizing w with
  | nil => exact absurd rfl hb
  | cons b bs ih =>
    simp only [putBytes, putByte]
    cases h1 : outAppend cap b w with
    | none => rfl
    | some w1 =>
      obtain ⟨hc, rfl⟩ := outAppend_eq_some.mp h1
      simp only [List.length_cons] at h
      have hne : bs ≠ [] := by rintro rfl; simp at h; omega
      simpa using ih (by simp; omega) hne

/-- A segment is the raw bytes of `segmentBytes` (R107). -/
theorem putSegment_eq (cap : Nat) (g : Byte × List Byte) (w : Writer) :
    putSegment cap g.1 g.2 w = putBytes cap (segmentBytes g) w := by
  rw [segmentBytes, List.append_assoc, putBytes_append]; rfl

theorem putSegments_eq (cap : Nat) (gs : List (Byte × List Byte)) (w : Writer) :
    putSegments cap gs w = putBytes cap (gs.flatMap segmentBytes) w := by
  induction gs generalizing w with
  | nil => rfl
  | cons g gs ih =>
    rw [List.flatMap_cons, putBytes_append, putSegments, putSegment_eq]
    exact congrArg _ (funext ih)

/-- The header is the raw bytes of `headerBytes` (R181). -/
theorem writeHeaders_eq (cap : Nat) (cfg : Cfg) (qt0 qt1 : Vector Byte 64) (w : Writer) :
    writeHeaders cap cfg qt0 qt1 w = putBytes cap (headerBytes cfg qt0 qt1) w := by
  rw [headerBytes, putBytes_append, writeHeaders, putMarker]
  exact congrArg _ (funext (putSegments_eq cap _))

/-- The end of a stream: the flushed bits and the end-of-image marker as raw bytes (R109). -/
theorem finalize_eq (cap : Nat) (w : Writer) : finalize cap w = (flush cap w).bind (putBytes cap [0xFF, 0xD9]) := rfl

theorem length_segmentBytes (g : Byte × List Byte) : (segmentBytes g).length = g.2.length + 4 := by
  simp [segmentBytes, bigEndian16]

end Sys2Proof.Machine
end

