-- ==== Sys2Proof/Laws/Capacity.lean ====
section
/-! SUPPORT. The laws of the capacity: each operation of the bitstream writer leaves one writer whatever the capacity, exactly when
that writer fits, and raises `E_ALLOC` otherwise (R52, R234). -/

namespace Sys2Proof.Machine

/-- From `w`, with any capacity that holds what is there, `op` leaves `w'` when `w'` fits, and raises `E_ALLOC` otherwise. -/
structure Delivers (op : Nat → Writer → Option Writer) (w w' : Writer) : Prop where
  grows : w.out.length ≤ w'.out.length
  run : ∀ cap, w.out.length ≤ cap → op cap w = if w'.out.length ≤ cap then some w' else none

theorem Delivers.refl (w : Writer) : Delivers (fun _ v => some v) w w := ⟨le_refl _, fun cap h => by simp [h]⟩

theorem Delivers.bind {f g : Nat → Writer → Option Writer} {w w1 w2 : Writer} (h1 : Delivers f w w1) (h2 : Delivers g w1 w2) :
    Delivers (fun cap v => (f cap v).bind (g cap)) w w2 where
  grows := h1.grows.trans h2.grows
  run cap hc := by
    simp only [h1.run cap hc]
    split
    case isTrue hl => simpa using h2.run cap hl
    case isFalse hl => rw [if_neg fun h => hl (h2.grows.trans h)]; rfl

theorem Delivers.congr {f g : Nat → Writer → Option Writer} {w w' : Writer} (h : Delivers f w w')
    (hfg : ∀ cap, f cap w = g cap w) : Delivers g w w' :=
  ⟨h.grows, fun cap hc => (hfg cap).symm.trans (h.run cap hc)⟩

/-- With just enough room the operation succeeds. -/
theorem Delivers.eq_some {op : Nat → Writer → Option Writer} {w w' : Writer} (h : Delivers op w w') :
    op w'.out.length w = some w' := by rw [h.run _ h.grows, if_pos (le_refl _)]

theorem delivers_outAppend (b : Byte) (w : Writer) :
    Delivers (fun cap => outAppend cap b) w { w with out := w.out.push b } where
  grows := by simp
  run cap _ := by
    by_cases h : w.out.length + 1 ≤ cap
    · simpa [h] using outAppend_eq_some.mpr ⟨h, rfl⟩
    · simpa [h] using outAppend_eq_none.mpr (by omega)

theorem delivers_emitDataByte (b : Byte) (w : Writer) : ∃ w', Delivers (fun cap => emitDataByte cap b) w w' := by
  by_cases hb : b = 0xFF
  · subst hb; exact ⟨_, (delivers_outAppend 0xFF w).bind (delivers_outAppend 0 _)⟩
  · refine ⟨_, (delivers_outAppend b w).grows, fun cap hc => ?_⟩
    have h := (delivers_outAppend b w).run cap hc
    simp only [emitDataByte, if_neg hb] at h ⊢
    rw [h]; split <;> rfl

theorem delivers_putBit (b : Bool) (w : Writer) : ∃ w', Delivers (fun cap => putBit cap b) w w' := by
  by_cases h7 : w.nacc = 7
  · obtain ⟨w', h⟩ := delivers_emitDataByte (accShift w.acc b) { w with acc := 0, nacc := 0 }
    exact ⟨w', h.grows, fun cap hc => by simpa only [putBit, if_pos h7] using h.run cap hc⟩
  · exact ⟨{ w with acc := accShift w.acc b, nacc := w.nacc + 1 }, le_refl _, fun cap hc => by
      simp only [putBit, if_neg h7, if_pos hc]⟩

theorem delivers_putBits (v n : Nat) (w : Writer) : ∃ w', Delivers (fun cap => putBits cap v n) w w' := by
  induction n generalizing w with
  | zero => exact ⟨w, .refl w⟩
  | succ n ih =>
    obtain ⟨w1, h1⟩ := delivers_putBit (v.testBit n) w
    obtain ⟨w2, h2⟩ := ih w1
    exact ⟨w2, h1.bind h2⟩

theorem delivers_putCalls (cs : List BitsCall) (w : Writer) : ∃ w', Delivers (fun cap => putCalls cap cs) w w' := by
  induction cs generalizing w with
  | nil => exact ⟨w, .refl w⟩
  | cons c cs ih =>
    obtain ⟨w1, h1⟩ := delivers_putBits c.1 c.2 w
    obtain ⟨w2, h2⟩ := ih w1
    exact ⟨w2, h1.bind h2⟩

theorem delivers_putBytes (bs : List Byte) (w : Writer) : ∃ w', Delivers (fun cap => putBytes cap bs) w w' := by
  induction bs generalizing w with
  | nil => exact ⟨w, .refl w⟩
  | cons b bs ih =>
    obtain ⟨w2, h2⟩ := ih { w with out := w.out.push b }
    exact ⟨w2, (delivers_outAppend b w).bind h2⟩

theorem delivers_writeHeaders (cfg : Cfg) (qt0 qt1 : Vector Byte 64) (w : Writer) :
    ∃ w', Delivers (fun cap => writeHeaders cap cfg qt0 qt1) w w' := by
  obtain ⟨w', h⟩ := delivers_putBytes (headerBytes cfg qt0 qt1) w
  exact ⟨w', h.congr fun cap => (writeHeaders_eq cap cfg qt0 qt1 w).symm⟩

theorem delivers_flush (w : Writer) : ∃ w', Delivers flush w w' := by
  by_cases h0 : w.nacc = 0
  · exact ⟨w, le_refl _, fun cap hc => by rw [flush_of_nacc_zero h0, if_pos hc]⟩
  · obtain ⟨w', h⟩ := delivers_putBits 0xFF (8 - w.nacc.val) w
    exact ⟨w', h.congr fun cap => (flush_eq_putBits h0).symm⟩

theorem delivers_finalize (w : Writer) : ∃ w', Delivers finalize w w' := by
  obtain ⟨w1, h1⟩ := delivers_flush w
  obtain ⟨w2, h2⟩ := delivers_putBytes [0xFF, 0xD9] w1
  exact ⟨w2, h1.bind h2⟩

end Sys2Proof.Machine
end

