-- ==== Sys2Proof/Laws/Datapath.lean ====
section
/-! SUPPORT. The entries of the vectors the datapath fills, two's complement, table entries, rounding, and the range of the DC
coefficient (R11, R13, R32, R91, R124 to R127, R141, R142, R144). -/

namespace Sys2Proof.Machine

/-! ### The entries of the vectors the datapath fills -/

@[simp] theorem vec_getElem {n : Nat} {α : Type} (x : α) (i : Nat) (h : i < n) : (vec n x)[i] = x := by simp [vec]

theorem samplesOf_getElem (p : Vector CmdWord 16) (k : Nat) (h : k < 64) :
    (samplesOf p)[k] = (p[k / 4].w).extractLsb' (8 * (k % 4)) 8 := by simp [samplesOf]

theorem rowPass_getElem (sb : Vector Byte 64) (k : Fin 64) :
    (rowPass sb)[k.val] = BitVec.ofInt 26 (rowSum sb (rowOf k) (colOf k)) := by simp [rowPass]

theorem colPass_getElem (sb : Vector Byte 64) (tb : Vector (BitVec 26) 64) (k : Fin 64) :
    (colPass sb tb)[k.val] = BitVec.ofInt 44
      (if exactPosition (rowOf k) (colOf k) then exactSum sb (rowOf k) (colOf k) else colSum tb (rowOf k) (colOf k)) := by
  simp [colPass]

theorem quantize_getElem (qt : Vector Byte 64) (cb : Vector (BitVec 44) 64) (k : Nat) (h : k < 64) :
    (quantize qt cb)[k] = BitVec.ofInt 12 (quantizeOne cb[k] qt[k]) := by simp [quantize]

@[simp] theorem reorder_getElem {α : Type} (b : Vector α 64) (z : Nat) (h : z < 64) :
    (reorder b)[z] = b[(zigzag[z]).val] := by simp [reorder]

theorem buildTable_getElem (q : Nat) (r : Role) (k : Nat) (h : k < 64) :
    (buildTable q r)[k] = BitVec.ofNat 8 (qEntry q (refTable r)[k]) := by simp [buildTable]

@[simp] theorem rowOf_ix (y x : Fin 8) : rowOf (ix y x) = y := by
  apply Fin.ext; simp only [rowOf, ix]; omega

@[simp] theorem colOf_ix (y x : Fin 8) : colOf (ix y x) = x := by
  apply Fin.ext; simp only [colOf, ix]; omega

@[simp] theorem ix_rowOf_colOf (k : Fin 64) : ix (rowOf k) (colOf k) = k := by
  apply Fin.ext; simp only [rowOf, colOf, ix]; omega

theorem sum8_eq_sum (f : Fin 8 → Int) : sum8 f = ∑ i : Fin 8, f i := by
  simp [sum8, Fin.sum_univ_eight]

/-! ### Two's complement -/

/-- A number in the range of a width is stored exactly (R9, R10). -/
theorem toInt_ofInt_of_range {w : Nat} {n : Int} (h1 : -2 ^ (w - 1) ≤ n) (h2 : n < 2 ^ (w - 1)) (hw : 0 < w) :
    (BitVec.ofInt w n).toInt = n := by
  rw [BitVec.toInt_ofInt]
  obtain ⟨k, rfl⟩ : ∃ k, w = k + 1 := ⟨w - 1, by omega⟩
  simp only [Nat.add_sub_cancel] at h1 h2
  exact Int.bmod_eq_of_le (by push_cast; rw [pow_succ]; omega) (by push_cast; rw [pow_succ]; omega)

/-! ### Quantization table entries -/

theorem clamp_bounds (v : Nat) {lo hi : Nat} (h : lo ≤ hi) : lo ≤ clamp v lo hi ∧ clamp v lo hi ≤ hi := by
  unfold clamp; split <;> [omega; split <;> omega]

theorem qEntry_bounds (q ref : Nat) : 1 ≤ qEntry q ref ∧ qEntry q ref ≤ 255 := clamp_bounds _ (by omega)

/-- Table entries are 1 to 255, whatever the quality (R32). -/
theorem buildTable_bounds (q : Nat) (r : Role) (k : Nat) (h : k < 64) :
    1 ≤ ((buildTable q r)[k]).toNat ∧ ((buildTable q r)[k]).toNat ≤ 255 := by
  have := qEntry_bounds q (refTable r)[k]
  rw [buildTable_getElem, BitVec.toNat_ofNat, Nat.mod_eq_of_lt (by omega)]
  exact this

/-! ### Rounding -/

/-- `rhaz` as one integer division on each side of 0 (R11). -/
theorem rhaz_eq (n : Int) (d : Nat) :
    rhaz n d = if 0 ≤ n then (2 * n + d) / (2 * d) else -((2 * -n + d) / (2 * d)) := by
  unfold rhaz
  split
  · push_cast; rw [Int.toNat_of_nonneg (by assumption)]
  · push_cast; rw [Int.toNat_of_nonneg (by omega)]

/-- A quotient that is at most a whole number rounds to at most that number. -/
theorem rhaz_le {n m : Int} {d : Nat} (hd : 0 < d) (h : n ≤ m * d) : rhaz n d ≤ m := by
  have hd' : (0 : Int) < 2 * d := by positivity
  rw [rhaz_eq]
  split
  · have : (2 * n + d) / (2 * d) < m + 1 := Int.ediv_lt_of_lt_mul hd' (by nlinarith)
    omega
  · have : -m ≤ (2 * -n + d) / (2 * d) := Int.le_ediv_of_mul_le hd' (by nlinarith)
    omega

/-- A quotient that is at least a whole number rounds to at least that number. -/
theorem le_rhaz {n m : Int} {d : Nat} (hd : 0 < d) (h : m * d ≤ n) : m ≤ rhaz n d := by
  have hd' : (0 : Int) < 2 * d := by positivity
  rw [rhaz_eq]
  split
  · exact Int.le_ediv_of_mul_le hd' (by nlinarith)
  · have : (2 * -n + d) / (2 * d) < -m + 1 := Int.ediv_lt_of_lt_mul hd' (by nlinarith)
    omega

/-! ### Sums -/

theorem levelShift_bounds (sb : Vector Byte 64) (k : Fin 64) : -128 ≤ levelShift sb k ∧ levelShift sb k ≤ 127 := by
  unfold levelShift
  have := (sb[k.val]).isLt
  omega

theorem sum8_bounds {f : Fin 8 → Int} {a b : Int} (h : ∀ i, a ≤ f i ∧ f i ≤ b) : 8 * a ≤ sum8 f ∧ sum8 f ≤ 8 * b := by
  have := h 0; have := h 1; have := h 2; have := h 3; have := h 4; have := h 5; have := h 6; have := h 7
  unfold sum8
  omega

/-- The DC coefficient: the exact weight of the sum of all shifted samples (R126). -/
theorem colPass_zero (sb : Vector Byte 64) :
    ((colPass sb (rowPass sb))[0]).toInt = exactSum sb 0 0 ∧
    -1024 * 2 ^ 32 ≤ exactSum sb 0 0 ∧ exactSum sb 0 0 ≤ 1016 * 2 ^ 32 := by
  have hs := sum8_bounds (f := fun y => sum8 fun x => sgRom 0 y * sgRom 0 x * levelShift sb (ix y x)) (a := -1024) (b := 1016)
    fun y => by
      have := sum8_bounds (f := fun x => sgRom 0 y * sgRom 0 x * levelShift sb (ix y x)) (a := -128) (b := 127)
        fun x => by simpa [sgRom] using levelShift_bounds sb (ix y x)
      omega
  have hb : -1024 * 2 ^ 32 ≤ exactSum sb 0 0 ∧ exactSum sb 0 0 ≤ 1016 * 2 ^ 32 := by
    unfold exactSum; omega
  have h0 : (colPass sb (rowPass sb))[0] = BitVec.ofInt 44 (exactSum sb 0 0) := colPass_getElem sb (rowPass sb) 0
  refine ⟨?_, hb⟩
  rw [h0]
  exact toInt_ofInt_of_range (by norm_num; omega) (by norm_num; omega) (by norm_num)

theorem toNat_pos_of_ne_zero {b : Byte} (h : b ≠ 0) : 1 ≤ b.toNat := by
  rcases Nat.eq_zero_or_pos b.toNat with h' | h'
  · exact absurd (BitVec.eq_of_toNat_eq (by simpa using h')) h
  · exact h'

/-- The quantized DC coefficient is in the range of a predictor (R35, R142). -/
theorem zb_zero_bounds (sb qt : Vector Byte 64) (h : ∀ k : Fin 64, qt[k.val] ≠ 0) :
    -1024 ≤ ((reorder (quantize qt (colPass sb (rowPass sb))))[0]).toInt ∧
    ((reorder (quantize qt (colPass sb (rowPass sb))))[0]).toInt ≤ 1016 := by
  have hz : (zigzag[0]).val = 0 := rfl
  obtain ⟨hc, h1, h2⟩ := colPass_zero sb
  have hq := toNat_pos_of_ne_zero (h 0)
  have hd : 0 < (qt[0]).toNat * 2 ^ 32 := Nat.mul_pos hq (by norm_num)
  have hr : -1024 ≤ quantizeOne (colPass sb (rowPass sb))[0] qt[0] ∧ quantizeOne (colPass sb (rowPass sb))[0] qt[0] ≤ 1016 := by
    unfold quantizeOne
    rw [hc]
    have hq' : (1 : Int) ≤ ((qt[0]).toNat : Int) := by exact_mod_cast hq
    exact ⟨le_rhaz hd (by push_cast; nlinarith), rhaz_le hd (by push_cast; nlinarith)⟩
  rw [reorder_getElem, quantize_getElem]
  simp only [hz]
  rw [toInt_ofInt_of_range (by norm_num; omega) (by norm_num; omega) (by norm_num)]
  exact hr

end Sys2Proof.Machine
end

