-- ==== Sys2Proof/Laws/Decode.lean ====
section
/-! SUPPORT. The laws of the opcode map and of head words (R72 to R75). -/

namespace Sys2Proof

/-! ### The opcode map -/

theorem opOfCode_opCode (o : Op) : opOfCode (opCode o) = some o := by cases o <;> decide

theorem opOfCode_eq_some {b : Byte} {o : Op} : opOfCode b = some o ↔ b = opCode o := by
  constructor
  · intro h
    exact (beq_iff_eq.mp (List.find?_some (p := fun o => opCode o == b) h)).symm
  · rintro rfl; exact opOfCode_opCode o

/-- A reserved `op` is none of the eight (R75). -/
theorem opOfCode_eq_none {b : Byte} : opOfCode b = none ↔ ∀ o : Op, b ≠ opCode o := by
  rw [Option.eq_none_iff_forall_not_mem]
  exact forall_congr' fun o => not_congr opOfCode_eq_some

theorem opCode_injective {o o' : Op} (h : opCode o = opCode o') : o = o' :=
  Option.some.inj ((opOfCode_opCode o).symm.trans (h ▸ opOfCode_opCode o'))

/-! ### Fields of a head word -/

@[simp] theorem opField_headWord (o : Op) (r : Byte) : opField (headWord o r) = opCode o := by
  cases o <;> revert r <;> decide +kernel

@[simp] theorem regField_headWord (o : Op) (r : Byte) : regField (headWord o r) = r := by
  cases o <;> revert r <;> decide +kernel

/-- The bits of a head word: the register number, 16 zeros, `op` (R72). -/
theorem getLsbD_headWord (o : Op) (r : Byte) (i : Nat) :
    (headWord o r).getLsbD i =
      if i < 8 then r.getLsbD i else if i < 24 then false else (opCode o).getLsbD (i - 24) := by
  have h : (headWord o r).getLsbD i = (opCode o ++ ((0 : BitVec 16) ++ r)).getLsbD i := rfl
  rw [h, BitVec.getLsbD_append, BitVec.getLsbD_append]
  split_ifs <;> first | rfl | omega | simp

/-- The row's own head word meets its match and mask. -/
theorem headWord_and_opMask (o : Op) (r : Byte) (hr : r = 0 ∨ o = .wrcfg ∨ o = .rdreg) :
    headWord o r &&& opMask o = opMatch o := by
  cases o <;> simp only [reduceCtorEq, or_false, or_true] at hr <;> first | (subst hr; decide) | (revert r; decide +kernel)

/-- Whether a row fixes all of `arg` (formats N, B and A) or leaves the register number free (format R) (R74). -/
def hasRegister : Op → Bool
  | .wrcfg => true
  | .rdreg => true
  | .create => false
  | .beginImage => false
  | .block => false
  | .endImage => false
  | .destroy => false
  | .rdout => false

/-- A head word meets its row's match and mask exactly when it is the row's head word with some register number, which is 0 in
the formats without one (R74, R75). -/
theorem mask_eq_match_iff {w : Word} {o : Op} :
    w &&& opMask o = opMatch o ↔ w = headWord o (if hasRegister o then regField w else 0) := by
  constructor
  · intro h
    apply BitVec.eq_of_getLsbD_eq
    intro i hi
    have hb := congrArg (fun x : Word => x.getLsbD i) h
    revert hb
    rw [getLsbD_headWord]
    simp only [BitVec.getLsbD_and]
    cases o <;> simp only [opMask, opMatch, hasRegister, opCode, regField, if_true, Bool.false_eq_true, if_false] <;>
      interval_cases i <;> simp
  · intro h
    rw [h]
    exact headWord_and_opMask o _ (by cases o <;> simp [hasRegister])

end Sys2Proof
end

