-- ==== Sys2Proof/Laws/Entropy.lean ====
section
/-! SUPPORT. The laws of the entropy coder: categories, value bits, and that every symbol of a block has a code (R152, R161, R162). -/

namespace Sys2Proof.Machine

/-! ### `bitlen`, categories and value bits -/

/-- A number fits `k` bits exactly when its bit length is at most `k` (R11). -/
theorem bitlen_le_iff {m k : Nat} : bitlen m ≤ k ↔ m < 2 ^ k := by
  unfold bitlen
  split
  case isTrue h => subst h; simp
  case isFalse h => rw [Nat.succ_le_iff, Nat.log2_lt h]

theorem lt_bitlen_iff {m k : Nat} : k < bitlen m ↔ 2 ^ k ≤ m := by
  rw [← Nat.not_le, bitlen_le_iff, Nat.not_lt]

theorem category_le_iff {v : Int} {k : Nat} : category v ≤ k ↔ v.natAbs < 2 ^ k := bitlen_le_iff

theorem category_pos {v : Int} (h : v ≠ 0) : 1 ≤ category v := lt_bitlen_iff.mpr (by simpa [Nat.one_le_iff_ne_zero] using h)

@[simp] theorem category_zero : category 0 = 0 := rfl

/-- The magnitude of a non-zero value lies between the powers of two of its category (R152). -/
theorem category_bounds {v : Int} (h : v ≠ 0) : 2 ^ (category v - 1) ≤ v.natAbs ∧ v.natAbs < 2 ^ category v := by
  refine ⟨lt_bitlen_iff.mp ?_, category_le_iff.mp (le_refl _)⟩
  have := category_pos h
  unfold category at *; omega

/-- Value bits fit their category (R152). -/
theorem valueBits_lt {v : Int} (h : v ≠ 0) : valueBits v (category v) < 2 ^ category v := by
  have ⟨h1, h2⟩ := category_bounds h
  have hp : (0 : Int) < 2 ^ category v := by positivity
  have h2' : (v.natAbs : Int) < 2 ^ category v := by exact_mod_cast h2
  unfold valueBits
  split <;> zify <;> omega

/-! ### The codes of a block -/

theorem huffTable_facts : ∀ t : Fin 4, ∀ e ∈ huffTable t, e.code < 2 ^ e.len ∧ 2 ≤ e.len ∧ e.len ≤ 16 := by decide +kernel

/-- The call for a symbol is the code of an entry of the table: 2 to 16 bits that fit (R161). -/
theorem symbolCall_bounds {t : Fin 4} {sym : Nat} {c : BitsCall} (h : symbolCall t sym = some c) :
    c.1 < 2 ^ c.2 ∧ 2 ≤ c.2 ∧ c.2 ≤ 16 := by
  simp only [symbolCall, Option.map_eq_some_iff] at h
  obtain ⟨e, he, rfl⟩ := h
  exact huffTable_facts t e (List.mem_of_find?_eq_some he)

/-- Every DC category has a code (R162). -/
theorem symbolCall_dc (r : Role) : ∀ n : Nat, n ≤ 11 → ∃ c, symbolCall (tableNumber .dc r) n = some c := by
  cases r <;> intro n hn <;> interval_cases n <;> exact ⟨_, rfl⟩

theorem symbolCall_ac_isSome : ∀ r : Role, ∀ run : Fin 16, ∀ s : Fin 10,
    (symbolCall (tableNumber .ac r) (run.val * 16 + (s.val + 1))).isSome = true := by
  intro r; cases r <;> decide +kernel

/-- Every AC symbol of a run up to 15 and a category from 1 to 10 has a code (R162). -/
theorem symbolCall_ac (r : Role) {run s : Nat} (hr : run < 16) (h1 : 1 ≤ s) (h2 : s ≤ 10) :
    ∃ c, symbolCall (tableNumber .ac r) (run * 16 + s) = some c := by
  have := symbolCall_ac_isSome r ⟨run, hr⟩ ⟨s - 1, by omega⟩
  simp only [show s - 1 + 1 = s by omega] at this
  exact Option.isSome_iff_exists.mp this

/-- ZRL and EOB have codes (R162). -/
theorem symbolCall_zrl_eob (r : Role) :
    (∃ c, symbolCall (tableNumber .ac r) 0xF0 = some c) ∧ ∃ c, symbolCall (tableNumber .ac r) 0x00 = some c := by
  cases r <;> exact ⟨⟨_, rfl⟩, ⟨_, rfl⟩⟩

/-- A call whose value fits its width, which is at most 16 bits: what R103 asks for. -/
def GoodCall (c : BitsCall) : Prop := c.2 ≤ 16 ∧ c.1 < 2 ^ c.2

/-- The DC difference of a block always has a code, of good calls (R162). -/
theorem dcCalls_isSome (r : Role) {diff : Int} (h : diff.natAbs ≤ 2040) :
    ∃ cs, dcCalls (tableNumber .dc r) diff = some cs ∧ ∀ c ∈ cs, GoodCall c := by
  have hc : category diff ≤ 11 := category_le_iff.mpr (by omega)
  obtain ⟨c, hcall⟩ := symbolCall_dc r _ hc
  have hb := symbolCall_bounds hcall
  unfold dcCalls
  rw [hcall]
  refine ⟨_, rfl, ?_⟩
  split
  case isTrue hpos =>
    have hne : diff ≠ 0 := by rintro rfl; simp at hpos
    intro x hx
    simp only [List.mem_cons, List.not_mem_nil, or_false] at hx
    rcases hx with rfl | rfl
    · exact ⟨hb.2.2, hb.1⟩
    · exact ⟨by simpa using (by omega : category diff ≤ 16), valueBits_lt hne⟩
  case isFalse =>
    intro x hx
    simp only [List.mem_cons, List.not_mem_nil, or_false] at hx
    subst hx
    exact ⟨hb.2.2, hb.1⟩

/-- The call list of one non-zero AC value always exists, of good calls (R162). -/
theorem acValueCalls_isSome (r : Role) (run : Nat) {v : Int} (h0 : v ≠ 0) (h : v.natAbs ≤ 1023) :
    ∃ cs, acValueCalls (tableNumber .ac r) run v = some cs ∧ ∀ c ∈ cs, GoodCall c := by
  have hcat : category v ≤ 10 := category_le_iff.mpr (by omega)
  obtain ⟨⟨z, hz⟩, -⟩ := symbolCall_zrl_eob r
  obtain ⟨c, hc⟩ := symbolCall_ac r (Nat.mod_lt run (by omega : 0 < 16)) (category_pos h0) hcat
  have hzb := symbolCall_bounds hz
  have hcb := symbolCall_bounds hc
  unfold acValueCalls
  rw [hz, hc]
  refine ⟨_, rfl, fun x hx => ?_⟩
  simp only [List.mem_append, List.mem_replicate, List.mem_cons, List.not_mem_nil, or_false] at hx
  rcases hx with ⟨-, rfl⟩ | rfl | rfl
  · exact ⟨hzb.2.2, hzb.1⟩
  · exact ⟨hcb.2.2, hcb.1⟩
  · exact ⟨by simpa using (by omega : category v ≤ 16), valueBits_lt h0⟩

theorem acCalls_isSome (r : Role) (run : Nat) {vs : List Int} (h : ∀ v ∈ vs, v.natAbs ≤ 1023) :
    ∃ cs, acCalls (tableNumber .ac r) run vs = some cs ∧ ∀ c ∈ cs, GoodCall c := by
  induction vs generalizing run with
  | nil =>
    obtain ⟨-, c, hc⟩ := symbolCall_zrl_eob r
    have hb := symbolCall_bounds hc
    unfold acCalls
    split
    · rw [hc]; exact ⟨_, rfl, fun x hx => by simp at hx; subst hx; exact ⟨hb.2.2, hb.1⟩⟩
    · exact ⟨[], rfl, by simp⟩
  | cons v vs ih =>
    have hvs : ∀ v ∈ vs, v.natAbs ≤ 1023 := fun x hx => h x (List.mem_cons_of_mem _ hx)
    unfold acCalls
    split
    · exact ih _ hvs
    · rename_i hv
      obtain ⟨c1, h1, g1⟩ := acValueCalls_isSome r run hv (h v List.mem_cons_self)
      obtain ⟨c2, h2, g2⟩ := ih 0 hvs
      rw [h1, h2]
      refine ⟨_, rfl, fun x hx => ?_⟩
      rcases List.mem_append.mp hx with hx | hx
      exacts [g1 x hx, g2 x hx]

/-! ### The number of bits -/

@[simp] theorem bitCount_nil : bitCount [] = 0 := rfl
@[simp] theorem bitCount_cons (c : BitsCall) (cs : List BitsCall) : bitCount (c :: cs) = c.2 + bitCount cs := by
  simp [bitCount]
@[simp] theorem bitCount_append (a b : List BitsCall) : bitCount (a ++ b) = bitCount a + bitCount b := by
  simp [bitCount]
@[simp] theorem bitCount_replicate (n : Nat) (c : BitsCall) : bitCount (List.replicate n c) = n * c.2 := by
  simp [bitCount]

/-- The DC part of a block has at least two bits. -/
theorem bitCount_dcCalls {t : Fin 4} {diff : Int} {cs : List BitsCall} (h : dcCalls t diff = some cs) : 2 ≤ bitCount cs := by
  unfold dcCalls at h
  cases hc : symbolCall t (category diff) with
  | none => rw [hc] at h; cases h
  | some c =>
    have := symbolCall_bounds hc
    rw [hc] at h
    simp only [Option.map_some, Option.some.injEq] at h
    subst h
    split <;> simp <;> omega

theorem bitCount_blockCalls {r : Role} {pred : BitVec 12} {zb : Vector (BitVec 12) 64} {cs : List BitsCall}
    (h : blockCalls r pred zb = some cs) : 2 ≤ bitCount cs := by
  unfold blockCalls at h
  split at h
  · rename_i dc ac h1 h2
    cases h
    have := bitCount_dcCalls h1
    simp only [bitCount_append]; omega
  · cases h

end Sys2Proof.Machine
end

