-- ==== Sys2Proof/Laws/Gate.lean ====
section
/-! SUPPORT. The laws of the common front end: everything it can do, and that every command is the front end before its own
rule (R200). -/

namespace Sys2Proof.Machine

/-! ### The front end of a command -/

/-- Step 1 of R200. -/
theorem gate_destroyed {o : Op} {x : Bool} {s : State} {run : State → Result} (h : s.lifecycle = .destroyed) :
    gate o x s run = .next (answerDestroyed s) := by simp [gate, h]

/-- Step 4 of R200 for a `BLOCK` of an image in flight (R233). -/
theorem gate_transfer_discard {s : State} {run : State → Result} (h : s.lifecycle = .encoding) :
    gate .block true s run = .next (failDiscard .block .eTransfer s) := by simp [gate, h]

/-- Step 4 of R200 for every other command (R233). -/
theorem gate_transfer {o : Op} {s : State} {run : State → Result} (h : s.lifecycle ≠ .destroyed)
    (hb : ¬(o = .block ∧ s.lifecycle = .encoding)) : gate o true s run = .next (fail o .eTransfer s) := by
  simp only [gate, if_neg h, if_true, if_neg hb]

/-- Step 5 of R200. -/
theorem gate_state {o : Op} {s : State} {run : State → Result} (h : s.lifecycle ≠ .destroyed) (hl : legal o s = false) :
    gate o false s run = .next (fail o .eState s) := by
  simp [gate, h, hl]

theorem not_destroyed_of_legal {o : Op} {s : State} (h : legal o s = true) : s.lifecycle ≠ .destroyed := by
  cases o <;> simp_all [legal]

/-- Step 6 of R200. -/
theorem gate_run {o : Op} {s : State} {run : State → Result} (h : legal o s = true) : gate o false s run = run s := by
  simp [gate, h, not_destroyed_of_legal h]

/-- Everything the front end can do. -/
theorem gate_cases (o : Op) (x : Bool) (s : State) (run : State → Result) :
    (s.lifecycle = .destroyed ∧ gate o x s run = .next (answerDestroyed s)) ∨
    (s.lifecycle ≠ .destroyed ∧ x = true ∧ o = .block ∧ s.lifecycle = .encoding ∧
      gate o x s run = .next (failDiscard o .eTransfer s)) ∨
    (s.lifecycle ≠ .destroyed ∧ x = true ∧ ¬(o = .block ∧ s.lifecycle = .encoding) ∧
      gate o x s run = .next (fail o .eTransfer s)) ∨
    (s.lifecycle ≠ .destroyed ∧ x = false ∧ legal o s = false ∧ gate o x s run = .next (fail o .eState s)) ∨
    (legal o s = true ∧ x = false ∧ gate o x s run = run s) := by
  by_cases hd : s.lifecycle = .destroyed
  · exact .inl ⟨hd, gate_destroyed hd⟩
  right
  cases x with
  | true =>
    by_cases hb : o = .block ∧ s.lifecycle = .encoding
    · obtain ⟨rfl, he⟩ := hb
      exact .inl ⟨hd, rfl, rfl, he, gate_transfer_discard he⟩
    · exact .inr (.inl ⟨hd, rfl, hb, gate_transfer hd hb⟩)
  | false =>
    right; right
    cases hl : legal o s with
    | false => exact .inl ⟨hd, rfl, rfl, gate_state hd hl⟩
    | true => exact .inr ⟨rfl, rfl, gate_run hl⟩

/-! ### Every command -/

/-- A command's own rule: what step 6 of R200 runs. -/
def ownRule : Instr → State → Result
  | .wrcfg _ reg value => ruleWrcfg reg value.w
  | .rdreg _ reg => ruleRdreg reg
  | .create _ => ruleCreate
  | .beginImage _ => ruleBegin
  | .block _ payload => ruleBlock payload
  | .endImage _ => ruleEnd
  | .destroy _ => ruleDestroy
  | .rdout _ addr => ruleRdout addr.w

/-- Every command is the common front end before its own rule; the transfer-error bits of all its words count (R71, R200). -/
theorem exec_eq_gate (i : Instr) (s : State) : exec i s = gate i.op (anyXerr (encode i)) s (ownRule i) := by
  cases i <;> simp [exec, execWrcfg, execRdreg, execCreate, execBegin, execBlock, execEnd, execDestroy, execRdout, Instr.op,
    anyXerr, encode, ownRule]

end Sys2Proof.Machine
end

