-- ==== Sys2Proof/Laws/State.lean ====
section
/-! SUPPORT. One lemma for each field of the state and each named update of it, so that no proof unfolds an update. -/

namespace Sys2Proof.Machine

/-! ### `respond` -/

@[simp] theorem respond_lifecycle (c : Code) (d : Word) (s : State) : (respond c d s).lifecycle = s.lifecycle := rfl
@[simp] theorem respond_cfg (c : Code) (d : Word) (s : State) : (respond c d s).cfg = s.cfg := rfl
@[simp] theorem respond_lastErr (c : Code) (d : Word) (s : State) : (respond c d s).lastErr = s.lastErr := rfl
@[simp] theorem respond_outValid (c : Code) (d : Word) (s : State) : (respond c d s).outValid = s.outValid := rfl
@[simp] theorem respond_bw (c : Code) (d : Word) (s : State) : (respond c d s).bw = s.bw := rfl
@[simp] theorem respond_blkDone (c : Code) (d : Word) (s : State) : (respond c d s).blkDone = s.blkDone := rfl
@[simp] theorem respond_blkTotal (c : Code) (d : Word) (s : State) : (respond c d s).blkTotal = s.blkTotal := rfl
@[simp] theorem respond_blkPerMcu (c : Code) (d : Word) (s : State) : (respond c d s).blkPerMcu = s.blkPerMcu := rfl
@[simp] theorem respond_qt0 (c : Code) (d : Word) (s : State) : (respond c d s).qt0 = s.qt0 := rfl
@[simp] theorem respond_qt1 (c : Code) (d : Word) (s : State) : (respond c d s).qt1 = s.qt1 := rfl
@[simp] theorem respond_pred (c : Code) (d : Word) (s : State) : (respond c d s).pred = s.pred := rfl
@[simp] theorem respond_sb (c : Code) (d : Word) (s : State) : (respond c d s).sb = s.sb := rfl
@[simp] theorem respond_tb (c : Code) (d : Word) (s : State) : (respond c d s).tb = s.tb := rfl
@[simp] theorem respond_cb (c : Code) (d : Word) (s : State) : (respond c d s).cb = s.cb := rfl
@[simp] theorem respond_qb (c : Code) (d : Word) (s : State) : (respond c d s).qb = s.qb := rfl
@[simp] theorem respond_zb (c : Code) (d : Word) (s : State) : (respond c d s).zb = s.zb := rfl
@[simp] theorem respond_outCap (c : Code) (d : Word) (s : State) : (respond c d s).outCap = s.outCap := rfl
@[simp] theorem respond_cmdPort (c : Code) (d : Word) (s : State) : (respond c d s).cmdPort = s.cmdPort := rfl
@[simp] theorem respond_respPort (c : Code) (d : Word) (s : State) : (respond c d s).respPort = s.respPort ++ [⟨c, d⟩] := rfl
@[simp] theorem respond_resetIn (c : Code) (d : Word) (s : State) : (respond c d s).resetIn = s.resetIn := rfl

/-! ### `setLastErr` -/

@[simp] theorem setLastErr_lifecycle (c : Code) (s : State) : (setLastErr c s).lifecycle = s.lifecycle := rfl
@[simp] theorem setLastErr_cfg (c : Code) (s : State) : (setLastErr c s).cfg = s.cfg := rfl
@[simp] theorem setLastErr_lastErr (c : Code) (s : State) : (setLastErr c s).lastErr = c := rfl
@[simp] theorem setLastErr_outValid (c : Code) (s : State) : (setLastErr c s).outValid = s.outValid := rfl
@[simp] theorem setLastErr_bw (c : Code) (s : State) : (setLastErr c s).bw = s.bw := rfl
@[simp] theorem setLastErr_blkDone (c : Code) (s : State) : (setLastErr c s).blkDone = s.blkDone := rfl
@[simp] theorem setLastErr_blkTotal (c : Code) (s : State) : (setLastErr c s).blkTotal = s.blkTotal := rfl
@[simp] theorem setLastErr_blkPerMcu (c : Code) (s : State) : (setLastErr c s).blkPerMcu = s.blkPerMcu := rfl
@[simp] theorem setLastErr_qt0 (c : Code) (s : State) : (setLastErr c s).qt0 = s.qt0 := rfl
@[simp] theorem setLastErr_qt1 (c : Code) (s : State) : (setLastErr c s).qt1 = s.qt1 := rfl
@[simp] theorem setLastErr_pred (c : Code) (s : State) : (setLastErr c s).pred = s.pred := rfl
@[simp] theorem setLastErr_sb (c : Code) (s : State) : (setLastErr c s).sb = s.sb := rfl
@[simp] theorem setLastErr_tb (c : Code) (s : State) : (setLastErr c s).tb = s.tb := rfl
@[simp] theorem setLastErr_cb (c : Code) (s : State) : (setLastErr c s).cb = s.cb := rfl
@[simp] theorem setLastErr_qb (c : Code) (s : State) : (setLastErr c s).qb = s.qb := rfl
@[simp] theorem setLastErr_zb (c : Code) (s : State) : (setLastErr c s).zb = s.zb := rfl
@[simp] theorem setLastErr_outCap (c : Code) (s : State) : (setLastErr c s).outCap = s.outCap := rfl
@[simp] theorem setLastErr_cmdPort (c : Code) (s : State) : (setLastErr c s).cmdPort = s.cmdPort := rfl
@[simp] theorem setLastErr_respPort (c : Code) (s : State) : (setLastErr c s).respPort = s.respPort := rfl
@[simp] theorem setLastErr_resetIn (c : Code) (s : State) : (setLastErr c s).resetIn = s.resetIn := rfl

/-! ### `discard` -/

@[simp] theorem discard_lifecycle (s : State) : (discard s).lifecycle = .created := rfl
@[simp] theorem discard_cfg (s : State) : (discard s).cfg = s.cfg := rfl
@[simp] theorem discard_lastErr (s : State) : (discard s).lastErr = s.lastErr := rfl
@[simp] theorem discard_outValid (s : State) : (discard s).outValid = false := rfl
@[simp] theorem discard_bw (s : State) : (discard s).bw = { s.bw with out := [] } := rfl
@[simp] theorem discard_blkDone (s : State) : (discard s).blkDone = 0 := rfl
@[simp] theorem discard_blkTotal (s : State) : (discard s).blkTotal = s.blkTotal := rfl
@[simp] theorem discard_blkPerMcu (s : State) : (discard s).blkPerMcu = s.blkPerMcu := rfl
@[simp] theorem discard_qt0 (s : State) : (discard s).qt0 = s.qt0 := rfl
@[simp] theorem discard_qt1 (s : State) : (discard s).qt1 = s.qt1 := rfl
@[simp] theorem discard_pred (s : State) : (discard s).pred = s.pred := rfl
@[simp] theorem discard_sb (s : State) : (discard s).sb = s.sb := rfl
@[simp] theorem discard_tb (s : State) : (discard s).tb = s.tb := rfl
@[simp] theorem discard_cb (s : State) : (discard s).cb = s.cb := rfl
@[simp] theorem discard_qb (s : State) : (discard s).qb = s.qb := rfl
@[simp] theorem discard_zb (s : State) : (discard s).zb = s.zb := rfl
@[simp] theorem discard_outCap (s : State) : (discard s).outCap = s.outCap := rfl
@[simp] theorem discard_cmdPort (s : State) : (discard s).cmdPort = s.cmdPort := rfl
@[simp] theorem discard_respPort (s : State) : (discard s).respPort = s.respPort := rfl
@[simp] theorem discard_resetIn (s : State) : (discard s).resetIn = s.resetIn := rfl

/-! ### `createContext` -/

@[simp] theorem createContext_lifecycle (s : State) : (createContext s).lifecycle = .created := by simp only [createContext]
@[simp] theorem createContext_cfg (s : State) : (createContext s).cfg = s.cfg := by simp only [createContext]
@[simp] theorem createContext_lastErr (s : State) : (createContext s).lastErr = s.lastErr := by simp only [createContext]
@[simp] theorem createContext_outValid (s : State) : (createContext s).outValid = s.outValid := by simp only [createContext]
@[simp] theorem createContext_bw (s : State) : (createContext s).bw = s.bw := by simp only [createContext]
@[simp] theorem createContext_blkDone (s : State) : (createContext s).blkDone = 0 := by simp only [createContext]
@[simp] theorem createContext_blkTotal (s : State) : (createContext s).blkTotal = BitVec.ofNat 32 (totalBlocks s.cfg) := by simp only [createContext]
@[simp] theorem createContext_blkPerMcu (s : State) : (createContext s).blkPerMcu = BitVec.ofNat 4 (blocksPerMcu s.cfg) := by simp only [createContext]
@[simp] theorem createContext_qt0 (s : State) : (createContext s).qt0 = buildTable s.cfg.quality.toNat .lum := by simp only [createContext]
@[simp] theorem createContext_qt1 (s : State) : (createContext s).qt1 = buildTable s.cfg.quality.toNat .chrom := by simp only [createContext]
@[simp] theorem createContext_pred (s : State) : (createContext s).pred = s.pred := by simp only [createContext]
@[simp] theorem createContext_sb (s : State) : (createContext s).sb = s.sb := by simp only [createContext]
@[simp] theorem createContext_tb (s : State) : (createContext s).tb = s.tb := by simp only [createContext]
@[simp] theorem createContext_cb (s : State) : (createContext s).cb = s.cb := by simp only [createContext]
@[simp] theorem createContext_qb (s : State) : (createContext s).qb = s.qb := by simp only [createContext]
@[simp] theorem createContext_zb (s : State) : (createContext s).zb = s.zb := by simp only [createContext]
@[simp] theorem createContext_outCap (s : State) : (createContext s).outCap = s.outCap := by simp only [createContext]
@[simp] theorem createContext_cmdPort (s : State) : (createContext s).cmdPort = s.cmdPort := by simp only [createContext]
@[simp] theorem createContext_respPort (s : State) : (createContext s).respPort = s.respPort := by simp only [createContext]
@[simp] theorem createContext_resetIn (s : State) : (createContext s).resetIn = s.resetIn := by simp only [createContext]

/-! ### `destroyContext` -/

@[simp] theorem destroyContext_lifecycle (s : State) : (destroyContext s).lifecycle = .destroyed := rfl
@[simp] theorem destroyContext_cfg (s : State) : (destroyContext s).cfg = s.cfg := rfl
@[simp] theorem destroyContext_lastErr (s : State) : (destroyContext s).lastErr = s.lastErr := rfl
@[simp] theorem destroyContext_outValid (s : State) : (destroyContext s).outValid = false := rfl
@[simp] theorem destroyContext_bw (s : State) : (destroyContext s).bw = { s.bw with out := [] } := rfl
@[simp] theorem destroyContext_blkDone (s : State) : (destroyContext s).blkDone = s.blkDone := rfl
@[simp] theorem destroyContext_blkTotal (s : State) : (destroyContext s).blkTotal = s.blkTotal := rfl
@[simp] theorem destroyContext_blkPerMcu (s : State) : (destroyContext s).blkPerMcu = s.blkPerMcu := rfl
@[simp] theorem destroyContext_qt0 (s : State) : (destroyContext s).qt0 = s.qt0 := rfl
@[simp] theorem destroyContext_qt1 (s : State) : (destroyContext s).qt1 = s.qt1 := rfl
@[simp] theorem destroyContext_pred (s : State) : (destroyContext s).pred = s.pred := rfl
@[simp] theorem destroyContext_sb (s : State) : (destroyContext s).sb = s.sb := rfl
@[simp] theorem destroyContext_tb (s : State) : (destroyContext s).tb = s.tb := rfl
@[simp] theorem destroyContext_cb (s : State) : (destroyContext s).cb = s.cb := rfl
@[simp] theorem destroyContext_qb (s : State) : (destroyContext s).qb = s.qb := rfl
@[simp] theorem destroyContext_zb (s : State) : (destroyContext s).zb = s.zb := rfl
@[simp] theorem destroyContext_outCap (s : State) : (destroyContext s).outCap = s.outCap := rfl
@[simp] theorem destroyContext_cmdPort (s : State) : (destroyContext s).cmdPort = s.cmdPort := rfl
@[simp] theorem destroyContext_respPort (s : State) : (destroyContext s).respPort = s.respPort := rfl
@[simp] theorem destroyContext_resetIn (s : State) : (destroyContext s).resetIn = s.resetIn := rfl

/-! ### `beginWith` -/

@[simp] theorem beginWith_lifecycle (w : Writer) (s : State) : (beginWith w s).lifecycle = .encoding := rfl
@[simp] theorem beginWith_cfg (w : Writer) (s : State) : (beginWith w s).cfg = s.cfg := rfl
@[simp] theorem beginWith_lastErr (w : Writer) (s : State) : (beginWith w s).lastErr = s.lastErr := rfl
@[simp] theorem beginWith_outValid (w : Writer) (s : State) : (beginWith w s).outValid = false := rfl
@[simp] theorem beginWith_bw (w : Writer) (s : State) : (beginWith w s).bw = w := rfl
@[simp] theorem beginWith_blkDone (w : Writer) (s : State) : (beginWith w s).blkDone = 0 := rfl
@[simp] theorem beginWith_blkTotal (w : Writer) (s : State) : (beginWith w s).blkTotal = s.blkTotal := rfl
@[simp] theorem beginWith_blkPerMcu (w : Writer) (s : State) : (beginWith w s).blkPerMcu = s.blkPerMcu := rfl
@[simp] theorem beginWith_qt0 (w : Writer) (s : State) : (beginWith w s).qt0 = s.qt0 := rfl
@[simp] theorem beginWith_qt1 (w : Writer) (s : State) : (beginWith w s).qt1 = s.qt1 := rfl
@[simp] theorem beginWith_pred (w : Writer) (s : State) : (beginWith w s).pred = vec 3 0 := rfl
@[simp] theorem beginWith_sb (w : Writer) (s : State) : (beginWith w s).sb = s.sb := rfl
@[simp] theorem beginWith_tb (w : Writer) (s : State) : (beginWith w s).tb = s.tb := rfl
@[simp] theorem beginWith_cb (w : Writer) (s : State) : (beginWith w s).cb = s.cb := rfl
@[simp] theorem beginWith_qb (w : Writer) (s : State) : (beginWith w s).qb = s.qb := rfl
@[simp] theorem beginWith_zb (w : Writer) (s : State) : (beginWith w s).zb = s.zb := rfl
@[simp] theorem beginWith_outCap (w : Writer) (s : State) : (beginWith w s).outCap = s.outCap := rfl
@[simp] theorem beginWith_cmdPort (w : Writer) (s : State) : (beginWith w s).cmdPort = s.cmdPort := rfl
@[simp] theorem beginWith_respPort (w : Writer) (s : State) : (beginWith w s).respPort = s.respPort := rfl
@[simp] theorem beginWith_resetIn (w : Writer) (s : State) : (beginWith w s).resetIn = s.resetIn := rfl

/-! ### `loadSamples` -/

@[simp] theorem loadSamples_lifecycle (p : Vector CmdWord 16) (s : State) : (loadSamples p s).lifecycle = s.lifecycle := by simp only [loadSamples]
@[simp] theorem loadSamples_cfg (p : Vector CmdWord 16) (s : State) : (loadSamples p s).cfg = s.cfg := by simp only [loadSamples]
@[simp] theorem loadSamples_lastErr (p : Vector CmdWord 16) (s : State) : (loadSamples p s).lastErr = s.lastErr := by simp only [loadSamples]
@[simp] theorem loadSamples_outValid (p : Vector CmdWord 16) (s : State) : (loadSamples p s).outValid = s.outValid := by simp only [loadSamples]
@[simp] theorem loadSamples_bw (p : Vector CmdWord 16) (s : State) : (loadSamples p s).bw = s.bw := by simp only [loadSamples]
@[simp] theorem loadSamples_blkDone (p : Vector CmdWord 16) (s : State) : (loadSamples p s).blkDone = s.blkDone := by simp only [loadSamples]
@[simp] theorem loadSamples_blkTotal (p : Vector CmdWord 16) (s : State) : (loadSamples p s).blkTotal = s.blkTotal := by simp only [loadSamples]
@[simp] theorem loadSamples_blkPerMcu (p : Vector CmdWord 16) (s : State) : (loadSamples p s).blkPerMcu = s.blkPerMcu := by simp only [loadSamples]
@[simp] theorem loadSamples_qt0 (p : Vector CmdWord 16) (s : State) : (loadSamples p s).qt0 = s.qt0 := by simp only [loadSamples]
@[simp] theorem loadSamples_qt1 (p : Vector CmdWord 16) (s : State) : (loadSamples p s).qt1 = s.qt1 := by simp only [loadSamples]
@[simp] theorem loadSamples_pred (p : Vector CmdWord 16) (s : State) : (loadSamples p s).pred = s.pred := by simp only [loadSamples]
@[simp] theorem loadSamples_sb (p : Vector CmdWord 16) (s : State) : (loadSamples p s).sb = samplesOf p := by simp only [loadSamples]
@[simp] theorem loadSamples_tb (p : Vector CmdWord 16) (s : State) : (loadSamples p s).tb = s.tb := by simp only [loadSamples]
@[simp] theorem loadSamples_cb (p : Vector CmdWord 16) (s : State) : (loadSamples p s).cb = s.cb := by simp only [loadSamples]
@[simp] theorem loadSamples_qb (p : Vector CmdWord 16) (s : State) : (loadSamples p s).qb = s.qb := by simp only [loadSamples]
@[simp] theorem loadSamples_zb (p : Vector CmdWord 16) (s : State) : (loadSamples p s).zb = s.zb := by simp only [loadSamples]
@[simp] theorem loadSamples_outCap (p : Vector CmdWord 16) (s : State) : (loadSamples p s).outCap = s.outCap := by simp only [loadSamples]
@[simp] theorem loadSamples_cmdPort (p : Vector CmdWord 16) (s : State) : (loadSamples p s).cmdPort = s.cmdPort := by simp only [loadSamples]
@[simp] theorem loadSamples_respPort (p : Vector CmdWord 16) (s : State) : (loadSamples p s).respPort = s.respPort := by simp only [loadSamples]
@[simp] theorem loadSamples_resetIn (p : Vector CmdWord 16) (s : State) : (loadSamples p s).resetIn = s.resetIn := by simp only [loadSamples]

/-! ### `runTransform` -/

@[simp] theorem runTransform_lifecycle (s : State) : (runTransform s).lifecycle = s.lifecycle := by simp only [runTransform]
@[simp] theorem runTransform_cfg (s : State) : (runTransform s).cfg = s.cfg := by simp only [runTransform]
@[simp] theorem runTransform_lastErr (s : State) : (runTransform s).lastErr = s.lastErr := by simp only [runTransform]
@[simp] theorem runTransform_outValid (s : State) : (runTransform s).outValid = s.outValid := by simp only [runTransform]
@[simp] theorem runTransform_bw (s : State) : (runTransform s).bw = s.bw := by simp only [runTransform]
@[simp] theorem runTransform_blkDone (s : State) : (runTransform s).blkDone = s.blkDone := by simp only [runTransform]
@[simp] theorem runTransform_blkTotal (s : State) : (runTransform s).blkTotal = s.blkTotal := by simp only [runTransform]
@[simp] theorem runTransform_blkPerMcu (s : State) : (runTransform s).blkPerMcu = s.blkPerMcu := by simp only [runTransform]
@[simp] theorem runTransform_qt0 (s : State) : (runTransform s).qt0 = s.qt0 := by simp only [runTransform]
@[simp] theorem runTransform_qt1 (s : State) : (runTransform s).qt1 = s.qt1 := by simp only [runTransform]
@[simp] theorem runTransform_pred (s : State) : (runTransform s).pred = s.pred := by simp only [runTransform]
@[simp] theorem runTransform_sb (s : State) : (runTransform s).sb = s.sb := by simp only [runTransform]
@[simp] theorem runTransform_tb (s : State) : (runTransform s).tb = rowPass s.sb := by simp only [runTransform]
@[simp] theorem runTransform_cb (s : State) : (runTransform s).cb = colPass s.sb (rowPass s.sb) := by simp only [runTransform]
@[simp] theorem runTransform_qb (s : State) : (runTransform s).qb = s.qb := by simp only [runTransform]
@[simp] theorem runTransform_zb (s : State) : (runTransform s).zb = s.zb := by simp only [runTransform]
@[simp] theorem runTransform_outCap (s : State) : (runTransform s).outCap = s.outCap := by simp only [runTransform]
@[simp] theorem runTransform_cmdPort (s : State) : (runTransform s).cmdPort = s.cmdPort := by simp only [runTransform]
@[simp] theorem runTransform_respPort (s : State) : (runTransform s).respPort = s.respPort := by simp only [runTransform]
@[simp] theorem runTransform_resetIn (s : State) : (runTransform s).resetIn = s.resetIn := by simp only [runTransform]

@[simp] theorem runTransform_qtOf (r : Role) (s : State) : qtOf (runTransform s) r = qtOf s r := by
  cases r <;> simp only [qtOf, runTransform]
@[simp] theorem loadSamples_qtOf (p : Vector CmdWord 16) (r : Role) (s : State) : qtOf (loadSamples p s) r = qtOf s r := by
  cases r <;> simp only [qtOf, loadSamples]

/-! ### `runQuantizer` -/

@[simp] theorem runQuantizer_lifecycle (r : Role) (s : State) : (runQuantizer r s).lifecycle = s.lifecycle := by simp only [runQuantizer]
@[simp] theorem runQuantizer_cfg (r : Role) (s : State) : (runQuantizer r s).cfg = s.cfg := by simp only [runQuantizer]
@[simp] theorem runQuantizer_lastErr (r : Role) (s : State) : (runQuantizer r s).lastErr = s.lastErr := by simp only [runQuantizer]
@[simp] theorem runQuantizer_outValid (r : Role) (s : State) : (runQuantizer r s).outValid = s.outValid := by simp only [runQuantizer]
@[simp] theorem runQuantizer_bw (r : Role) (s : State) : (runQuantizer r s).bw = s.bw := by simp only [runQuantizer]
@[simp] theorem runQuantizer_blkDone (r : Role) (s : State) : (runQuantizer r s).blkDone = s.blkDone := by simp only [runQuantizer]
@[simp] theorem runQuantizer_blkTotal (r : Role) (s : State) : (runQuantizer r s).blkTotal = s.blkTotal := by simp only [runQuantizer]
@[simp] theorem runQuantizer_blkPerMcu (r : Role) (s : State) : (runQuantizer r s).blkPerMcu = s.blkPerMcu := by simp only [runQuantizer]
@[simp] theorem runQuantizer_qt0 (r : Role) (s : State) : (runQuantizer r s).qt0 = s.qt0 := by simp only [runQuantizer]
@[simp] theorem runQuantizer_qt1 (r : Role) (s : State) : (runQuantizer r s).qt1 = s.qt1 := by simp only [runQuantizer]
@[simp] theorem runQuantizer_pred (r : Role) (s : State) : (runQuantizer r s).pred = s.pred := by simp only [runQuantizer]
@[simp] theorem runQuantizer_sb (r : Role) (s : State) : (runQuantizer r s).sb = s.sb := by simp only [runQuantizer]
@[simp] theorem runQuantizer_tb (r : Role) (s : State) : (runQuantizer r s).tb = s.tb := by simp only [runQuantizer]
@[simp] theorem runQuantizer_cb (r : Role) (s : State) : (runQuantizer r s).cb = s.cb := by simp only [runQuantizer]
@[simp] theorem runQuantizer_qb (r : Role) (s : State) : (runQuantizer r s).qb = quantize (qtOf s r) s.cb := by simp only [runQuantizer]
@[simp] theorem runQuantizer_zb (r : Role) (s : State) : (runQuantizer r s).zb = reorder (quantize (qtOf s r) s.cb) := by simp only [runQuantizer]
@[simp] theorem runQuantizer_outCap (r : Role) (s : State) : (runQuantizer r s).outCap = s.outCap := by simp only [runQuantizer]
@[simp] theorem runQuantizer_cmdPort (r : Role) (s : State) : (runQuantizer r s).cmdPort = s.cmdPort := by simp only [runQuantizer]
@[simp] theorem runQuantizer_respPort (r : Role) (s : State) : (runQuantizer r s).respPort = s.respPort := by simp only [runQuantizer]
@[simp] theorem runQuantizer_resetIn (r : Role) (s : State) : (runQuantizer r s).resetIn = s.resetIn := by simp only [runQuantizer]

/-! ### `runStages` -/

@[simp] theorem runStages_lifecycle (p : Vector CmdWord 16) (r : Role) (s : State) : (runStages p r s).lifecycle = s.lifecycle := by simp [runStages]
@[simp] theorem runStages_cfg (p : Vector CmdWord 16) (r : Role) (s : State) : (runStages p r s).cfg = s.cfg := by simp [runStages]
@[simp] theorem runStages_lastErr (p : Vector CmdWord 16) (r : Role) (s : State) : (runStages p r s).lastErr = s.lastErr := by simp [runStages]
@[simp] theorem runStages_outValid (p : Vector CmdWord 16) (r : Role) (s : State) : (runStages p r s).outValid = s.outValid := by simp [runStages]
@[simp] theorem runStages_bw (p : Vector CmdWord 16) (r : Role) (s : State) : (runStages p r s).bw = s.bw := by simp [runStages]
@[simp] theorem runStages_blkDone (p : Vector CmdWord 16) (r : Role) (s : State) : (runStages p r s).blkDone = s.blkDone := by simp [runStages]
@[simp] theorem runStages_blkTotal (p : Vector CmdWord 16) (r : Role) (s : State) : (runStages p r s).blkTotal = s.blkTotal := by simp [runStages]
@[simp] theorem runStages_blkPerMcu (p : Vector CmdWord 16) (r : Role) (s : State) : (runStages p r s).blkPerMcu = s.blkPerMcu := by simp [runStages]
@[simp] theorem runStages_qt0 (p : Vector CmdWord 16) (r : Role) (s : State) : (runStages p r s).qt0 = s.qt0 := by simp [runStages]
@[simp] theorem runStages_qt1 (p : Vector CmdWord 16) (r : Role) (s : State) : (runStages p r s).qt1 = s.qt1 := by simp [runStages]
@[simp] theorem runStages_pred (p : Vector CmdWord 16) (r : Role) (s : State) : (runStages p r s).pred = s.pred := by simp [runStages]
@[simp] theorem runStages_sb (p : Vector CmdWord 16) (r : Role) (s : State) : (runStages p r s).sb = samplesOf p := by simp [runStages]
@[simp] theorem runStages_tb (p : Vector CmdWord 16) (r : Role) (s : State) : (runStages p r s).tb = rowPass (samplesOf p) := by simp [runStages]
@[simp] theorem runStages_cb (p : Vector CmdWord 16) (r : Role) (s : State) : (runStages p r s).cb = colPass (samplesOf p) (rowPass (samplesOf p)) := by simp [runStages]
@[simp] theorem runStages_qb (p : Vector CmdWord 16) (r : Role) (s : State) : (runStages p r s).qb = quantize (qtOf s r) (colPass (samplesOf p) (rowPass (samplesOf p))) := by simp [runStages]
@[simp] theorem runStages_zb (p : Vector CmdWord 16) (r : Role) (s : State) : (runStages p r s).zb = reorder (quantize (qtOf s r) (colPass (samplesOf p) (rowPass (samplesOf p)))) := by simp [runStages]
@[simp] theorem runStages_outCap (p : Vector CmdWord 16) (r : Role) (s : State) : (runStages p r s).outCap = s.outCap := by simp [runStages]
@[simp] theorem runStages_cmdPort (p : Vector CmdWord 16) (r : Role) (s : State) : (runStages p r s).cmdPort = s.cmdPort := by simp [runStages]
@[simp] theorem runStages_respPort (p : Vector CmdWord 16) (r : Role) (s : State) : (runStages p r s).respPort = s.respPort := by simp [runStages]
@[simp] theorem runStages_resetIn (p : Vector CmdWord 16) (r : Role) (s : State) : (runStages p r s).resetIn = s.resetIn := by simp [runStages]

/-! ### `blockWith` -/

@[simp] theorem blockWith_lifecycle (c : Fin 3) (w : Writer) (s : State) : (blockWith c w s).lifecycle = s.lifecycle := by simp only [blockWith]
@[simp] theorem blockWith_cfg (c : Fin 3) (w : Writer) (s : State) : (blockWith c w s).cfg = s.cfg := by simp only [blockWith]
@[simp] theorem blockWith_lastErr (c : Fin 3) (w : Writer) (s : State) : (blockWith c w s).lastErr = s.lastErr := by simp only [blockWith]
@[simp] theorem blockWith_outValid (c : Fin 3) (w : Writer) (s : State) : (blockWith c w s).outValid = s.outValid := by simp only [blockWith]
@[simp] theorem blockWith_bw (c : Fin 3) (w : Writer) (s : State) : (blockWith c w s).bw = w := by simp only [blockWith]
@[simp] theorem blockWith_blkDone (c : Fin 3) (w : Writer) (s : State) : (blockWith c w s).blkDone = s.blkDone + 1 := by simp only [blockWith]
@[simp] theorem blockWith_blkTotal (c : Fin 3) (w : Writer) (s : State) : (blockWith c w s).blkTotal = s.blkTotal := by simp only [blockWith]
@[simp] theorem blockWith_blkPerMcu (c : Fin 3) (w : Writer) (s : State) : (blockWith c w s).blkPerMcu = s.blkPerMcu := by simp only [blockWith]
@[simp] theorem blockWith_qt0 (c : Fin 3) (w : Writer) (s : State) : (blockWith c w s).qt0 = s.qt0 := by simp only [blockWith]
@[simp] theorem blockWith_qt1 (c : Fin 3) (w : Writer) (s : State) : (blockWith c w s).qt1 = s.qt1 := by simp only [blockWith]
@[simp] theorem blockWith_pred (c : Fin 3) (w : Writer) (s : State) : (blockWith c w s).pred = s.pred.set c s.zb[0] := by simp only [blockWith]
@[simp] theorem blockWith_sb (c : Fin 3) (w : Writer) (s : State) : (blockWith c w s).sb = s.sb := by simp only [blockWith]
@[simp] theorem blockWith_tb (c : Fin 3) (w : Writer) (s : State) : (blockWith c w s).tb = s.tb := by simp only [blockWith]
@[simp] theorem blockWith_cb (c : Fin 3) (w : Writer) (s : State) : (blockWith c w s).cb = s.cb := by simp only [blockWith]
@[simp] theorem blockWith_qb (c : Fin 3) (w : Writer) (s : State) : (blockWith c w s).qb = s.qb := by simp only [blockWith]
@[simp] theorem blockWith_zb (c : Fin 3) (w : Writer) (s : State) : (blockWith c w s).zb = s.zb := by simp only [blockWith]
@[simp] theorem blockWith_outCap (c : Fin 3) (w : Writer) (s : State) : (blockWith c w s).outCap = s.outCap := by simp only [blockWith]
@[simp] theorem blockWith_cmdPort (c : Fin 3) (w : Writer) (s : State) : (blockWith c w s).cmdPort = s.cmdPort := by simp only [blockWith]
@[simp] theorem blockWith_respPort (c : Fin 3) (w : Writer) (s : State) : (blockWith c w s).respPort = s.respPort := by simp only [blockWith]
@[simp] theorem blockWith_resetIn (c : Fin 3) (w : Writer) (s : State) : (blockWith c w s).resetIn = s.resetIn := by simp only [blockWith]

/-! ### `endWith` -/

@[simp] theorem endWith_lifecycle (w : Writer) (s : State) : (endWith w s).lifecycle = .created := rfl
@[simp] theorem endWith_cfg (w : Writer) (s : State) : (endWith w s).cfg = s.cfg := rfl
@[simp] theorem endWith_lastErr (w : Writer) (s : State) : (endWith w s).lastErr = s.lastErr := rfl
@[simp] theorem endWith_outValid (w : Writer) (s : State) : (endWith w s).outValid = true := rfl
@[simp] theorem endWith_bw (w : Writer) (s : State) : (endWith w s).bw = w := rfl
@[simp] theorem endWith_blkDone (w : Writer) (s : State) : (endWith w s).blkDone = s.blkDone := rfl
@[simp] theorem endWith_blkTotal (w : Writer) (s : State) : (endWith w s).blkTotal = s.blkTotal := rfl
@[simp] theorem endWith_blkPerMcu (w : Writer) (s : State) : (endWith w s).blkPerMcu = s.blkPerMcu := rfl
@[simp] theorem endWith_qt0 (w : Writer) (s : State) : (endWith w s).qt0 = s.qt0 := rfl
@[simp] theorem endWith_qt1 (w : Writer) (s : State) : (endWith w s).qt1 = s.qt1 := rfl
@[simp] theorem endWith_pred (w : Writer) (s : State) : (endWith w s).pred = s.pred := rfl
@[simp] theorem endWith_sb (w : Writer) (s : State) : (endWith w s).sb = s.sb := rfl
@[simp] theorem endWith_tb (w : Writer) (s : State) : (endWith w s).tb = s.tb := rfl
@[simp] theorem endWith_cb (w : Writer) (s : State) : (endWith w s).cb = s.cb := rfl
@[simp] theorem endWith_qb (w : Writer) (s : State) : (endWith w s).qb = s.qb := rfl
@[simp] theorem endWith_zb (w : Writer) (s : State) : (endWith w s).zb = s.zb := rfl
@[simp] theorem endWith_outCap (w : Writer) (s : State) : (endWith w s).outCap = s.outCap := rfl
@[simp] theorem endWith_cmdPort (w : Writer) (s : State) : (endWith w s).cmdPort = s.cmdPort := rfl
@[simp] theorem endWith_respPort (w : Writer) (s : State) : (endWith w s).respPort = s.respPort := rfl
@[simp] theorem endWith_resetIn (w : Writer) (s : State) : (endWith w s).resetIn = s.resetIn := rfl

/-! ### `placeCommand` -/

@[simp] theorem placeCommand_lifecycle (ws : List CmdWord) (s : State) : (placeCommand ws s).lifecycle = s.lifecycle := rfl
@[simp] theorem placeCommand_cfg (ws : List CmdWord) (s : State) : (placeCommand ws s).cfg = s.cfg := rfl
@[simp] theorem placeCommand_lastErr (ws : List CmdWord) (s : State) : (placeCommand ws s).lastErr = s.lastErr := rfl
@[simp] theorem placeCommand_outValid (ws : List CmdWord) (s : State) : (placeCommand ws s).outValid = s.outValid := rfl
@[simp] theorem placeCommand_bw (ws : List CmdWord) (s : State) : (placeCommand ws s).bw = s.bw := rfl
@[simp] theorem placeCommand_blkDone (ws : List CmdWord) (s : State) : (placeCommand ws s).blkDone = s.blkDone := rfl
@[simp] theorem placeCommand_blkTotal (ws : List CmdWord) (s : State) : (placeCommand ws s).blkTotal = s.blkTotal := rfl
@[simp] theorem placeCommand_blkPerMcu (ws : List CmdWord) (s : State) : (placeCommand ws s).blkPerMcu = s.blkPerMcu := rfl
@[simp] theorem placeCommand_qt0 (ws : List CmdWord) (s : State) : (placeCommand ws s).qt0 = s.qt0 := rfl
@[simp] theorem placeCommand_qt1 (ws : List CmdWord) (s : State) : (placeCommand ws s).qt1 = s.qt1 := rfl
@[simp] theorem placeCommand_pred (ws : List CmdWord) (s : State) : (placeCommand ws s).pred = s.pred := rfl
@[simp] theorem placeCommand_sb (ws : List CmdWord) (s : State) : (placeCommand ws s).sb = s.sb := rfl
@[simp] theorem placeCommand_tb (ws : List CmdWord) (s : State) : (placeCommand ws s).tb = s.tb := rfl
@[simp] theorem placeCommand_cb (ws : List CmdWord) (s : State) : (placeCommand ws s).cb = s.cb := rfl
@[simp] theorem placeCommand_qb (ws : List CmdWord) (s : State) : (placeCommand ws s).qb = s.qb := rfl
@[simp] theorem placeCommand_zb (ws : List CmdWord) (s : State) : (placeCommand ws s).zb = s.zb := rfl
@[simp] theorem placeCommand_outCap (ws : List CmdWord) (s : State) : (placeCommand ws s).outCap = s.outCap := rfl
@[simp] theorem placeCommand_cmdPort (ws : List CmdWord) (s : State) : (placeCommand ws s).cmdPort = ws ++ s.cmdPort := rfl
@[simp] theorem placeCommand_respPort (ws : List CmdWord) (s : State) : (placeCommand ws s).respPort = s.respPort := rfl
@[simp] theorem placeCommand_resetIn (ws : List CmdWord) (s : State) : (placeCommand ws s).resetIn = false := rfl

/-! ### `succeed` -/

@[simp] theorem succeed_lifecycle (o : Op) (d : Word) (s : State) : (succeed o d s).lifecycle = s.lifecycle := by cases o <;> rfl
@[simp] theorem succeed_cfg (o : Op) (d : Word) (s : State) : (succeed o d s).cfg = s.cfg := by cases o <;> rfl
@[simp] theorem succeed_lastErr (o : Op) (d : Word) (s : State) : (succeed o d s).lastErr = if writesLastErr o then .ok else s.lastErr := by cases o <;> rfl
@[simp] theorem succeed_outValid (o : Op) (d : Word) (s : State) : (succeed o d s).outValid = s.outValid := by cases o <;> rfl
@[simp] theorem succeed_bw (o : Op) (d : Word) (s : State) : (succeed o d s).bw = s.bw := by cases o <;> rfl
@[simp] theorem succeed_blkDone (o : Op) (d : Word) (s : State) : (succeed o d s).blkDone = s.blkDone := by cases o <;> rfl
@[simp] theorem succeed_blkTotal (o : Op) (d : Word) (s : State) : (succeed o d s).blkTotal = s.blkTotal := by cases o <;> rfl
@[simp] theorem succeed_blkPerMcu (o : Op) (d : Word) (s : State) : (succeed o d s).blkPerMcu = s.blkPerMcu := by cases o <;> rfl
@[simp] theorem succeed_qt0 (o : Op) (d : Word) (s : State) : (succeed o d s).qt0 = s.qt0 := by cases o <;> rfl
@[simp] theorem succeed_qt1 (o : Op) (d : Word) (s : State) : (succeed o d s).qt1 = s.qt1 := by cases o <;> rfl
@[simp] theorem succeed_pred (o : Op) (d : Word) (s : State) : (succeed o d s).pred = s.pred := by cases o <;> rfl
@[simp] theorem succeed_sb (o : Op) (d : Word) (s : State) : (succeed o d s).sb = s.sb := by cases o <;> rfl
@[simp] theorem succeed_tb (o : Op) (d : Word) (s : State) : (succeed o d s).tb = s.tb := by cases o <;> rfl
@[simp] theorem succeed_cb (o : Op) (d : Word) (s : State) : (succeed o d s).cb = s.cb := by cases o <;> rfl
@[simp] theorem succeed_qb (o : Op) (d : Word) (s : State) : (succeed o d s).qb = s.qb := by cases o <;> rfl
@[simp] theorem succeed_zb (o : Op) (d : Word) (s : State) : (succeed o d s).zb = s.zb := by cases o <;> rfl
@[simp] theorem succeed_outCap (o : Op) (d : Word) (s : State) : (succeed o d s).outCap = s.outCap := by cases o <;> rfl
@[simp] theorem succeed_cmdPort (o : Op) (d : Word) (s : State) : (succeed o d s).cmdPort = s.cmdPort := by cases o <;> rfl
@[simp] theorem succeed_respPort (o : Op) (d : Word) (s : State) : (succeed o d s).respPort = s.respPort ++ [⟨.ok, d⟩] := by cases o <;> rfl
@[simp] theorem succeed_resetIn (o : Op) (d : Word) (s : State) : (succeed o d s).resetIn = s.resetIn := by cases o <;> rfl

/-! ### `fail` -/

@[simp] theorem fail_lifecycle (o : Op) (c : Code) (s : State) : (fail o c s).lifecycle = s.lifecycle := by cases o <;> rfl
@[simp] theorem fail_cfg (o : Op) (c : Code) (s : State) : (fail o c s).cfg = s.cfg := by cases o <;> rfl
@[simp] theorem fail_lastErr (o : Op) (c : Code) (s : State) : (fail o c s).lastErr = if writesLastErr o then c else s.lastErr := by cases o <;> rfl
@[simp] theorem fail_outValid (o : Op) (c : Code) (s : State) : (fail o c s).outValid = s.outValid := by cases o <;> rfl
@[simp] theorem fail_bw (o : Op) (c : Code) (s : State) : (fail o c s).bw = s.bw := by cases o <;> rfl
@[simp] theorem fail_blkDone (o : Op) (c : Code) (s : State) : (fail o c s).blkDone = s.blkDone := by cases o <;> rfl
@[simp] theorem fail_blkTotal (o : Op) (c : Code) (s : State) : (fail o c s).blkTotal = s.blkTotal := by cases o <;> rfl
@[simp] theorem fail_blkPerMcu (o : Op) (c : Code) (s : State) : (fail o c s).blkPerMcu = s.blkPerMcu := by cases o <;> rfl
@[simp] theorem fail_qt0 (o : Op) (c : Code) (s : State) : (fail o c s).qt0 = s.qt0 := by cases o <;> rfl
@[simp] theorem fail_qt1 (o : Op) (c : Code) (s : State) : (fail o c s).qt1 = s.qt1 := by cases o <;> rfl
@[simp] theorem fail_pred (o : Op) (c : Code) (s : State) : (fail o c s).pred = s.pred := by cases o <;> rfl
@[simp] theorem fail_sb (o : Op) (c : Code) (s : State) : (fail o c s).sb = s.sb := by cases o <;> rfl
@[simp] theorem fail_tb (o : Op) (c : Code) (s : State) : (fail o c s).tb = s.tb := by cases o <;> rfl
@[simp] theorem fail_cb (o : Op) (c : Code) (s : State) : (fail o c s).cb = s.cb := by cases o <;> rfl
@[simp] theorem fail_qb (o : Op) (c : Code) (s : State) : (fail o c s).qb = s.qb := by cases o <;> rfl
@[simp] theorem fail_zb (o : Op) (c : Code) (s : State) : (fail o c s).zb = s.zb := by cases o <;> rfl
@[simp] theorem fail_outCap (o : Op) (c : Code) (s : State) : (fail o c s).outCap = s.outCap := by cases o <;> rfl
@[simp] theorem fail_cmdPort (o : Op) (c : Code) (s : State) : (fail o c s).cmdPort = s.cmdPort := by cases o <;> rfl
@[simp] theorem fail_respPort (o : Op) (c : Code) (s : State) : (fail o c s).respPort = s.respPort ++ [⟨c, 0⟩] := by cases o <;> rfl
@[simp] theorem fail_resetIn (o : Op) (c : Code) (s : State) : (fail o c s).resetIn = s.resetIn := by cases o <;> rfl

/-! ### The compound answers, as the updates above -/

@[simp] theorem failDiscard_eq (o : Op) (c : Code) (s : State) : failDiscard o c s = fail o c (discard s) := rfl
@[simp] theorem raiseAlloc_eq (o : Op) (s : State) : raiseAlloc o s = fail o .eAlloc (discard s) := rfl
@[simp] theorem answerDestroyed_eq (s : State) : answerDestroyed s = respond .eDestroyed 0 s := rfl
@[simp] theorem hardReset_outCap (s : State) : (hardReset s).outCap = s.outCap := rfl
@[simp] theorem resetWith_outCap (cap : Word) : (State.resetWith cap).outCap = cap := rfl

/-! ### `statusWord`, `outLen` and `readReg` read only what a response does not touch -/

@[simp] theorem statusWord_respond (c : Code) (d : Word) (s : State) : statusWord (respond c d s) = statusWord s := rfl
@[simp] theorem outLen_respond (c : Code) (d : Word) (s : State) : outLen (respond c d s) = outLen s := rfl

end Sys2Proof.Machine
end

