-- ==== Sys2Proof/Laws/Rules.lean ====
section
/-! SUPPORT. One lemma for each command that says everything its own rule can do (R202 to R210). -/

namespace Sys2Proof.Machine

/-- Everything `WRCFG` can do. -/
theorem ruleWrcfg_cases (reg : Byte) (v : Word) (s : State) :
    (∃ cfg, writeCfg s.cfg reg v = some cfg ∧ ruleWrcfg reg v s = .next (succeed .wrcfg 0 { s with cfg := cfg })) ∨
    (writeCfg s.cfg reg v = none ∧ ruleWrcfg reg v s = .next (fail .wrcfg .eIllegal s)) := by
  unfold ruleWrcfg
  cases h : writeCfg s.cfg reg v with
  | none => exact .inr ⟨rfl, rfl⟩
  | some cfg => exact .inl ⟨cfg, rfl, rfl⟩

/-- Everything `RDREG` can do. -/
theorem ruleRdreg_cases (reg : Byte) (s : State) :
    (∃ v, readReg s reg = some v ∧ ruleRdreg reg s = .next (succeed .rdreg v s)) ∨
    (readReg s reg = none ∧ ruleRdreg reg s = .next (fail .rdreg .eIllegal s)) := by
  unfold ruleRdreg
  cases h : readReg s reg with
  | none => exact .inr ⟨rfl, rfl⟩
  | some v => exact .inl ⟨v, rfl, rfl⟩

/-- Everything `CREATE` can do. -/
theorem ruleCreate_cases (s : State) :
    (geometryOk s.cfg = true ∧ qualityOk s.cfg = true ∧
      ruleCreate s = .next (succeed .create (BitVec.ofNat 32 (totalBlocks s.cfg)) (createContext s))) ∨
    (geometryOk s.cfg = true ∧ qualityOk s.cfg = false ∧ ruleCreate s = .next (fail .create .eQuality s)) ∨
    (geometryOk s.cfg = false ∧ ruleCreate s = .next (fail .create .eGeometry s)) := by
  unfold ruleCreate
  cases geometryOk s.cfg <;> cases qualityOk s.cfg <;> simp

/-- Everything `BEGIN` can do. -/
theorem ruleBegin_cases (s : State) :
    (∃ w, writeHeaders s.outCap.toNat s.cfg s.qt0 s.qt1 resetWriter = some w ∧
      ruleBegin s = .next (succeed .beginImage (BitVec.ofNat 32 w.out.length) (beginWith w s))) ∨
    (writeHeaders s.outCap.toNat s.cfg s.qt0 s.qt1 resetWriter = none ∧
      ruleBegin s = .next (fail .beginImage .eAlloc (discard s))) := by
  unfold ruleBegin
  cases h : writeHeaders s.outCap.toNat s.cfg s.qt0 s.qt1 resetWriter with
  | none => exact .inr ⟨rfl, rfl⟩
  | some w => exact .inl ⟨w, rfl, rfl⟩

/-- Everything coding a block can do. -/
theorem codeBlock_cases (c : Fin 3) (s d : State) :
    (∃ calls w, blockCalls (roleOf c) d.pred[c] d.zb = some calls ∧ putCalls d.outCap.toNat calls d.bw = some w ∧
      codeBlock c s d = .next (succeed .block (d.blkDone + 1) (blockWith c w d))) ∨
    (∃ calls, blockCalls (roleOf c) d.pred[c] d.zb = some calls ∧ putCalls d.outCap.toNat calls d.bw = none ∧
      codeBlock c s d = .next (fail .block .eAlloc (discard s))) ∨
    (blockCalls (roleOf c) d.pred[c] d.zb = none ∧ codeBlock c s d = .fault .noHuffmanCode) := by
  unfold codeBlock
  cases blockCalls (roleOf c) d.pred[c] d.zb with
  | none => exact .inr (.inr ⟨rfl, rfl⟩)
  | some calls =>
    cases h : putCalls d.outCap.toNat calls d.bw with
    | none => exact .inr (.inl ⟨calls, rfl, h, by simp [h]⟩)
    | some w => exact .inl ⟨calls, w, rfl, h, by simp [h]⟩

/-- Everything `BLOCK` can do, before its code is written. -/
theorem ruleBlock_cases (p : Vector CmdWord 16) (s : State) :
    (s.blkTotal ≤ s.blkDone ∧ ruleBlock p s = .next (fail .block .eMalformed (discard s))) ∨
    (s.blkDone < s.blkTotal ∧ s.blkPerMcu = 0 ∧ ruleBlock p s = .fault .zeroBlkPerMcu) ∨
    (s.blkDone < s.blkTotal ∧ s.blkPerMcu ≠ 0 ∧ hasZeroEntry (qtOf s (roleOf (nextComponent s))) = true ∧
      ruleBlock p s = .fault .zeroTableEntry) ∨
    (s.blkDone < s.blkTotal ∧ s.blkPerMcu ≠ 0 ∧ hasZeroEntry (qtOf s (roleOf (nextComponent s))) = false ∧
      ruleBlock p s = codeBlock (nextComponent s) s (runStages p (roleOf (nextComponent s)) s)) := by
  unfold ruleBlock
  by_cases h1 : s.blkTotal ≤ s.blkDone
  · exact .inl ⟨h1, by rw [if_pos h1]; rfl⟩
  · rw [if_neg h1]
    replace h1 : s.blkDone < s.blkTotal := BitVec.not_le.mp h1
    by_cases h2 : s.blkPerMcu = 0
    · exact .inr (.inl ⟨h1, h2, if_pos h2⟩)
    · rw [if_neg h2]
      cases h3 : hasZeroEntry (qtOf s (roleOf (nextComponent s))) with
      | true => exact .inr (.inr (.inl ⟨h1, h2, rfl, if_pos rfl⟩))
      | false => exact .inr (.inr (.inr ⟨h1, h2, rfl, if_neg (by simp)⟩))

/-- Everything `END` can do. -/
theorem ruleEnd_cases (s : State) :
    (∃ w, s.blkDone = s.blkTotal ∧ finalize s.outCap.toNat s.bw = some w ∧
      ruleEnd s = .next (succeed .endImage (BitVec.ofNat 32 w.out.length) (endWith w s))) ∨
    (s.blkDone = s.blkTotal ∧ finalize s.outCap.toNat s.bw = none ∧
      ruleEnd s = .next (fail .endImage .eAlloc (discard s))) ∨
    (s.blkDone ≠ s.blkTotal ∧ ruleEnd s = .next (fail .endImage .eMalformed (discard s))) := by
  unfold ruleEnd
  by_cases h1 : s.blkDone = s.blkTotal
  · rw [if_pos h1]
    cases h : finalize s.outCap.toNat s.bw with
    | none => exact .inr (.inl ⟨h1, rfl, rfl⟩)
    | some w => exact .inl ⟨w, h1, rfl, rfl⟩
  · exact .inr (.inr ⟨h1, by rw [if_neg h1]; rfl⟩)

/-- Everything `RDOUT` can do. -/
theorem ruleRdout_cases (a : Word) (s : State) :
    (∃ b, Memory.read s.bw.out a.toNat = some b ∧ ruleRdout a s = .next (succeed .rdout (b.setWidth 32) s)) ∨
    (Memory.read s.bw.out a.toNat = none ∧ ruleRdout a s = .next (fail .rdout .eIllegal s)) := by
  unfold ruleRdout
  cases h : Memory.read s.bw.out a.toNat with
  | none => exact .inr ⟨rfl, rfl⟩
  | some b => exact .inl ⟨b, rfl, rfl⟩

/-- A table has a zero entry exactly when some coefficient would be divided by 0 (R141). -/
theorem hasZeroEntry_eq_false_iff {qt : Vector Byte 64} : hasZeroEntry qt = false ↔ ∀ k : Fin 64, qt[k.val] ≠ 0 := by
  simp only [hasZeroEntry, List.any_eq_false, beq_iff_eq]
  constructor
  · intro h k
    exact h _ (by simp)
  · intro h x hx
    obtain ⟨i, hi, rfl⟩ := List.getElem_of_mem hx
    simp only [Vector.length_toList] at hi
    simpa using h ⟨i, hi⟩

/-- How a command can end that its own rule runs to a next state (R200 step 6): a success, a failure, or a failure that discards
the image. -/
theorem ownRule_cases {i : Instr} {s t : State} (h : ownRule i s = .next t) :
    (∃ d u, t = succeed i.op d u) ∨ (∃ c, t = fail i.op c s) ∨ (∃ c, t = fail i.op c (discard s)) := by
  cases i with
  | wrcfg x reg v =>
    rcases ruleWrcfg_cases reg v.w s with ⟨_, _, h'⟩ | ⟨_, h'⟩ <;> rw [ownRule, h'] at h <;> cases h
    exacts [.inl ⟨_, _, rfl⟩, .inr (.inl ⟨_, rfl⟩)]
  | rdreg x reg =>
    rcases ruleRdreg_cases reg s with ⟨_, _, h'⟩ | ⟨_, h'⟩ <;> rw [ownRule, h'] at h <;> cases h
    exacts [.inl ⟨_, _, rfl⟩, .inr (.inl ⟨_, rfl⟩)]
  | create x =>
    rcases ruleCreate_cases s with ⟨_, _, h'⟩ | ⟨_, _, h'⟩ | ⟨_, h'⟩ <;> rw [ownRule, h'] at h <;> cases h
    exacts [.inl ⟨_, _, rfl⟩, .inr (.inl ⟨_, rfl⟩), .inr (.inl ⟨_, rfl⟩)]
  | beginImage x =>
    rcases ruleBegin_cases s with ⟨_, _, h'⟩ | ⟨_, h'⟩ <;> rw [ownRule, h'] at h <;> cases h
    exacts [.inl ⟨_, _, rfl⟩, .inr (.inr ⟨_, rfl⟩)]
  | block x p =>
    rcases ruleBlock_cases p s with ⟨_, h'⟩ | ⟨_, _, h'⟩ | ⟨_, _, _, h'⟩ | ⟨_, _, _, h'⟩ <;> rw [ownRule, h'] at h
    · cases h; exact .inr (.inr ⟨_, rfl⟩)
    · cases h
    · cases h
    · rcases codeBlock_cases (nextComponent s) s (runStages p (roleOf (nextComponent s)) s) with
        ⟨_, _, _, _, h''⟩ | ⟨_, _, _, h''⟩ | ⟨_, h''⟩ <;> rw [h''] at h <;> cases h
      exacts [.inl ⟨_, _, rfl⟩, .inr (.inr ⟨_, rfl⟩)]
  | endImage x =>
    rcases ruleEnd_cases s with ⟨_, _, _, h'⟩ | ⟨_, _, h'⟩ | ⟨_, h'⟩ <;> rw [ownRule, h'] at h <;> cases h
    exacts [.inl ⟨_, _, rfl⟩, .inr (.inr ⟨_, rfl⟩), .inr (.inr ⟨_, rfl⟩)]
  | destroy x => cases h; exact .inl ⟨_, _, rfl⟩
  | rdout x a =>
    rcases ruleRdout_cases a.w s with ⟨_, _, h'⟩ | ⟨_, h'⟩ <;> rw [ownRule, h'] at h <;> cases h
    exacts [.inl ⟨_, _, rfl⟩, .inr (.inl ⟨_, rfl⟩)]

end Sys2Proof.Machine
end

