-- ==== Sys2Proof/Laws/Image.lean ====
section
/-! SUPPORT. The laws of the terms a claim about a whole image uses: sequences of commands, runs, sequences of calls, and the bytes
that bits stand for (R53, R206, R270). -/

namespace Sys2Proof.Machine

/-! ### Sequences of commands -/

theorem noTransferError_cons {i : Instr} {cmds : List Instr} :
    NoTransferError (i :: cmds) ↔ anyXerr (encode i) = false ∧ NoTransferError cmds := by
  simp [NoTransferError, anyXerr]

@[simp] theorem blocksOf_nil : blocksOf [] = [] := rfl

theorem blocksOf_cons (i : Instr) (cmds : List Instr) :
    blocksOf (i :: cmds) = (blockSamples i).toList ++ blocksOf cmds := by
  simp only [blocksOf, List.filterMap_cons]
  cases blockSamples i <;> rfl

theorem blocksOf_append (a b : List Instr) : blocksOf (a ++ b) = blocksOf a ++ blocksOf b := by
  simp [blocksOf]

/-- A register number exists exactly when a read of it finds a value (R23). -/
theorem readReg_isSome (s : State) (reg : Byte) : (readReg s reg).isSome = regDefined reg := by
  have h := reg.isLt
  unfold readReg regDefined
  generalize reg.toNat = n at h
  interval_cases n <;> rfl

/-! ### Runs -/

/-- A run of `m + n` steps is a run of `n` steps from where `m` steps lead. -/
theorem core_run_add (m n : Nat) {s t : State} (h : core.run m s = .next t) : core.run (m + n) s = core.run n t := by
  induction m generalizing s with
  | zero => cases h; rw [Nat.zero_add]
  | succ m ih =>
    rw [Nat.add_right_comm]
    simp only [Host.Core.run] at h ⊢
    split at h
    · exact ih h
    · cases h
    · cases h

/-! ### Sequences of calls -/

theorem putCalls_append (cap : Nat) (a b : List BitsCall) (w : Writer) :
    putCalls cap (a ++ b) w = (putCalls cap a w).bind (putCalls cap b) := by
  induction a generalizing w with
  | nil => rfl
  | cons c a ih =>
    simp only [List.cons_append, putCalls]
    cases putBits cap c.1 c.2 w with
    | none => rfl
    | some w1 => simpa using ih w1

@[simp] theorem scanCalls_nil (cfg : Cfg) (j : Nat) (pred : Vector (BitVec 12) 3) : scanCalls cfg j pred [] = some [] := rfl

/-! ### Bits and bytes -/

/-- A byte is its bits (R53). -/
theorem byteBits_injective {a b : Byte} (h : byteBits a = byteBits b) : a = b := by
  simp only [byteBits, bitsOf] at h
  apply BitVec.eq_of_getLsbD_eq
  intro i hi
  have := congrArg (fun l => l[7 - i]?) h
  simp only [List.getElem?_map, List.getElem?_range (show 7 - i < 8 by omega), Option.map_some, Option.some.injEq,
    show 8 - 1 - (7 - i) = i by omega] at this
  exact this

/-- Whole bytes are their bits, so the bits of a scan fix its bytes. -/
theorem flatMap_byteBits_injective {r r' : List Byte} (h : r.flatMap byteBits = r'.flatMap byteBits) : r = r' := by
  have hl := congrArg List.length h
  rw [length_flatMap_byteBits, length_flatMap_byteBits] at hl
  induction r generalizing r' with
  | nil => exact (List.length_eq_zero_iff.mp (by simp only [List.length_nil] at hl; omega)).symm
  | cons b r ih =>
    cases r' with
    | nil => simp at hl
    | cons b' r' =>
      simp only [List.flatMap_cons] at h
      obtain ⟨h1, h2⟩ := List.append_inj h (by simp [byteBits])
      rw [byteBits_injective h1, ih h2 (by simpa using hl)]

end Sys2Proof.Machine
end

