-- ==== Sys2Proof/Laws/OutputSpace.lean ====
section
/-! SUPPORT. Reset, every operation on the output space and every command keep its canonical form (R51). -/

namespace Sys2Proof.Machine

/-! ### The output space stays canonical -/

theorem reset_memory_wf : Memory.wf State.reset.bw.out := rfl

theorem outAppend_wf {cap : Nat} {b : Byte} {w w' : Writer} (h : outAppend cap b w = some w') (hw : Memory.wf w.out) :
    Memory.wf w'.out := by
  obtain ⟨-, rfl⟩ := outAppend_eq_some.mp h
  exact Memory.wf_push hw b

theorem flush_wf {cap : Nat} {w w' : Writer} (h : flush cap w = some w') (hw : Memory.wf w.out) : Memory.wf w'.out := by
  by_cases h0 : w.nacc = 0
  · rw [flush_of_nacc_zero h0] at h; cases h; exact hw
  · rw [flush_eq_putBits h0] at h
    obtain ⟨_, hr⟩ := putBits_wrote h
    exact hr.wf hw

theorem finalize_wf {cap : Nat} {w w' : Writer} (h : finalize cap w = some w') (hw : Memory.wf w.out) :
    Memory.wf w'.out := by
  rw [finalize_eq, Option.bind_eq_some_iff] at h
  obtain ⟨w1, h1, h2⟩ := h
  exact (putBytes_appended h2).1.wf (flush_wf h1 hw)

theorem writeHeaders_wf {cap : Nat} {cfg : Cfg} {qt0 qt1 : Vector Byte 64} {w w' : Writer}
    (h : writeHeaders cap cfg qt0 qt1 w = some w') (hw : Memory.wf w.out) : Memory.wf w'.out := by
  rw [writeHeaders_eq] at h
  exact (putBytes_appended h).1.wf hw

/-- Every command keeps the canonical form (R51). -/
theorem ownRule_memory_wf {i : Instr} {s t : State} (h : ownRule i s = .next t) (hw : Memory.wf s.bw.out) :
    Memory.wf t.bw.out := by
  cases i with
  | wrcfg x reg v =>
    rcases ruleWrcfg_cases reg v.w s with ⟨_, _, h'⟩ | ⟨_, h'⟩ <;> rw [ownRule, h'] at h <;> cases h <;> simpa using hw
  | rdreg x reg =>
    rcases ruleRdreg_cases reg s with ⟨_, _, h'⟩ | ⟨_, h'⟩ <;> rw [ownRule, h'] at h <;> cases h <;> simpa using hw
  | create x =>
    rcases ruleCreate_cases s with ⟨_, _, h'⟩ | ⟨_, _, h'⟩ | ⟨_, h'⟩ <;> rw [ownRule, h'] at h <;> cases h <;>
      simpa using hw
  | beginImage x =>
    rcases ruleBegin_cases s with ⟨w, hh, h'⟩ | ⟨_, h'⟩ <;> rw [ownRule, h'] at h <;> cases h
    · simpa using writeHeaders_wf hh Memory.wf_nil
    · simp [Memory.wf]
  | block x p =>
    rcases ruleBlock_cases p s with ⟨_, h'⟩ | ⟨_, _, h'⟩ | ⟨_, _, _, h'⟩ | ⟨_, _, _, h'⟩ <;> rw [ownRule, h'] at h
    · cases h; simp [Memory.wf]
    · cases h
    · cases h
    · rcases codeBlock_cases (nextComponent s) s (runStages p (roleOf (nextComponent s)) s) with
        ⟨_, w, _, hh, h''⟩ | ⟨_, _, _, h''⟩ | ⟨_, h''⟩ <;> rw [h''] at h <;> cases h
      · obtain ⟨_, hr⟩ := putCalls_wrote hh
        simpa using hr.wf (by simpa using hw)
      · simp [Memory.wf]
  | endImage x =>
    rcases ruleEnd_cases s with ⟨w, _, hh, h'⟩ | ⟨_, _, h'⟩ | ⟨_, h'⟩ <;> rw [ownRule, h'] at h <;> cases h
    · simpa using finalize_wf hh hw
    · simp [Memory.wf]
    · simp [Memory.wf]
  | destroy x => cases h; simp [Memory.wf]
  | rdout x a =>
    rcases ruleRdout_cases a.w s with ⟨_, _, h'⟩ | ⟨_, h'⟩ <;> rw [ownRule, h'] at h <;> cases h <;> simpa using hw

theorem exec_memory_wf {i : Instr} {s t : State} (h : exec i s = .next t) (hw : Memory.wf s.bw.out) :
    Memory.wf t.bw.out := by
  rw [exec_eq_gate] at h
  rcases gate_cases i.op (anyXerr (encode i)) s (ownRule i) with
    ⟨-, h'⟩ | ⟨-, -, -, -, h'⟩ | ⟨-, -, -, h'⟩ | ⟨-, -, -, h'⟩ | ⟨-, -, h'⟩ <;> rw [h'] at h
  · cases h; exact hw
  · cases h; simp [Memory.wf]
  · cases h; simpa using hw
  · cases h; simpa using hw
  · exact ownRule_memory_wf h hw

end Sys2Proof.Machine
end

