-- ==== Sys2Proof/Laws/PerInstr.lean ====
section
/-! SUPPORT. One law for each instruction as syntax: its words are a well-formed command of the length of its `op` (R73 to
R75). -/

namespace Sys2Proof.Laws.WellFormedWords

/-- The words of the instruction are a well-formed command, as many as its head word's `op` says. -/
def Statement (i : Instr) : Prop :=
  i.wellFormed = true ∧ (encode i).length = payloadLength i.op + 1 ∧
  ∀ h ps, encode i = h :: ps → commandLength h.w = ps.length + 1

/-- A head word of the row with the right number of words after it is a well-formed command. -/
theorem of_head {i : Instr} {x : Bool} {o : Op} {r : Byte} {ps : List CmdWord} (he : encode i = ⟨x, headWord o r⟩ :: ps)
    (ho : i.op = o) (hr : r = 0 ∨ o = .wrcfg ∨ o = .rdreg) (hl : ps.length = payloadLength o) : Statement i := by
  refine ⟨?_, by simp [he, ho, hl], fun h qs hq => ?_⟩
  · simp [Instr.wellFormed, he, wellFormedWords, opOfCode_opCode, hl, headWord_and_opMask o r hr]
  · obtain ⟨rfl, rfl⟩ := List.cons.inj (he.symm.trans hq)
    simp [commandLength, opOfCode_opCode, hl]

theorem wrcfg (x : Bool) (reg : Byte) (value : CmdWord) : Statement (.wrcfg x reg value) :=
  of_head rfl rfl (by simp) rfl

theorem rdreg (x : Bool) (reg : Byte) : Statement (.rdreg x reg) := of_head rfl rfl (by simp) rfl

theorem create (x : Bool) : Statement (.create x) := of_head rfl rfl (by simp) rfl

theorem beginImage (x : Bool) : Statement (.beginImage x) := of_head rfl rfl (by simp) rfl

theorem block (x : Bool) (payload : Vector CmdWord 16) : Statement (.block x payload) :=
  of_head rfl rfl (by simp) (by simp [payloadLength])

theorem endImage (x : Bool) : Statement (.endImage x) := of_head rfl rfl (by simp) rfl

theorem destroy (x : Bool) : Statement (.destroy x) := of_head rfl rfl (by simp) rfl

theorem rdout (x : Bool) (addr : CmdWord) : Statement (.rdout x addr) := of_head rfl rfl (by simp) rfl

end Sys2Proof.Laws.WellFormedWords
end

