-- ==== Sys2Proof/Laws/Sound.lean ====
section
/-! SUPPORT. The answers every command shares keep the invariant: a response, a success, a failure, a discard, and taking words
from the port. -/

namespace Sys2Proof.Machine

theorem sound_respond {s : State} (c : Code) (d : Word) (h : Sound s) : Sound (respond c d s) :=
  ⟨h.memory, h.capacity, h.idle, h.destroyed, h.valid, h.created, h.encoding, h.configured, h.counted⟩

theorem sound_succeed {s : State} (o : Op) (d : Word) (h : Sound s) : Sound (succeed o d s) := by
  cases o <;>
    exact ⟨h.memory, h.capacity, h.idle, h.destroyed, h.valid, h.created, h.encoding, h.configured, h.counted⟩

theorem sound_fail {s : State} (o : Op) (c : Code) (h : Sound s) : Sound (fail o c s) := by
  cases o <;>
    exact ⟨h.memory, h.capacity, h.idle, h.destroyed, h.valid, h.created, h.encoding, h.configured, h.counted⟩

theorem sound_cmdPort {s : State} (ws : List CmdWord) (h : Sound s) : Sound { s with cmdPort := ws } :=
  ⟨h.memory, h.capacity, h.idle, h.destroyed, h.valid, h.created, h.encoding, h.configured, h.counted⟩

/-- Giving up the image in flight keeps the invariant (R236). -/
theorem sound_discard {s : State} (h : Sound s) (hl : s.lifecycle = .created ∨ s.lifecycle = .encoding) :
    Sound (discard s) where
  memory := rfl
  capacity := Nat.zero_le _
  idle := fun h => by cases h
  destroyed := fun h => by cases h
  valid := fun h => by cases h
  created := fun _ _ => rfl
  encoding := fun h => by cases h
  configured := fun _ => h.configured hl
  counted := BitVec.le_def.mpr (Nat.zero_le _)

end Sys2Proof.Machine
end

