-- ==== Sys2Proof/Tests/Slice0.lean ====
section
/-! SUPPORT. Tests with expected results from the spec's tables and worked examples, and for every statement with hypotheses the
witnesses that meet them. -/

-- The kernel checks these theorems one after the other, in one thread.
set_option Elab.async false

namespace Sys2Proof.Tests

open Sys2Proof.Machine

/-! ### Small states -/

/-- The state in `IDLE` with configuration `cfg` and capacity `cap`. -/
def idleOf (cfg : Cfg) (cap : Word) : State := { State.resetWith cap with cfg := cfg }

/-- The state in `CREATED` after `CREATE`. -/
def createdOf (cfg : Cfg) (cap : Word) : State := createContext (idleOf cfg cap)

/-- The output space that holds a list of bytes. -/
def memoryOf (bs : List Byte) : Memory := (List.range bs.length).zip bs

/-- The state in `ENCODING` with the header, `scan` after it, pending bits and a block count. -/
def encodingOf (cfg : Cfg) (cap : Word) (scan : List Byte) (acc : Byte) (nacc : Fin 8) (done : Word) : State :=
  { createdOf cfg cap with
    lifecycle := .encoding
    bw := ⟨memoryOf (headerBytes cfg (createdOf cfg cap).qt0 (createdOf cfg cap).qt1 ++ scan), acc, nacc⟩
    blkDone := done }

/-- 8 by 8, one component, quality 50 (P2). -/
def cfg1 : Cfg := ⟨8, 8, 1, 50, 0x00111111⟩

/-- 8 by 8, three components, quality 75. -/
def cfg3 : Cfg := ⟨8, 8, 3, 75, 0x00111111⟩

/-- The largest capacity. -/
def full : Word := 0xFFFFFFFF

/-- The finished stream of P2's configuration with the one block of E1: 616 bytes (P4 (d)). -/
def finished : State :=
  { createdOf cfg1 full with
    bw := ⟨memoryOf (headerBytes cfg1 (createdOf cfg1 full).qt0 (createdOf cfg1 full).qt1 ++ [0x2B, 0xFF, 0xD9]), 0, 0⟩
    blkDone := 1
    outValid := true }

/-- The context after `DESTROY`. -/
def destroyed : State := { createdOf cfg1 full with lifecycle := .destroyed }

/-- A block of 64 equal samples. -/
def fill (v : Byte) : Vector CmdWord 16 := packBlock (vec 64 v)

/-- The horizontal ramp of F4, as the payload of P2. -/
def ramp : Vector CmdWord 16 :=
  Vector.ofFn fun i : Fin 16 => cleanWord (if i.val % 2 = 0 then 0x7C746C64 else 0x9C948C84)

/-- A property of the state a step or a command leaves. -/
def gives (r : Result) (p : State → Bool) : Bool :=
  match r with
  | .next t => p t
  | .fault _ => false
  | .refused _ => false

/-- The last response given. -/
def answer (s : State) : Option Response := s.respPort.getLast?

/-! ### WellFormed: one ill-formed list of words for each check -/

theorem test_wellFormed_empty : wellFormedWords [] = false := by decide

theorem test_wellFormed_undefined_op : wellFormedWords [cleanWord 0x55000000] = false := by decide

theorem test_wellFormed_reserved_arg :
    wellFormedWords [cleanWord 0x10000001] = false ∧ wellFormedWords [cleanWord 0x02000110] = false ∧
    wellFormedWords [cleanWord 0x20800000, cleanWord 0] = false := by decide

theorem test_wellFormed_length :
    wellFormedWords [cleanWord 0x01000000] = false ∧ wellFormedWords [cleanWord 0x02000010, cleanWord 0] = false ∧
    wellFormedWords (cleanWord 0x12000000 :: List.replicate 15 (cleanWord 0)) = false := by decide

theorem test_wellFormed_good :
    wellFormedWords [cleanWord 0x010000FF, cleanWord 0xFFFFFFFF] = true ∧ wellFormedWords [cleanWord 0x14000000] = true := by
  decide

/-! ### Decode: words written out bit by bit from R72, R74, R75 (op, then arg, then the payload) -/

theorem test_decode_wrcfg :
    decode [cleanWord (0b00000001#8 ++ (0b0000000000000000#16 ++ 0b00000011#8)), cleanWord 0x0000004B] =
      .instr (.wrcfg false 3 (cleanWord 75)) [] := by decide

theorem test_decode_rdreg :
    decode [⟨true, 0b00000010#8 ++ (0b0000000000000000#16 ++ 0b10111111#8)⟩, cleanWord 7] =
      .instr (.rdreg true 0xBF) [cleanWord 7] := by decide

theorem test_decode_create :
    decode [cleanWord (0b00010000#8 ++ 0b000000000000000000000000#24)] = .instr (.create false) [] := by decide

theorem test_decode_begin :
    decode [cleanWord (0b00010001#8 ++ 0b000000000000000000000000#24)] = .instr (.beginImage false) [] := by decide

theorem test_decode_block :
    decode (cleanWord (0b00010010#8 ++ 0b000000000000000000000000#24) :: ramp.toList ++ [cleanWord 0x13000000]) =
      .instr (.block false ramp) [cleanWord 0x13000000] := by decide +kernel

theorem test_decode_end :
    decode [cleanWord (0b00010011#8 ++ 0b000000000000000000000000#24)] = .instr (.endImage false) [] := by decide

theorem test_decode_destroy :
    decode [cleanWord (0b00010100#8 ++ 0b000000000000000000000000#24)] = .instr (.destroy false) [] := by decide

theorem test_decode_rdout :
    decode [cleanWord (0b00100000#8 ++ 0b000000000000000000000000#24), ⟨true, 0x00000277⟩] =
      .instr (.rdout false ⟨true, 631⟩) [] := by decide

/-- The numbering of the opcode table: the payload of `RDOUT` is bits 63 to 32. -/
theorem test_decodeTableWord :
    decodeTableWord 64 0x0000027720000000 = some (.rdout false (cleanWord 631)) ∧
    decodeTableWord 32 0x10000000 = some (.create false) ∧ decodeTableWord 32 0x10000001 = none := by decide

/-- Samples are packed least significant byte first: the first payload word of P2 holds 100, 108, 116, 124 (R78). -/
theorem test_samples : ((samplesOf ramp).toList.take 9) = [100, 108, 116, 124, 132, 140, 148, 156, 100] := by
  decide +kernel

/-! ### One step of each command (2.7, P2, P4) -/

/-- P4 (d): the port is empty again and the response is (`OK`, 0). -/
theorem test_step_wrcfg :
    gives (step (placeCommand [cleanWord 0x01000001, cleanWord 9] (State.resetWith full)))
      (fun t => t.cfg.height == 9 && t.cmdPort == [] && t.respPort == [⟨.ok, 0⟩]) = true := by decide

/-- 2.7 line 4: `WRCFG 0x10, 5`. -/
theorem test_wrcfg_illegal :
    gives (exec (.wrcfg false 0x10 (cleanWord 5)) (State.resetWith full))
      (fun t => answer t == some ⟨.eIllegal, 0⟩ && t.lastErr == .eIllegal) = true := by decide

/-- P4 (d): `RDREG STATUS` in `ENCODING` answers 2, and with a finished stream 5 (R26). -/
theorem test_rdreg_status :
    gives (exec (.rdreg false 0x10) (encodingOf cfg1 full [] 0 0 0)) (fun t => answer t == some ⟨.ok, 2⟩) = true ∧
    gives (exec (.rdreg false 0x10) finished) (fun t => answer t == some ⟨.ok, 5⟩) = true := by decide +kernel

/-- P4 (d): `RDREG QT1[63]` at quality 50 answers 99; `RDREG 0x16` is illegal and leaves `LAST_ERR`. -/
theorem test_rdreg_table :
    gives (exec (.rdreg false 0xBF) (createdOf cfg1 full)) (fun t => answer t == some ⟨.ok, 99⟩) = true ∧
    gives (exec (.rdreg false 0x16) (createdOf cfg1 full))
      (fun t => answer t == some ⟨.eIllegal, 0⟩ && t.lastErr == .ok) = true := by decide +kernel

/-- P6: 33 by 33 with luminance sampled 1 by 2 has 60 blocks, 4 in an MCU. -/
theorem test_create_counts :
    gives (exec (.create false) (idleOf ⟨33, 33, 3, 50, 0x00111112⟩ full))
      (fun t => answer t == some ⟨.ok, 60⟩ && t.blkPerMcu == 4 && t.lifecycle == .created) = true := by decide +kernel

/-- P4 (c), (b): 18 blocks in an MCU are `E_GEOMETRY`, quality -5 is `E_QUALITY`. -/
theorem test_create_refused :
    gives (exec (.create false) (idleOf ⟨8, 8, 3, 50, 0x00111144⟩ full)) (fun t => answer t == some ⟨.eGeometry, 0⟩) = true ∧
    gives (exec (.create false) (idleOf ⟨8, 8, 1, 0xFFFFFFFB, 0x00111111⟩ full))
      (fun t => answer t == some ⟨.eQuality, 0⟩ && t.lifecycle == .idle) = true := by decide +kernel

/-- In `CREATED` with room for exactly the header `BEGIN` answers its length. -/
theorem begin_answers {s : State} {n : Nat} (hs : s.lifecycle = .created) (hc : s.outCap.toNat = n)
    (hn : (headerBytes s.cfg s.qt0 s.qt1).length = n) :
    gives (exec (.beginImage false) s) (fun t => answer t == some ⟨.ok, BitVec.ofNat 32 n⟩ && t.bw.out.length == n) = true := by
  obtain ⟨w, hw⟩ := putBytes_isSome (cap := s.outCap.toNat) (bs := headerBytes s.cfg s.qt0 s.qt1) (w := resetWriter)
    (by simp [resetWriter, hn, hc])
  have hl : w.out.length = n := by simpa [resetWriter, hn] using (putBytes_appended hw).1.length
  rw [← writeHeaders_eq] at hw
  rw [exec_eq_gate, show anyXerr (encode (.beginImage false)) = false from rfl, gate_run (by simp [Instr.op, legal, hs])]
  rcases ruleBegin_cases s with ⟨w', h, h'⟩ | ⟨h, -⟩
  · obtain rfl : w' = w := Option.some.inj (h.symm.trans hw)
    rw [ownRule, h']
    simp [gives, answer, hl]
  · exact absurd (h.symm.trans hw) (by simp)

/-- P2 and R190: with 613 bytes of room `BEGIN` answers 613, for three components 623. -/
theorem test_begin :
    gives (exec (.beginImage false) (createdOf cfg1 613)) (fun t => answer t == some ⟨.ok, 613⟩ && t.bw.out.length == 613) = true ∧
    gives (exec (.beginImage false) (createdOf cfg3 623)) (fun t => answer t == some ⟨.ok, 623⟩ && t.bw.out.length == 623) = true :=
  ⟨begin_answers rfl (by decide +kernel) (by decide +kernel), begin_answers rfl (by decide +kernel) (by decide +kernel)⟩

/-- P2's table for small capacities: `BEGIN` answers `E_ALLOC`. -/
theorem test_begin_alloc :
    gives (exec (.beginImage false) (createdOf cfg1 3))
      (fun t => answer t == some ⟨.eAlloc, 0⟩ && t.lifecycle == .created && t.bw.out == []) = true := by decide +kernel

/-- P2: the ramp block writes `2C BB` and leaves five bits pending. -/
theorem test_block_ramp :
    gives (exec (.block false ramp) (encodingOf cfg1 615 [] 0 0 0))
      (fun t => answer t == some ⟨.ok, 1⟩ && Memory.read t.bw.out 613 == some 0x2C && Memory.read t.bw.out 614 == some 0xBB &&
        t.bw.nacc == 5 && t.pred[0] == 0) = true := by decide +kernel

/-- P4 (d): one block too many discards the image. -/
theorem test_block_malformed :
    gives (exec (.block false (fill 128)) (encodingOf cfg1 full [] 0 0 1))
      (fun t => answer t == some ⟨.eMalformed, 0⟩ && t.lifecycle == .created && t.bw.out == [] && t.blkDone == 0) = true := by
  decide +kernel

/-- P4 (d): `END` after the block of E1 gives 616 bytes that end in `2B FF D9`. -/
theorem test_end :
    gives (exec (.endImage false) (encodingOf cfg1 616 [] 0b001010 6 1))
      (fun t => answer t == some ⟨.ok, 616⟩ && Memory.read t.bw.out 613 == some 0x2B && Memory.read t.bw.out 615 == some 0xD9 &&
        t.outValid) = true := by decide +kernel

/-- P2's table: with 615 bytes `END` answers `E_ALLOC`. -/
theorem test_end_alloc :
    gives (exec (.endImage false) (encodingOf cfg1 615 [] 0b001010 6 1))
      (fun t => answer t == some ⟨.eAlloc, 0⟩ && t.bw.out == [] && t.lastErr == .eAlloc) = true := by decide +kernel

/-- R104, R234: five pending bits that are all 1 are padded to 0xFF, which is stuffed: `END` needs four bytes (617), and with
three it answers `E_ALLOC`. -/
theorem test_end_stuffed :
    gives (exec (.endImage false) (encodingOf cfg1 617 [] 0b11111 5 1))
      (fun t => answer t == some ⟨.ok, 617⟩ && (Memory.bytes t.bw.out).drop 613 == [0xFF, 0x00, 0xFF, 0xD9]) = true ∧
    gives (exec (.endImage false) (encodingOf cfg1 616 [] 0b11111 5 1)) (fun t => answer t == some ⟨.eAlloc, 0⟩) = true := by
  decide +kernel

/-- P4 (d): `DESTROY`, and after it every command answers `E_DESTROYED` and leaves `LAST_ERR`. -/
theorem test_destroy :
    gives (exec (.destroy false) finished)
      (fun t => answer t == some ⟨.ok, 0⟩ && t.lifecycle == .destroyed && t.bw.out == []) = true ∧
    gives (exec (.create false) destroyed) (fun t => answer t == some ⟨.eDestroyed, 0⟩ && t.lastErr == .ok) = true := by
  decide +kernel

/-- P4 (d): address 615 of the 616 bytes holds `D9`, address 616 is illegal. -/
theorem test_rdout :
    gives (exec (.rdout false (cleanWord 615)) finished) (fun t => answer t == some ⟨.ok, 0xD9⟩) = true ∧
    gives (exec (.rdout false (cleanWord 616)) finished) (fun t => answer t == some ⟨.eIllegal, 0⟩) = true := by
  decide +kernel

/-- 2.7 lines 1 and 2: an undefined `op` and a reserved bit come before the transfer error (R232). -/
theorem test_priority :
    gives (step (placeCommand [⟨true, 0x55000000⟩] (State.resetWith full))) (fun t => answer t == some ⟨.eIllegal, 0⟩) = true ∧
    gives (step (placeCommand [⟨true, 0x10000001⟩] (State.resetWith full))) (fun t => answer t == some ⟨.eIllegal, 0⟩) = true := by
  decide

/-- 2.7 line 3: a transfer error comes before the wrong state. -/
theorem test_transfer_before_state :
    gives (exec (.beginImage true) (State.resetWith full)) (fun t => answer t == some ⟨.eTransfer, 0⟩) = true := by decide

/-! ### Units (2.1 to 2.6) -/

/-- 2.1: entries 0, 1 and 63 of the luminance table at qualities 9 (reference 19 at position 11), 75 and 100. -/
theorem test_tables :
    qEntry 9 19 = 105 ∧ qEntry 75 17 = 9 ∧ qEntry 75 13 = 7 ∧ qEntry 100 121 = 1 ∧ qEntry 1 10 = 255 ∧
    (buildTable 25 .lum)[63] = 198 ∧ (buildTable 49 .chrom)[0] = 17 := by decide +kernel

/-- 2.4: exact halves go away from zero. -/
theorem test_rhaz :
    rhaz 5 2 = 3 ∧ rhaz (-5) 2 = -3 ∧ rhaz 3 7 = 0 ∧ rhaz 4 7 = 1 ∧ rhaz (-4) 7 = -1 ∧ rhaz (-10) 4 = -3 ∧ rhaz 6 4 = 2 := by
  decide

/-- B3, B4 and B8 of R111: stuffing of whole and of padded bytes. -/
theorem test_stuffing :
    ((putBits 99 0x1FF 9 resetWriter).bind (flush 99)).map (fun w => w.out.bytes) = some [0xFF, 0x00, 0xFF, 0x00] ∧
    (putBits 99 0xFF 8 resetWriter).map (fun w => w.out.bytes) = some [0xFF, 0x00] := by decide +kernel

theorem test_flush :
    ((putCalls 99 [(0, 1), (2040, 11)] resetWriter).bind (flush 99)).map (fun w => w.out.bytes) = some [0x7F, 0x8F] ∧
    ((putBits 99 0b1010 4 resetWriter).bind (finalize 99)).map (fun w => w.out.bytes) = some [0xAF, 0xFF, 0xD9] := by
  decide +kernel

/-- B10 of R111: raw bytes are not stuffed and the length counts itself. -/
theorem test_segment :
    (putSegment 99 0xFE [0x41, 0xFF, 0x42] resetWriter).map (fun w => w.out.bytes) =
      some [0xFF, 0xFE, 0x00, 0x05, 0x41, 0xFF, 0x42] := by decide +kernel

/-- F4 of R132: `TB[1]`, `TB[3]`, and `CB[1]`, `CB[2]` of the ramp. -/
theorem test_transform_ramp :
    ((rowPass (samplesOf ramp))[1]).toInt = -3377632 ∧ ((rowPass (samplesOf ramp))[3]).toInt = -353104 ∧
    ((colPass (samplesOf ramp) (rowPass (samplesOf ramp)))[1]).toInt = -626077867520 ∧
    ((colPass (samplesOf ramp) (rowPass (samplesOf ramp)))[2]).toInt = 0 := by decide +kernel

/-- 2.3: the flat block of zeros has `CB[0]` = -1024 exactly, an exact position. -/
theorem test_transform_flat :
    ((colPass (vec 64 0) (rowPass (vec 64 0)))[0]).toInt = -4398046511104 := by decide +kernel

/-- 2.4: 8.0 over 16 is 1, a little less is 0; 27.5 over 11 is 3, and -3 on the other side. -/
theorem test_quantize :
    quantizeOne (BitVec.ofInt 44 34359738368) 16 = 1 ∧ quantizeOne (BitVec.ofInt 44 34359738367) 16 = 0 ∧
    quantizeOne (BitVec.ofInt 44 118111600640) 11 = 3 ∧ quantizeOne (BitVec.ofInt 44 (-118111600640)) 11 = -3 := by
  decide +kernel

/-- The second table of R143: row 0, column 7 is visited 28th, row 7, column 0 is visited 35th (section 2.4 of the vectors
prints these two the other way round; the rule is followed, log entry 10). -/
theorem test_zigzag : zigzag[28] = 7 ∧ zigzag[35] = 56 ∧ zigzag[4] = 9 := by decide +kernel

/-- 2.5: categories and value bits. -/
theorem test_value_bits :
    category (-255) = 8 ∧ valueBits (-255) 8 = 0 ∧ category 1024 = 11 ∧ valueBits (-1024) 11 = 0b01111111111 ∧
    valueBits (-2040) 11 = 0b00000000111 ∧ valueBits 5 3 = 0b101 := by decide +kernel

/-- A block of quantized values, zero but for those listed. -/
def sparse (vs : List (Nat × Int)) : Vector (BitVec 12) 64 :=
  Vector.ofFn fun z : Fin 64 => BitVec.ofInt 12 ((vs.find? fun p => p.1 == z.val).map Prod.snd |>.getD 0)

/-- The bytes of one coded block after `flush`. -/
def coded (r : Role) (pred : Int) (vs : List (Nat × Int)) : Option (List Byte) :=
  ((blockCalls r (BitVec.ofInt 12 pred) (sparse vs)).bind fun cs => (putCalls 999 cs resetWriter).bind (flush 999)).map
    fun w => w.out.bytes

/-- E4 of R166. -/
theorem test_entropy_E4 :
    coded .lum 0 [(0, 12), (1, 5), (2, -2), (5, 1)] = some [0xB9, 0x2A, 0xF3, 0x5F] := by decide +kernel

/-- E5 of R166: runs of 19 and 42 zeros, no end-of-block after `ZB[63]`. -/
theorem test_entropy_E5 :
    coded .lum 0 [(20, -1), (63, 3)] = some [0x3F, 0xCF, 0x4F, 0xF3, 0xFE, 0x7F, 0xF1, 0xFF, 0x00] := by decide +kernel

/-- E8 of R166: chrominance, the largest difference and the largest categories. -/
theorem test_entropy_E8 :
    coded .chrom (-1024) [(0, 1016), (1, 1020), (2, -1020)] =
      some [0xFF, 0x00, 0xDF, 0xE3, 0xFD, 0x3F, 0xCF, 0xF4, 0x00, 0xCF] := by decide +kernel

/-- R190, R192, P2: the length of the one-component header, the frame header in it (height 8, width 8) and its last bytes. -/
theorem test_header :
    (headerBytes cfg1 (buildTable 50 .lum) (buildTable 50 .chrom)).length = 613 ∧
    ((headerBytes cfg1 (buildTable 50 .lum) (buildTable 50 .chrom)).drop 158).take 13 =
      [0xFF, 0xC0, 0x00, 0x0B, 0x08, 0x00, 0x08, 0x00, 0x08, 0x01, 0x01, 0x11, 0x00] ∧
    (headerBytes cfg1 (buildTable 50 .lum) (buildTable 50 .chrom)).drop 603 =
      [0xFF, 0xDA, 0x00, 0x08, 0x01, 0x01, 0x00, 0x00, 0x3F, 0x00] := by decide +kernel

/-- R156, R158: codes of the last symbols and of end-of-block. -/
theorem test_huffman :
    huffCode 1 0xFA = some ⟨0xFA, 16, 0b1111111111111110⟩ ∧ huffCode 3 0xE8 = some ⟨0xE8, 16, 0b1111111111110011⟩ ∧
    huffCode 1 0x00 = some ⟨0x00, 4, 0b1010⟩ ∧ huffCode 3 0x00 = some ⟨0x00, 2, 0b00⟩ ∧ huffCode 0 12 = none := by
  decide +kernel

/-! ### Witnesses: concrete states and operands that meet the hypotheses of each statement, clause by clause -/

theorem next_of_gives {r : Result} {p : State → Bool} (h : gives r p = true) : ∃ t, r = .next t ∧ p t = true := by
  cases r with
  | next t => exact ⟨t, rfl, h⟩
  | fault f => cases h
  | refused f => cases h

/-- `EveryCommandHasOneEncoding`, `CommandLengthFollowsOp`: words of each outcome, the longest command with and without its last
word. -/
theorem witness_CommandLengthFollowsOp :
    decode (cleanWord 0x12000000 :: List.replicate 15 (cleanWord 0)) = .waiting ∧
    decode (cleanWord 0x12000000 :: List.replicate 17 (cleanWord 0)) = .instr (.block false (vec 16 (cleanWord 0))) [cleanWord 0] ∧
    decode [cleanWord 0x03000000, cleanWord 5] = .undefinedOp [cleanWord 5] ∧
    decode [cleanWord 0x20000001, cleanWord 5] = .reservedArg .rdout [] := by decide +kernel

/-- `ReservedHeadWordsAreRefused`: all words of the command are there; the lowest and highest reserved bits of both formats. -/
theorem witness_ReservedHeadWordsAreRefused :
    commandLength 0x02000100 ≤ 1 ∧ decode [cleanWord 0x02000100] = .reservedArg .rdreg [] ∧
    decode [cleanWord 0x02800000] = .reservedArg .rdreg [] ∧ decode [cleanWord 0x14000001] = .reservedArg .destroy [] ∧
    decode [cleanWord 0x14800000] = .reservedArg .destroy [] ∧ decode [cleanWord 0x15000000] = .undefinedOp [] := by
  decide +kernel

theorem witness_StepRunsTheDecodedCommand :
    (placeCommand (encode (.rdout true ⟨false, 7⟩)) finished).resetIn = false ∧
    (placeCommand (encode (.rdout true ⟨false, 7⟩)) finished).cmdPort = encode (.rdout true ⟨false, 7⟩) ++ [] := by
  exact ⟨rfl, rfl⟩

/-- `WaitingChangesNothing`: an empty port, and a `BLOCK` without its last word. -/
theorem witness_WaitingChangesNothing :
    (State.resetWith full).resetIn = false ∧ (State.resetWith full).cmdPort = [] ∧
    (hostSend (cleanWord 0x12000000 :: List.replicate 15 (cleanWord 0)) finished).cmdPort =
      cleanWord 0x12000000 :: List.replicate 15 (cleanWord 0) ∧
    (List.replicate 15 (cleanWord 0)).length + 1 < commandLength 0x12000000 := by decide +kernel

/-- `ResetFromEveryState`: from `DESTROYED`, with words waiting. -/
theorem witness_ResetFromEveryState :
    (hostAssertReset (hostSend [cleanWord 1] destroyed)).resetIn = true ∧ destroyed.lifecycle = .destroyed := ⟨rfl, rfl⟩

/-- `DestroyedIsTerminal`: with and without a command. -/
theorem witness_DestroyedIsTerminal :
    destroyed.lifecycle = .destroyed ∧ destroyed.resetIn = false ∧ decode destroyed.cmdPort = .waiting ∧
    (placeCommand [cleanWord 0x10000000] destroyed).lifecycle = .destroyed ∧
    decode (placeCommand [cleanWord 0x10000000] destroyed).cmdPort = .instr (.create false) [] := by decide +kernel

/-- `TransferErrors`: a `BLOCK` in `ENCODING` with the error on its last word, one elsewhere, a read, another command; a response
`E_TRANSFER`; and equal words with different transfer-error bits. -/
theorem witness_TransferErrors :
    (encodingOf cfg1 full [] 0 0 0).lifecycle ≠ .destroyed ∧
    anyXerr (encode (.block false ((fill 0).set 15 ⟨true, 0⟩))) = true ∧ finished.lifecycle ≠ .destroyed ∧
    anyXerr (encode (.block true (fill 0))) = true ∧ anyXerr (encode (.rdreg true 0)) = true ∧
    anyXerr (encode (.rdout false ⟨true, 0⟩)) = true ∧ anyXerr (encode (.wrcfg false 0 ⟨true, 0⟩)) = true ∧
    gives (exec (.create true) finished) (fun t => t.respPort == finished.respPort ++ [⟨.eTransfer, 0⟩]) = true ∧
    [cleanWord 0x10000001].map CmdWord.w = [(⟨true, 0x10000001⟩ : CmdWord)].map CmdWord.w := by
  decide +kernel

/-- `WrongStateIsRefused`: `DESTROYED`; each command in a state that does not allow it; and a legal command that completes. -/
theorem witness_WrongStateIsRefused :
    destroyed.lifecycle = .destroyed ∧ finished.lifecycle ≠ .destroyed ∧ (createdOf cfg1 full).lifecycle ≠ .destroyed ∧
    finished.lifecycle ≠ .idle ∧ (State.resetWith full).lifecycle ≠ .created ∧ finished.lifecycle ≠ .encoding ∧
    (State.resetWith full).lifecycle ≠ .destroyed ∧
    ¬((createdOf cfg1 full).lifecycle = .created ∧ (createdOf cfg1 full).outValid = true) ∧
    anyXerr (encode (.block false (fill 0))) = false ∧ anyXerr (encode (.rdout false ⟨false, 0⟩)) = false ∧
    finished.lifecycle = .created ∧ gives (exec (.destroy false) finished) (fun _ => true) = true := by decide +kernel

/-- `IllegalWordsAreAnswered`: both kinds, in `ENCODING` and in `DESTROYED`. -/
theorem witness_IllegalWordsAreAnswered :
    (placeCommand [cleanWord 0] destroyed).resetIn = false ∧
    decode (placeCommand [cleanWord 0] destroyed).cmdPort = .undefinedOp [] ∧
    decode (placeCommand [cleanWord 0xFF000000] (encodingOf cfg1 full [] 0 0 0)).cmdPort = .undefinedOp [] ∧
    decode (placeCommand [cleanWord 0x02000110] (encodingOf cfg1 full [] 0 0 0)).cmdPort = .reservedArg .rdreg [] ∧
    decode (placeCommand [cleanWord 0x10000001] destroyed).cmdPort = .reservedArg .create [] := by decide +kernel

/-- `IllegalOperands`: the smallest undefined number of each gap, the first address after the stream; and the answers. -/
theorem witness_IllegalOperands :
    Memory.wf finished.bw.out ∧ finished.lifecycle = .created ∧ finished.outValid = true ∧ finished.bw.out.length ≤ 616 ∧
    (State.resetWith full).lifecycle = .idle ∧ 0x04 < (0x05 : Byte).toNat ∧
    anyXerr (encode (.wrcfg false 5 ⟨false, 0⟩)) = false ∧
    gives (exec (.rdout false ⟨false, 616⟩) finished) (fun t => t.respPort == [⟨.eIllegal, 0⟩]) = true ∧
    gives (exec (.rdreg false 0x05) finished) (fun t => t.respPort == [⟨.eIllegal, 0⟩]) = true ∧
    gives (exec (.rdreg false 0x3F) finished) (fun t => t.respPort == [⟨.eIllegal, 0⟩]) = true ∧
    gives (exec (.rdreg false 0xFF) finished) (fun t => t.respPort == [⟨.eIllegal, 0⟩]) = true := by decide +kernel

/-- `FailuresChangeOnlyWhatTheTableSays`: a failure that discards and one that does not. -/
theorem witness_FailuresChangeOnlyWhatTheTableSays :
    gives (exec (.endImage false) (encodingOf cfg1 full [] 0 0 0)) (fun t => t.respPort == [⟨.eMalformed, 0⟩]) = true ∧
    gives (exec (.create false) (encodingOf cfg1 full [] 0 0 0)) (fun t => t.respPort == [⟨.eState, 0⟩]) = true := by
  decide +kernel

/-- `WrcfgStoresTheValue`: the first and the last configuration register. -/
theorem witness_WrcfgStoresTheValue :
    (State.resetWith full).lifecycle = .idle ∧ (0x00 : Byte).toNat ≤ 4 ∧ (0x04 : Byte).toNat ≤ 4 := by decide

/-- `RdregReturnsTheRegister`: a finished stream, and the numbers at the ends of each range. -/
theorem witness_RdregReturnsTheRegister :
    finished.lifecycle ≠ .destroyed ∧ finished.bw.out.length < 2 ^ 32 ∧ (0x40 : Byte).toNat = 0x40 + (0 : Fin 64).val ∧
    (0x7F : Byte).toNat = 0x40 + (63 : Fin 64).val ∧ (0x80 : Byte).toNat = 0x80 + (0 : Fin 64).val ∧
    (0xBF : Byte).toNat = 0x80 + (63 : Fin 64).val := by decide +kernel

/-- `CreateBuildsTheContext`, one component: the smallest image and quality. -/
theorem witness_CreateBuildsTheContext_one :
    ∃ s : State, s.lifecycle = .idle ∧ s.cfg.width.toInt = (1 : Nat) ∧ s.cfg.height.toInt = (1 : Nat) ∧
      s.cfg.quality.toInt = (1 : Nat) ∧ s.cfg.samp.extractLsb' 24 8 = 0 ∧ s.cfg.ncomp.toInt = 1 ∧ hSamp s.cfg 0 = 1 ∧
      vSamp s.cfg 0 = 1 ∧ 1 = ((1 + 7) / 8) * ((1 + 7) / 8) :=
  ⟨idleOf ⟨1, 1, 1, 1, 0x00111111⟩ full, by decide +kernel⟩

/-- `CreateBuildsTheContext`, three components: the largest image with nine blocks in an MCU, whose block count is the largest
there is (log entry 6). -/
theorem witness_CreateBuildsTheContext_three :
    ∃ s : State, s.lifecycle = .idle ∧ s.cfg.width.toInt = (65535 : Nat) ∧ s.cfg.height.toInt = (65535 : Nat) ∧
      s.cfg.quality.toInt = (100 : Nat) ∧ s.cfg.samp.extractLsb' 24 8 = 0 ∧ s.cfg.ncomp.toInt = 3 ∧
      (∀ c : Fin 3, 1 ≤ hSamp s.cfg c.val ∧ hSamp s.cfg c.val ≤ 4 ∧ 1 ≤ vSamp s.cfg c.val ∧ vSamp s.cfg c.val ≤ 4) ∧
      9 = hSamp s.cfg 0 * vSamp s.cfg 0 + hSamp s.cfg 1 * vSamp s.cfg 1 + hSamp s.cfg 2 * vSamp s.cfg 2 ∧
      1 = max (hSamp s.cfg 0) (max (hSamp s.cfg 1) (hSamp s.cfg 2)) ∧
      3 = max (vSamp s.cfg 0) (max (vSamp s.cfg 1) (vSamp s.cfg 2)) ∧
      201351168 = ((65535 + 8 * 1 - 1) / (8 * 1)) * ((65535 + 8 * 3 - 1) / (8 * 3)) * 9 :=
  ⟨idleOf ⟨65535, 65535, 3, 100, 0x00131313⟩ full, by decide +kernel⟩

/-- `BlockTotalIsWithinThePrintedBound`: a configuration that meets its hypothesis (and refutes it). -/
theorem witness_BlockTotalIsWithinThePrintedBound :
    geometryOk ⟨65535, 65535, 3, 100, 0x00131313⟩ = true := by decide +kernel

/-- `CreateRefusesBadConfigurations`: width 65536; and a good geometry with quality 0 and 101. -/
theorem witness_CreateRefusesBadConfigurations :
    (idleOf ⟨0x00010000, 8, 1, 50, 0x00111111⟩ full).lifecycle = .idle ∧ ¬((0x00010000 : Word).toInt ≤ 65535) ∧
    ¬(1 ≤ (0xFFFFFFFF : Word).toInt) ∧ geometryOk cfg1 = true ∧ ¬(1 ≤ (0 : Word).toInt ∧ (0 : Word).toInt ≤ 100) ∧
    ¬(1 ≤ (101 : Word).toInt ∧ (101 : Word).toInt ≤ 100) := by decide +kernel

theorem witness_DestroyReleasesTheContext : finished.lifecycle = .created ∧ (createdOf cfg1 full).lifecycle = .created :=
  ⟨rfl, rfl⟩

/-- `RdoutReturnsTheByte`: the first and the last address. -/
theorem witness_RdoutReturnsTheByte :
    finished.lifecycle = .created ∧ finished.outValid = true ∧ Memory.wf finished.bw.out ∧
    (0 : Word).toNat < finished.bw.out.length ∧ (615 : Word).toNat < finished.bw.out.length := by decide +kernel

/-- `BeginWritesTheHeader`: exactly enough room for both lengths. -/
theorem witness_BeginWritesTheHeader :
    (createdOf cfg1 613).lifecycle = .created ∧ (createdOf cfg1 613).cfg.ncomp = 1 ∧
    headerLength (createdOf cfg1 613).cfg ≤ (createdOf cfg1 613).outCap.toNat ∧
    (createdOf cfg3 623).cfg.ncomp = 3 ∧ headerLength (createdOf cfg3 623).cfg ≤ (createdOf cfg3 623).outCap.toNat := by
  decide +kernel

/-- `BeginWithoutRoomIsDiscarded`: one byte less. -/
theorem witness_BeginWithoutRoomIsDiscarded :
    (createdOf cfg1 612).lifecycle = .created ∧ (createdOf cfg1 612).cfg.ncomp = 1 ∧
    (createdOf cfg1 612).outCap.toNat < headerLength (createdOf cfg1 612).cfg ∧
    (createdOf cfg3 622).outCap.toNat < headerLength (createdOf cfg3 622).cfg := by decide +kernel

theorem created_tables (cfg : Cfg) (cap : Word) (r : Role) (k : Fin 64) : (qtOf (createdOf cfg cap) r)[k.val] ≠ 0 := by
  have h := buildTable_bounds cfg.quality.toNat r k.val k.isLt
  intro h0
  cases r <;> simp only [qtOf, createdOf, createContext_qt0, createContext_qt1] at h0 <;>
    simp only [idleOf] at h0 <;> rw [h0] at h <;> simp at h

theorem created_pred (cfg : Cfg) (cap : Word) : PredInRange (createdOf cfg cap) := by
  intro c
  simp [createdOf, idleOf, State.resetWith]

/-- `BlockCodesTheBlock`: the first block with exactly 416 bytes of room. -/
theorem witness_BlockCodesTheBlock :
    (encodingOf cfg1 1029 [] 0 0 0).lifecycle = .encoding ∧ anyXerr ramp.toList = false ∧
    (encodingOf cfg1 1029 [] 0 0 0).blkDone < (encodingOf cfg1 1029 [] 0 0 0).blkTotal ∧
    0 < (encodingOf cfg1 1029 [] 0 0 0).blkPerMcu.toNat ∧
    (∀ (r : Role) (k : Fin 64), (qtOf (encodingOf cfg1 1029 [] 0 0 0) r)[k.val] ≠ 0) ∧
    PredInRange (encodingOf cfg1 1029 [] 0 0 0) ∧
    (encodingOf cfg1 1029 [] 0 0 0).bw.out.length + 416 ≤ (encodingOf cfg1 1029 [] 0 0 0).outCap.toNat :=
  ⟨rfl, by decide +kernel, by decide +kernel, by decide +kernel, fun r k => by
      cases r
      · exact created_tables cfg1 1029 .lum k
      · exact created_tables cfg1 1029 .chrom k,
    created_pred cfg1 1029, by decide +kernel⟩

/-- `BlockCodesTheBlock`, last clause: the ramp block of P2 with room for just its two bytes. -/
theorem witness_BlockCodesTheBlock_exact :
    ((blockCalls (roleOf (nextComponent (encodingOf cfg1 615 [] 0 0 0)))
        ((encodingOf cfg1 615 [] 0 0 0).pred[(nextComponent (encodingOf cfg1 615 [] 0 0 0)).val])
        (reorder (quantize (qtOf (encodingOf cfg1 615 [] 0 0 0) (roleOf (nextComponent (encodingOf cfg1 615 [] 0 0 0))))
          (colPass (samplesOf ramp) (rowPass (samplesOf ramp)))))).bind
      fun calls => putCalls (encodingOf cfg1 615 [] 0 0 0).outCap.toNat calls (encodingOf cfg1 615 [] 0 0 0).bw).isSome = true := by
  decide +kernel

/-- `BlockRefusalsDiscard`, first clause: all blocks sent already. -/
theorem witness_BlockRefusalsDiscard_malformed :
    (encodingOf cfg1 full [] 0 0 1).lifecycle = .encoding ∧ anyXerr ramp.toList = false ∧
    (encodingOf cfg1 full [] 0 0 1).blkTotal ≤ (encodingOf cfg1 full [] 0 0 1).blkDone := by decide +kernel

/-- The calls of the ramp block need two full bytes and have room for one (P2). -/
theorem ramp_calls_do_not_fit :
    ((blockCalls (roleOf (nextComponent (encodingOf cfg1 614 [] 0 0 0))) ((encodingOf cfg1 614 [] 0 0 0).pred[(nextComponent (encodingOf cfg1 614 [] 0 0 0)).val])
      (reorder (quantize (qtOf (encodingOf cfg1 614 [] 0 0 0) (roleOf (nextComponent (encodingOf cfg1 614 [] 0 0 0))))
        (colPass (samplesOf ramp) (rowPass (samplesOf ramp)))))).bind
      fun calls => putCalls (encodingOf cfg1 614 [] 0 0 0).outCap.toNat calls (encodingOf cfg1 614 [] 0 0 0).bw) = none := by
  decide +kernel

/-- `BlockRefusalsDiscard`, second clause: the ramp block of P2 with 614 bytes. -/
theorem witness_BlockRefusalsDiscard_alloc :
    ∃ s : State, s.lifecycle = .encoding ∧ anyXerr ramp.toList = false ∧ s.blkDone < s.blkTotal ∧ 0 < s.blkPerMcu.toNat ∧
      (∀ (r : Role) (k : Fin 64), (qtOf s r)[k.val] ≠ 0) ∧ PredInRange s ∧
      (∀ calls, blockCalls (roleOf (nextComponent s)) s.pred[(nextComponent s).val]
          (reorder (quantize (qtOf s (roleOf (nextComponent s))) (colPass (samplesOf ramp) (rowPass (samplesOf ramp))))) =
          some calls → putCalls s.outCap.toNat calls s.bw = none) :=
  ⟨encodingOf cfg1 614 [] 0 0 0, rfl, by decide +kernel, by decide +kernel, by decide +kernel, fun r k => by
      cases r
      · exact created_tables cfg1 614 .lum k
      · exact created_tables cfg1 614 .chrom k,
    created_pred cfg1 614, fun calls h => by
      have hf := ramp_calls_do_not_fit
      rw [h] at hf
      exact hf⟩

/-- `EndFinishesTheStream`: exactly the room needed: nothing pending (two bytes); P2's last byte 0x57 (three, `OUT_CAP` 618); five
pending bits that are all 1 (four, `FF 00 FF D9`). -/
theorem witness_EndFinishesTheStream :
    (encodingOf cfg1 616 [0x12] 0 0 1).lifecycle = .encoding ∧
    (encodingOf cfg1 616 [0x12] 0 0 1).blkDone = (encodingOf cfg1 616 [0x12] 0 0 1).blkTotal ∧
    (encodingOf cfg1 616 [0x12] 0 0 1).bw.out.length + endBytes (encodingOf cfg1 616 [0x12] 0 0 1).bw = 616 ∧
    endBytes (encodingOf cfg1 616 [0x12] 0 0 1).bw = 2 ∧
    (encodingOf cfg1 618 [0x2C, 0xBB] 0b01010 5 1).bw.out.length +
      endBytes (encodingOf cfg1 618 [0x2C, 0xBB] 0b01010 5 1).bw = 618 ∧
    endBytes (encodingOf cfg1 618 [0x2C, 0xBB] 0b01010 5 1).bw = 3 ∧
    (encodingOf cfg1 617 [] 0b11111 5 1).bw.out.length + endBytes (encodingOf cfg1 617 [] 0b11111 5 1).bw = 617 ∧
    endBytes (encodingOf cfg1 617 [] 0b11111 5 1).bw = 4 := by decide +kernel

/-- `EndRefusalsDiscard`: a block missing; one byte too little in each of the three cases, the pending bits all 1 with room for
three among them. -/
theorem witness_EndRefusalsDiscard :
    (encodingOf cfg1 full [] 0 0 0).blkDone ≠ (encodingOf cfg1 full [] 0 0 0).blkTotal ∧
    (encodingOf cfg1 615 [] 0b001010 6 1).blkDone = (encodingOf cfg1 615 [] 0b001010 6 1).blkTotal ∧
    (encodingOf cfg1 615 [] 0b001010 6 1).outCap.toNat <
      (encodingOf cfg1 615 [] 0b001010 6 1).bw.out.length + endBytes (encodingOf cfg1 615 [] 0b001010 6 1).bw ∧
    (encodingOf cfg1 615 [0x12] 0 0 1).outCap.toNat <
      (encodingOf cfg1 615 [0x12] 0 0 1).bw.out.length + endBytes (encodingOf cfg1 615 [0x12] 0 0 1).bw ∧
    (encodingOf cfg1 616 [] 0b11111 5 1).bw.out.length + 3 = (encodingOf cfg1 616 [] 0b11111 5 1).outCap.toNat ∧
    (encodingOf cfg1 616 [] 0b11111 5 1).outCap.toNat <
      (encodingOf cfg1 616 [] 0b11111 5 1).bw.out.length + endBytes (encodingOf cfg1 616 [] 0b11111 5 1).bw := by
  decide +kernel

/-- `TablesFollowTheQuality`: the ends of the ranges, and two images of different size with the same quality. -/
theorem witness_TablesFollowTheQuality :
    1 ≤ 1 ∧ 99 < 100 ∧ 100 ≤ 100 ∧ (idleOf cfg1 full).lifecycle = .idle ∧
    (idleOf cfg1 full).cfg.quality = (idleOf ⟨1, 1, 3, 50, 0x00111122⟩ full).cfg.quality ∧
    gives (exec (.create false) (idleOf cfg1 full)) (fun t => t.lifecycle == .created) = true ∧
    gives (exec (.create false) (idleOf ⟨1, 1, 3, 50, 0x00111122⟩ full)) (fun t => t.lifecycle == .created) = true := by
  decide +kernel

theorem witness_RoundingIsHalfAwayFromZero : 0 < 1 ∧ rhaz 1 2 = 1 ∧ rhaz (-1) 2 = -1 := by decide

/-- `TransformIsExact`: an exact position and a general one; a state with the block in `SB`. -/
theorem witness_TransformIsExact :
    (((0 : Fin 8) = 0 ∨ (0 : Fin 8) = 4) ∧ ((4 : Fin 8) = 0 ∨ (4 : Fin 8) = 4)) ∧
    ¬(((0 : Fin 8) = 0 ∨ (0 : Fin 8) = 4) ∧ ((1 : Fin 8) = 0 ∨ (1 : Fin 8) = 4)) ∧
    (loadSamples ramp finished).sb = samplesOf ramp := ⟨by decide, by decide, rfl⟩

/-- `FlatAndTransposedBlocks`: a flat block, a block constant along each direction with its transpose, and blocks whose shifted
samples add. -/
theorem witness_FlatAndTransposedBlocks :
    (∀ k : Fin 64, (vec 64 (7 : Byte))[k.val] = 7) ∧
    (∀ y x : Fin 8, (samplesOf ramp)[(ix y x).val] = (samplesOf ramp)[(ix 0 x).val]) ∧
    (∀ y x : Fin 8, (Vector.ofFn fun k : Fin 64 => (samplesOf ramp)[(ix (colOf k) (rowOf k)).val])[(ix y x).val] =
      (samplesOf ramp)[(ix x y).val]) ∧
    (∀ k : Fin 64, (((vec 64 (131 : Byte))[k.val]).toNat : Int) - 128 =
      ((((vec 64 (130 : Byte))[k.val]).toNat : Int) - 128) + ((((vec 64 (129 : Byte))[k.val]).toNat : Int) - 128)) := by
  decide +kernel

theorem witness_QuantizedCoefficients : ∀ k : Fin 64, (vec 64 (1 : Byte))[k.val] ≠ 0 := by decide +kernel

/-- `EverySymbolHasACode`: predictor and values at the ends of their ranges (E8), the last run and category. -/
theorem witness_EverySymbolHasACode :
    -1024 ≤ (BitVec.ofInt 12 (-1024)).toInt ∧ (BitVec.ofInt 12 (-1024)).toInt ≤ 1016 ∧
    ((sparse [(0, 1016), (1, 1020), (2, -1020)])[0]).toInt = 1016 ∧
    (∀ z : Fin 64, z ≠ 0 → (((sparse [(0, 1016), (1, 1020), (2, -1020)])[z.val]).toInt).natAbs ≤ 1020) ∧
    ((sparse [(0, 1016), (1, 1020), (2, -1020)])[1]).toInt ≠ 0 ∧ 15 < 16 ∧ 10 ≤ 10 := by decide +kernel

/-- `RunLengthCoding`: 19 zeros before a value and end-of-block after it (E5's first run). -/
theorem witness_RunLengthCoding :
    (symbolCall 1 0xF0).isSome = true ∧ (symbolCall 1 (19 % 16 * 16 + category (-1))).isSome = true ∧
    (acCalls 1 0 (List.replicate 43 0)).isSome = true ∧ (0 : Nat) < 1 ∧ (-1 : Int) ≠ 0 := by decide +kernel

/-- `BlockSizeIsBounded`: the zero blocks of E1 and E2 have exactly 6 and 4 bits, and such calls are written. -/
theorem witness_BlockSizeIsBounded :
    (blockCalls .lum 0 (sparse [])).map bitCount = some 6 ∧ (blockCalls .chrom 0 (sparse [])).map bitCount = some 4 ∧
    (∀ z : Fin 64, z ≠ 0 → (((sparse [])[z.val]).toInt).natAbs ≤ 1020) ∧
    bitCount [(0b001010, 6)] ≤ 1660 ∧ (putCalls 9 [(0b001010, 6)] resetWriter).isSome = true := by decide +kernel

/-- `WriterKeepsTheBits`, `FlushPadsWithOnes`: writes that succeed, with pending bits and without. -/
theorem witness_WriterKeepsTheBits :
    (putBits 9 0x1FF 9 resetWriter).isSome = true ∧ (putCalls 9 [(5, 3), (0xFF, 8)] resetWriter).isSome = true ∧
    (flush 9 resetWriter).isSome = true ∧ (flush 9 ⟨[], 0b1111, 4⟩).isSome = true := by decide +kernel

/-- `SegmentsAreAppended`: exactly enough room, one byte too little, and a byte that was there. -/
theorem witness_SegmentsAreAppended :
    (memoryOf [1, 2]).length + ([0x41, 0xFF] : List Byte).length + 4 ≤ 8 ∧
    7 < (memoryOf [1, 2]).length + ([0x41, 0xFF] : List Byte).length + 4 ∧ Memory.wf (memoryOf [1, 2]) ∧
    1 < (memoryOf [1, 2]).length := by decide +kernel

theorem witness_HeaderLayout : cfg1.ncomp = 1 ∧ cfg3.ncomp = 3 := by decide

/-! ### Sound states that are not the state after reset -/

theorem configured_created (cap : Word) : ContextBuilt (createdOf cfg1 cap) :=
  ⟨(by decide +kernel : geometryOk cfg1 = true), (by decide +kernel : qualityOk cfg1 = true), rfl, rfl, rfl, rfl⟩

theorem sound_created (cap : Word) : Sound (createdOf cfg1 cap) where
  memory := rfl
  capacity := Nat.zero_le _
  idle := fun h => by cases h
  destroyed := fun h => by cases h
  valid := fun h => by cases h
  created := fun _ _ => rfl
  encoding := fun h => by cases h
  configured := fun _ => configured_created cap
  counted := BitVec.le_def.mpr (Nat.zero_le _)

theorem sound_finished : Sound finished where
  memory := by decide +kernel
  capacity := by decide +kernel
  idle := fun h => by cases h
  destroyed := fun h => by cases h
  valid := fun _ => ⟨rfl, rfl, [0x2B], by simp, by decide +kernel⟩
  created := fun _ h => by cases h
  encoding := fun h => by cases h
  configured := fun _ => configured_created full
  counted := by decide +kernel

theorem sound_encoding : Sound (encodingOf cfg1 full [] 0b001010 6 1) where
  memory := by decide +kernel
  capacity := by decide +kernel
  idle := fun h => by cases h
  destroyed := fun h => by cases h
  valid := fun h => by cases h
  created := fun h => by cases h
  encoding := fun _ => ⟨created_pred cfg1 full, [], by unfold ScanData; decide +kernel, fun _ => .inr (by decide)⟩
  configured := fun _ => configured_created full
  counted := by decide +kernel

/-- `EveryStepKeepsSoundness`, `SoundStatesMeetR34`, `SoundStatesNeverStop`, `ScanDataIsStuffed`: sound states in `CREATED` with a
finished stream and in `ENCODING`, and a step from one. -/
theorem witness_EveryStepKeepsSoundness :
    Sound finished ∧ finished.outValid = true ∧ Sound (encodingOf cfg1 full [] 0b001010 6 1) ∧ ∃ t, step finished = .next t :=
  ⟨sound_finished, rfl, sound_encoding, finished, rfl⟩

/-- `LifecycleTransitions`: steps that change the lifecycle: reset, `CREATE`, a discard, `END` and `DESTROY`. -/
theorem witness_LifecycleTransitions :
    gives (step (hostAssertReset destroyed)) (fun t => t.lifecycle == .idle) = true ∧
    gives (step (placeCommand (encode (.create false)) (idleOf cfg1 full))) (fun t => t.lifecycle == .created) = true ∧
    gives (step (placeCommand (encode (.block true (fill 0))) (encodingOf cfg1 full [] 0 0 0)))
      (fun t => t.lifecycle == .created) = true ∧
    gives (step (placeCommand (encode (.endImage false)) (encodingOf cfg1 full [] 0b001010 6 1)))
      (fun t => t.lifecycle == .created) = true ∧
    gives (step (placeCommand (encode (.destroy false)) finished)) (fun t => t.lifecycle == .destroyed) = true := by
  decide +kernel

/-- `LastErrIsRecordedAndInert`, `ConfigurationIsImmutable`: commands that answer, in `IDLE` and later; a step. -/
theorem witness_ConfigurationIsImmutable :
    gives (exec (.create false) (idleOf cfg1 full)) (fun t => t.respPort == [⟨.ok, 1⟩]) = true ∧
    gives (exec (.wrcfg false 0 ⟨false, 7⟩) (idleOf cfg1 full)) (fun t => t.cfg.width == 7) = true ∧
    gives (exec (.wrcfg false 0 ⟨false, 7⟩) finished) (fun t => t.cfg.width == 8) = true ∧
    gives (exec (.rdreg false 0x10) destroyed) (fun t => t.lastErr == .ok) = true ∧
    gives (step finished) (fun t => t.outCap == full) = true ∧
    ∀ x : Bool, Instr.create false ≠ .rdreg x 0x11 := by
  refine ⟨by decide +kernel, by decide +kernel, by decide +kernel, by decide +kernel, by decide +kernel, by decide⟩

/-- `PredictorsArePerComponent`: a `BLOCK` and a `BEGIN` that answer `OK`. -/
theorem witness_PredictorsArePerComponent :
    (∃ t, exec (.block false ramp) (encodingOf cfg1 615 [] 0 0 0) = .next t ∧ (answer t == some ⟨.ok, 1⟩) = true) ∧
    (∃ t, exec (.beginImage false) (createdOf cfg1 613) = .next t ∧
      (answer t == some ⟨.ok, 613⟩ && t.bw.out.length == 613) = true) :=
  ⟨next_of_gives (by decide +kernel), next_of_gives test_begin.1⟩

/-- `OutputIsAppendOnly`: a finished stream that stays, and one that is completed. -/
theorem witness_OutputIsAppendOnly :
    Sound finished ∧ (∃ t, exec (.rdreg false 0x10) finished = .next t ∧ t.outValid = true) ∧
    Sound (encodingOf cfg1 full [] 0b001010 6 1) ∧
    (∃ t, exec (.endImage false) (encodingOf cfg1 full [] 0b001010 6 1) = .next t ∧ t.outValid = true) :=
  ⟨sound_finished, next_of_gives (by decide +kernel), sound_encoding, next_of_gives (by decide +kernel)⟩

theorem witness_ReadsChangeNothing :
    (Instr.rdreg false 0x10).op = .rdreg ∧ (Instr.rdout true (cleanWord 0)).op = .rdout := ⟨rfl, rfl⟩

/-- `BeginForgetsEarlierImages`: a context that has encoded an image and one that has not. -/
theorem witness_BeginForgetsEarlierImages :
    SameContext (placeCommand (encode (.beginImage false)) finished)
      (placeCommand (encode (.beginImage false)) (createdOf cfg1 full)) ∧
    (placeCommand (encode (.beginImage false)) finished).lifecycle = .created ∧
    (placeCommand (encode (.beginImage false)) finished).cmdPort = encode (.beginImage false) ++ [] :=
  ⟨⟨rfl, rfl, rfl, rfl, rfl, rfl, rfl, rfl, rfl⟩, rfl, rfl⟩

/-- `HiddenStateNeverShows`: two states that differ in `ACC`, `PRED` and `ZB`. -/
theorem witness_HiddenStateNeverShows :
    SameView (createdOf cfg1 full)
      { createdOf cfg1 full with bw := ⟨[], 0xFF, 3⟩, pred := vec 3 5, zb := vec 64 1, respPort := [⟨.ok, 9⟩] } :=
  ⟨⟨rfl, rfl, rfl, rfl, rfl, rfl, rfl, rfl, rfl⟩, rfl, rfl, rfl, rfl, fun h => by cases h⟩

/-- The stream of P2: its header and `2C BB 57 FF D9`, 618 bytes; the calls are those the text of P2 spells out. -/
theorem test_stream_P2 : ∃ stream, StreamOfRules cfg1 [samplesOf ramp] stream ∧ stream.length = 618 ∧
    stream.drop 613 = [0x2C, 0xBB, 0x57, 0xFF, 0xD9] :=
  ⟨_, ⟨[(0b00, 2), (0b1011, 4), (0b0010, 4), (0b111011, 6), (0b0, 1), (0b1010, 4)], [0x2C, 0xBB, 0x57],
    by decide +kernel, by decide +kernel, rfl⟩, by decide +kernel, by decide +kernel⟩

/-- The commands of P2's image, with a read of `BLK_DONE` and one of a register that does not exist between. -/
def imageP2 : List Instr :=
  [.beginImage false, .rdreg false 0x13, .block false ramp, .rdreg false 0x05, .endImage false]

theorem imageP2_wellFormed : WellFormedImage 1 imageP2 ∧ NoTransferError imageP2 ∧ blocksOf imageP2 = [samplesOf ramp] :=
  ⟨⟨false, false, [.rdreg false 0x13, .block false ramp, .rdreg false 0x05], rfl,
    by simp [Instr.op], rfl⟩, by unfold NoTransferError; decide +kernel, rfl⟩

/-- `EveryImageIsEncoded`: the image of P2, with the capacity of its stream and with one byte less. -/
theorem witness_EveryImageIsEncoded (cap : Word) :
    Sound (hostSend (imageP2.flatMap encode) (createdOf cfg1 cap)) ∧ (createdOf cfg1 cap).lifecycle = .created ∧
    (createdOf cfg1 cap).resetIn = false ∧
    (hostSend (imageP2.flatMap encode) (createdOf cfg1 cap)).cmdPort = imageP2.flatMap encode ++ [] ∧
    NoTransferError imageP2 ∧ WellFormedImage (createdOf cfg1 cap).blkTotal imageP2 ∧
    CapAtLeast (createdOf cfg1 618) 618 ∧ ¬CapAtLeast (createdOf cfg1 617) 618 := by
  have h := sound_created cap
  have ht : (createdOf cfg1 cap).blkTotal = 1 := (by decide +kernel : BitVec.ofNat 32 (totalBlocks cfg1) = 1)
  exact ⟨⟨h.memory, h.capacity, h.idle, h.destroyed, h.valid, h.created, h.encoding, h.configured, h.counted⟩, rfl, rfl,
    by simp [hostSend, createdOf, idleOf, State.resetWith], imageP2_wellFormed.2.1, ht ▸ imageP2_wellFormed.1,
    by unfold CapAtLeast; decide +kernel, by unfold CapAtLeast; decide +kernel⟩

/-- The host's words after reset for P2, the configuration registers written in the opposite order. -/
def startP2 : State :=
  hostSend (((configWrites 8 8 1 50 0x00111111).reverse ++ [Instr.create false]).flatMap encode ++ imageP2.flatMap encode)
    (State.resetWith 618)

/-- `EveryImageFromResetIsEncoded`: all premises of R270 together, for P2. -/
theorem witness_EveryImageFromResetIsEncoded :
    FreshReset (State.resetWith 618) ∧ CapAtLeast (State.resetWith 618) 618 ∧
    ∃ t, Configured 8 8 1 50 0x00111111 (configWrites 8 8 1 50 0x00111111).reverse startP2 t ∧
      WellFormedImage t.blkTotal imageP2 ∧ NoTransferError imageP2 ∧
      ∃ stream, StreamOfRules ⟨8, 8, 1, 50, 0x00111111⟩ (blocksOf imageP2) stream ∧ stream.length = 618 := by
  obtain ⟨t, ht, hp⟩ := next_of_gives (r := core.run 6 startP2)
    (p := fun t => t.blkTotal == 1 && t.respPort.getLast?.map Response.code == some .ok) (by decide +kernel)
  simp only [Bool.and_eq_true, beq_iff_eq] at hp
  obtain ⟨stream, hs, hl, -⟩ := test_stream_P2
  exact ⟨rfl, by unfold CapAtLeast; decide +kernel, t,
    ⟨List.reverse_perm _, ⟨imageP2.flatMap encode, rfl⟩, ht, hp.2⟩, hp.1 ▸ imageP2_wellFormed.1, imageP2_wellFormed.2.1,
    stream, imageP2_wellFormed.2.2 ▸ hs, hl⟩

/-- P3 (R207): an image 32 by 8 with luminance sampled 2 by 2: the real luminance plane has 8 rows of 16, the lower ones are
replicated; the blocks of MCU 1 start at block column 2. -/
theorem test_planes_P3 :
    realRows ⟨32, 8, 3, 50, 0x00111122⟩ 0 = 8 ∧ realCols ⟨32, 8, 3, 50, 0x00111122⟩ 0 = 32 ∧
    realCols ⟨32, 8, 3, 50, 0x00111122⟩ 1 = 16 ∧
    (List.range 12).map (blockPlace ⟨32, 8, 3, 50, 0x00111122⟩) =
      [⟨0, 0, 0⟩, ⟨0, 1, 0⟩, ⟨0, 0, 1⟩, ⟨0, 1, 1⟩, ⟨1, 0, 0⟩, ⟨2, 0, 0⟩,
       ⟨0, 2, 0⟩, ⟨0, 3, 0⟩, ⟨0, 2, 1⟩, ⟨0, 3, 1⟩, ⟨1, 1, 0⟩, ⟨2, 1, 0⟩] := by decide +kernel

/-- `BlockOrderCoversThePlanes`, last clause: planes that do not change downward meet the replication of P3. -/
theorem witness_BlocksInOrder :
    BlocksInOrder ⟨32, 8, 3, 50, 0x00111122⟩ (fun _ x _ => BitVec.ofNat 8 x)
      (orderedBlocks ⟨32, 8, 3, 50, 0x00111122⟩ fun _ x _ => BitVec.ofNat 8 x) := by
  refine ⟨fun p hp y x => ?_, rfl⟩
  obtain ⟨c, col, row⟩ := p
  obtain ⟨-, hcol, -⟩ := hp
  have hr : ∀ c : Fin 3, realCols ⟨32, 8, 3, 50, 0x00111122⟩ c =
      8 * (mcuCols ⟨32, 8, 3, 50, 0x00111122⟩ * planeH ⟨32, 8, 3, 50, 0x00111122⟩ c) := by decide +kernel
  have h := hr c
  simp only at hcol ⊢
  congr 1
  omega

/-- `BlockOrderCoversThePlanes`: the context of P3. -/
theorem witness_BlockOrderCoversThePlanes :
    geometryOk (createdOf ⟨32, 8, 3, 50, 0x00111122⟩ full).cfg = true ∧
    (createdOf ⟨32, 8, 3, 50, 0x00111122⟩ full).blkPerMcu =
      BitVec.ofNat 4 (blocksPerMcu (createdOf ⟨32, 8, 3, 50, 0x00111122⟩ full).cfg) ∧
    totalBlocks (createdOf ⟨32, 8, 3, 50, 0x00111122⟩ full).cfg = 12 ∧
    inPlane (createdOf ⟨32, 8, 3, 50, 0x00111122⟩ full).cfg ⟨0, 3, 1⟩ := by unfold inPlane; decide +kernel

end Sys2Proof.Tests
end

section
/-! The decoder read backwards: the words of a decoded command (R72 to R75). -/

namespace Sys2Proof

/-- A command built from its row's head word and the words after it has these words as its encoding (R74). -/
theorem encode_of_buildInstr {o : Op} {h : CmdWord} {ps rest : List CmdWord} {i : Instr}
    (hw : h.w = headWord o (if hasRegister o then regField h.w else 0)) (hb : buildInstr o h ps = .instr i rest) :
    h :: ps = encode i ++ rest := by
  have hd : h = ⟨h.xerr, headWord o (if hasRegister o then regField h.w else 0)⟩ := congrArg (CmdWord.mk h.xerr) hw
  cases o with
  | wrcfg =>
    cases ps with
    | nil => cases hb
    | cons v ps => cases hb; exact congrArg (· :: v :: rest) hd
  | rdreg => cases hb; exact congrArg (· :: ps) hd
  | create => cases hb; exact congrArg (· :: ps) hd
  | beginImage => cases hb; exact congrArg (· :: ps) hd
  | block =>
    simp only [buildInstr] at hb
    split at hb
    · cases hb
      exact (congrArg (· :: ps) hd).trans (by simp [encode, hasRegister])
    · cases hb
  | endImage => cases hb; exact congrArg (· :: ps) hd
  | destroy => cases hb; exact congrArg (· :: ps) hd
  | rdout =>
    cases ps with
    | nil => cases hb
    | cons a ps => cases hb; exact congrArg (· :: a :: rest) hd

/-- Words that decode to a command are the words of that command and what follows them (R75, R76). -/
theorem encode_of_decode {ws rest : List CmdWord} {i : Instr} (h : decode ws = .instr i rest) : ws = encode i ++ rest := by
  cases ws with
  | nil => cases h
  | cons hd ps =>
    simp only [decode] at h
    split at h
    · cases h
    next o _ =>
      split_ifs at h with _ hm
      exact encode_of_buildInstr (mask_eq_match_iff.mp hm) h

end Sys2Proof
end

section
/-! Everything one step can do, and how it changes `STATE` (R21). -/

namespace Sys2Proof.Machine

/-- Everything a step can do that leads to a next state (R58, R260, R266). -/
theorem step_cases {s t : State} (h : step s = .next t) :
    (s.resetIn = true ∧ t = hardReset s) ∨
    (s.resetIn = false ∧ decode s.cmdPort = .waiting ∧ t = s) ∨
    (∃ i rest, s.resetIn = false ∧ decode s.cmdPort = .instr i rest ∧ exec i { s with cmdPort := rest } = .next t) ∨
    (∃ rest, s.resetIn = false ∧ decode s.cmdPort = .undefinedOp rest ∧ t = answerUndefinedOp { s with cmdPort := rest }) ∨
    (∃ o rest, s.resetIn = false ∧ decode s.cmdPort = .reservedArg o rest ∧
      t = answerReservedArg o { s with cmdPort := rest }) := by
  unfold step at h
  cases hr : s.resetIn with
  | true => rw [hr] at h; cases h; exact .inl ⟨rfl, rfl⟩
  | false =>
    rw [hr] at h
    right
    cases hd : decode s.cmdPort with
    | waiting => rw [hd] at h; cases h; exact .inl ⟨rfl, rfl, rfl⟩
    | instr i rest => rw [hd] at h; exact .inr (.inl ⟨i, rest, rfl, rfl, h⟩)
    | undefinedOp rest => rw [hd] at h; cases h; exact .inr (.inr (.inl ⟨rest, rfl, rfl, rfl⟩))
    | reservedArg o rest => rw [hd] at h; cases h; exact .inr (.inr (.inr ⟨o, rest, rfl, rfl, rfl⟩))

@[simp] theorem answerUndefinedOp_lifecycle (s : State) : (answerUndefinedOp s).lifecycle = s.lifecycle := by
  unfold answerUndefinedOp
  split <;> simp

@[simp] theorem answerReservedArg_lifecycle (o : Op) (s : State) : (answerReservedArg o s).lifecycle = s.lifecycle := by
  unfold answerReservedArg
  split <;> simp

/-- The transitions of `STATE` that R21 lists for commands: command `o`, answered with code `c`, takes `s` to `t`. -/
def RuleTransition (o : Op) (c : Code) (s t : State) : Prop :=
  (s.lifecycle = .idle ∧ t.lifecycle = .created ∧ o = .create ∧ c = .ok) ∨
  (s.lifecycle = .created ∧ t.lifecycle = .encoding ∧ o = .beginImage ∧ c = .ok) ∨
  (s.lifecycle = .encoding ∧ t.lifecycle = .created ∧ o = .endImage ∧ c = .ok) ∨
  (s.lifecycle = .encoding ∧ t.lifecycle = .created ∧ (o = .block ∨ o = .endImage) ∧
    (c = .eAlloc ∨ c = .eMalformed ∨ c = .eTransfer) ∧ t.bw.out = [] ∧ t.outValid = false ∧ t.blkDone = 0) ∨
  (s.lifecycle = .created ∧ t.lifecycle = .destroyed ∧ o = .destroy ∧ c = .ok)

/-- Giving up the image in flight is the fourth transition of the rule (R236). -/
theorem ruleTransition_discard {o : Op} {c : Code} {s : State} (hs : s.lifecycle = .encoding)
    (ho : o = .block ∨ o = .endImage) (hc : c = .eAlloc ∨ c = .eMalformed ∨ c = .eTransfer) :
    RuleTransition o c s (fail o c (discard s)) :=
  .inr (.inr (.inr (.inl ⟨hs, by simp, ho, hc, by simp, by simp, by simp⟩)))

/-- A command that its own rule runs, where it is legal, changes `STATE` only as R21 lists. -/
theorem ownRule_transition {i : Instr} {s t : State} (hl : legal i.op s = true) (h : ownRule i s = .next t)
    (hne : s.lifecycle ≠ t.lifecycle) :
    ∃ r : Response, t.respPort = s.respPort ++ [r] ∧ RuleTransition i.op r.code s t := by
  cases i with
  | wrcfg x reg v =>
    rcases ruleWrcfg_cases reg v.w s with ⟨_, _, h'⟩ | ⟨_, h'⟩ <;> rw [ownRule, h'] at h <;> cases h <;> simp at hne
  | rdreg x reg =>
    rcases ruleRdreg_cases reg s with ⟨_, _, h'⟩ | ⟨_, h'⟩ <;> rw [ownRule, h'] at h <;> cases h <;> simp at hne
  | create x =>
    rcases ruleCreate_cases s with ⟨_, _, h'⟩ | ⟨_, _, h'⟩ | ⟨_, h'⟩ <;> rw [ownRule, h'] at h <;> cases h
    · exact ⟨_, succeed_respPort _ _ _, .inl ⟨beq_iff_eq.mp hl, by simp, rfl, rfl⟩⟩
    · simp at hne
    · simp at hne
  | beginImage x =>
    have hs : s.lifecycle = .created := beq_iff_eq.mp hl
    rcases ruleBegin_cases s with ⟨w, _, h'⟩ | ⟨_, h'⟩ <;> rw [ownRule, h'] at h <;> cases h
    · exact ⟨_, succeed_respPort _ _ _, .inr (.inl ⟨hs, by simp, rfl, rfl⟩)⟩
    · simp [hs] at hne
  | block x p =>
    have hs : s.lifecycle = .encoding := beq_iff_eq.mp hl
    rcases ruleBlock_cases p s with ⟨_, h'⟩ | ⟨_, _, h'⟩ | ⟨_, _, _, h'⟩ | ⟨_, _, _, h'⟩ <;> rw [ownRule, h'] at h
    · cases h; exact ⟨_, fail_respPort _ _ _, ruleTransition_discard hs (.inl rfl) (.inr (.inl rfl))⟩
    · cases h
    · cases h
    · rcases codeBlock_cases (nextComponent s) s (runStages p (roleOf (nextComponent s)) s) with
        ⟨_, _, _, _, h''⟩ | ⟨_, _, _, h''⟩ | ⟨_, h''⟩ <;> rw [h''] at h <;> cases h
      · simp at hne
      · exact ⟨_, fail_respPort _ _ _, ruleTransition_discard hs (.inl rfl) (.inl rfl)⟩
  | endImage x =>
    have hs : s.lifecycle = .encoding := beq_iff_eq.mp hl
    rcases ruleEnd_cases s with ⟨w, _, _, h'⟩ | ⟨_, _, h'⟩ | ⟨_, h'⟩ <;> rw [ownRule, h'] at h <;> cases h
    · exact ⟨_, succeed_respPort _ _ _, .inr (.inr (.inl ⟨hs, by simp, rfl, rfl⟩))⟩
    · exact ⟨_, fail_respPort _ _ _, ruleTransition_discard hs (.inr rfl) (.inl rfl)⟩
    · exact ⟨_, fail_respPort _ _ _, ruleTransition_discard hs (.inr rfl) (.inr (.inl rfl))⟩
  | destroy x =>
    cases h
    exact ⟨_, succeed_respPort _ _ _, .inr (.inr (.inr (.inr ⟨beq_iff_eq.mp hl, by simp, rfl, rfl⟩)))⟩
  | rdout x a =>
    rcases ruleRdout_cases a.w s with ⟨_, _, h'⟩ | ⟨_, h'⟩ <;> rw [ownRule, h'] at h <;> cases h <;> simp at hne

/-- A command changes `STATE` only as R21 lists: the front end itself changes it only where a transfer error in a `BLOCK`
discards the image (R233). -/
theorem exec_transition {i : Instr} {s t : State} (h : exec i s = .next t) (hne : s.lifecycle ≠ t.lifecycle) :
    ∃ r : Response, t.respPort = s.respPort ++ [r] ∧ RuleTransition i.op r.code s t := by
  rw [exec_eq_gate] at h
  rcases gate_cases i.op (anyXerr (encode i)) s (ownRule i) with
    ⟨-, h'⟩ | ⟨-, -, hb, hs, h'⟩ | ⟨-, -, -, h'⟩ | ⟨-, -, -, h'⟩ | ⟨hl, -, h'⟩ <;> rw [h'] at h
  · cases h; simp at hne
  · cases h; exact ⟨_, fail_respPort _ _ _, ruleTransition_discard hs (.inl hb) (.inr (.inr rfl))⟩
  · cases h; simp at hne
  · cases h; simp at hne
  · exact ownRule_transition hl h hne

/-- Settles O49: of all a step can do, only reset and a command change `STATE`, and a command only by a transition of R21. -/
theorem lifecycleTransitions : Obligations.LifecycleTransitions := by
  intro s t h hne
  rcases step_cases h with ⟨hr, rfl⟩ | ⟨-, -, rfl⟩ | ⟨i, rest, -, hd, he⟩ | ⟨rest, -, -, rfl⟩ | ⟨o, rest, -, -, rfl⟩
  · exact .inl ⟨hr, rfl⟩
  · exact absurd rfl hne
  · obtain ⟨r, hresp, htrans⟩ := exec_transition he hne
    exact .inr ⟨i, rest, r, encode_of_decode hd, hresp, htrans⟩
  · simp at hne
  · simp at hne

end Sys2Proof.Machine
end

section
/-! The length of a command and everything the decoder can answer (R73). -/

namespace Sys2Proof

theorem commandLength_of_some {w : Word} {o : Op} (ho : opOfCode (opField w) = some o) :
    commandLength w = payloadLength o + 1 := by
  simp [commandLength, ho]

theorem commandLength_of_none {w : Word} (ho : opOfCode (opField w) = none) : commandLength w = 1 := by
  simp [commandLength, ho]

/-- The length table of R73. -/
theorem commandLength_eq_table (w : Word) :
    commandLength w = if opField w = 0x01 ∨ opField w = 0x20 then 2 else if opField w = 0x12 then 17 else 1 := by
  cases ho : opOfCode (opField w) with
  | some o =>
    rw [commandLength_of_some ho, opOfCode_eq_some.mp ho]
    cases o <;> rfl
  | none =>
    have hne := opOfCode_eq_none.mp ho
    have h1 : opField w ≠ 0x01 := hne .wrcfg
    have h20 : opField w ≠ 0x20 := hne .rdout
    have h12 : opField w ≠ 0x12 := hne .block
    simp only [commandLength_of_none ho, h1, h20, h12, or_self, if_false]

/-- A row whose payload has arrived builds a command, and takes exactly that payload (R74). -/
theorem exists_buildInstr_eq_instr {o : Op} {ps : List CmdWord} (h : CmdWord) (hl : payloadLength o ≤ ps.length) :
    ∃ i, buildInstr o h ps = .instr i (ps.drop (payloadLength o)) := by
  cases o with
  | wrcfg =>
    cases ps with
    | nil => cases hl
    | cons v ps => exact ⟨_, rfl⟩
  | rdreg => exact ⟨_, rfl⟩
  | create => exact ⟨_, rfl⟩
  | beginImage => exact ⟨_, rfl⟩
  | block => exact ⟨_, dif_pos hl⟩
  | endImage => exact ⟨_, rfl⟩
  | destroy => exact ⟨_, rfl⟩
  | rdout =>
    cases ps with
    | nil => cases hl
    | cons a ps => exact ⟨_, rfl⟩

/-- Everything the decoder can answer to a head word and the words after it (R73, R75). -/
theorem decode_cons_cases (h : CmdWord) (ps : List CmdWord) :
    (opOfCode (opField h.w) = none ∧ decode (h :: ps) = .undefinedOp ps) ∨
    ∃ o, opOfCode (opField h.w) = some o ∧
      ((ps.length < payloadLength o ∧ decode (h :: ps) = .waiting) ∨
       (payloadLength o ≤ ps.length ∧ h.w &&& opMask o = opMatch o ∧
         ∃ i, decode (h :: ps) = .instr i (ps.drop (payloadLength o))) ∨
       (payloadLength o ≤ ps.length ∧ h.w &&& opMask o ≠ opMatch o ∧
         decode (h :: ps) = .reservedArg o (ps.drop (payloadLength o)))) := by
  cases ho : opOfCode (opField h.w) with
  | none => exact .inl ⟨rfl, by simp [decode, ho]⟩
  | some o =>
    refine .inr ⟨o, rfl, ?_⟩
    by_cases hl : ps.length < payloadLength o
    · exact .inl ⟨hl, by simp [decode, ho, hl]⟩
    · have hge : payloadLength o ≤ ps.length := Nat.le_of_not_lt hl
      by_cases hm : h.w &&& opMask o = opMatch o
      · obtain ⟨i, hi⟩ := exists_buildInstr_eq_instr h hge
        exact .inr (.inl ⟨hge, hm, i, by simp [decode, ho, hl, hm, hi]⟩)
      · exact .inr (.inr ⟨hge, hm, by simp [decode, ho, hl, hm]⟩)

/-- Settles O3: in each answer of the decoder, the row of `op` alone says whether it waits and how many words it takes. -/
theorem commandLengthFollowsOp : Obligations.CommandLengthFollowsOp := by
  intro h ps
  refine ⟨commandLength_eq_table h.w, ?_⟩
  rcases decode_cons_cases h ps with ⟨ho, hd⟩ | ⟨o, ho, ⟨hl, hd⟩ | ⟨hl, -, i, hd⟩ | ⟨hl, -, hd⟩⟩
  · simp [hd, commandLength_of_none ho]
  · simp [hd, commandLength_of_some ho, hl]
  · simp [hd, commandLength_of_some ho, hl]
  · simp [hd, commandLength_of_some ho, hl]

end Sys2Proof
end

section
/-! The quantization tables as functions of the quality (R91, R94). -/

namespace Sys2Proof.Machine

/-! ### The scale and one entry -/

theorem clamp_eq_max_min (v : Nat) {lo hi : Nat} (h : lo ≤ hi) : clamp v lo hi = max lo (min hi v) := by
  unfold clamp
  split_ifs <;> omega

theorem clamp_mono {v w lo hi : Nat} (hlo : lo ≤ hi) (h : v ≤ w) : clamp v lo hi ≤ clamp w lo hi := by
  rw [clamp_eq_max_min v hlo, clamp_eq_max_min w hlo]
  exact max_le_max le_rfl (min_le_min le_rfl h)

theorem qScale_le (q : Nat) : qScale q ≤ 5000 := by
  unfold qScale
  split_ifs
  · exact Nat.div_le_self 5000 q
  · omega

/-- The scale does not grow with the quality, also at the seam between its two formulas (R93). -/
theorem qScale_succ_le {q : Nat} (hq : 1 ≤ q) : qScale (q + 1) ≤ qScale q := by
  rcases Nat.lt_trichotomy q 49 with hlt | rfl | hgt
  · rw [qScale, if_pos (by omega), qScale, if_pos (by omega)]
    exact Nat.div_le_div_left (Nat.le_succ q) hq
  · decide
  · rw [qScale, if_neg (by omega), qScale, if_neg (by omega)]
    omega

/-- An entry follows the scale: multiplying, adding, dividing and clamping are all monotone. -/
theorem qEntry_le_of_qScale_le {q q' : Nat} (ref : Nat) (h : qScale q ≤ qScale q') : qEntry q ref ≤ qEntry q' ref :=
  clamp_mono (by omega) (Nat.div_le_div_right (Nat.add_le_add_right (Nat.mul_le_mul_left ref h) 50))

/-! ### The tables -/

/-- The largest reference entry is 121 (R92). -/
theorem refTable_le : ∀ (r : Role) (k : Fin 64), (refTable r)[k.val] ≤ 121 := by
  intro r
  cases r <;> decide

/-- No entry loses bits when it is stored in 8 bits (R32). -/
theorem buildTable_toNat (q : Nat) (r : Role) (k : Nat) (h : k < 64) :
    ((buildTable q r)[k]).toNat = qEntry q (refTable r)[k] := by
  have := qEntry_bounds q (refTable r)[k]
  rw [buildTable_getElem, BitVec.toNat_ofNat, Nat.mod_eq_of_lt (by omega)]

/-! ### The tables of a context -/

/-- A `CREATE` in `IDLE` that reaches `CREATED` is the successful one (R204). -/
theorem create_eq_succeed {s t : State} (hs : s.lifecycle = .idle) (h : exec (.create false) s = .next t)
    (ht : t.lifecycle = .created) : t = succeed .create (BitVec.ofNat 32 (totalBlocks s.cfg)) (createContext s) := by
  have hrun : exec (.create false) s = ruleCreate s := gate_run (beq_iff_eq.mpr hs)
  rcases ruleCreate_cases s with ⟨-, -, h'⟩ | ⟨-, -, h'⟩ | ⟨-, h'⟩ <;> rw [hrun, h'] at h <;> cases h
  · rfl
  · simp [hs] at ht
  · simp [hs] at ht

/-- Settles O29: the entry's formula read off `buildTable`, its monotonicity from that of the scale, and the tables of a context
from what `CREATE` builds. -/
theorem tablesFollowTheQuality : Obligations.TablesFollowTheQuality := by
  refine ⟨fun q r k _ _ => ?_, fun q r k hq _ => ?_, fun s s' t t' hs hs' hq h h' ht ht' => ?_⟩
  · have hscale : qScale q ≤ 5000 := qScale_le q
    have hmul : (refTable r)[k.val] * qScale q ≤ 121 * 5000 := Nat.mul_le_mul (refTable_le r k) hscale
    refine ⟨?_, hscale, Nat.add_le_add_right hmul 50, buildTable_bounds q r k.val k.isLt⟩
    rw [buildTable_toNat, qEntry, clamp_eq_max_min _ (by omega), qScale]
  · rw [buildTable_toNat, buildTable_toNat]
    exact qEntry_le_of_qScale_le _ (qScale_succ_le hq)
  · rw [create_eq_succeed hs h ht, create_eq_succeed hs' h' ht']
    simp [hq]

end Sys2Proof.Machine
end

section
/-! The bitstream writer: flushing, segments, and the stuffing of a finished stream (R104, R107, R110). -/

namespace Sys2Proof.Machine

/-! ### Flush -/

/-- The low bits of 0xFF are all 1. -/
theorem bitsOf_ff {n : Nat} (hn : n ≤ 8) : bitsOf 0xFF n = List.replicate n true := by
  interval_cases n <;> rfl

/-- What `flush` does when bits are pending: it writes exactly one data byte, the pending bits and 1-bits, and leaves nothing
pending (R104). -/
theorem flush_wrote {cap : Nat} {w w' : Writer} (h0 : w.nacc ≠ 0) (h : flush cap w = some w') :
    ∃ b : Byte, Wrote (List.replicate (8 - w.nacc.val) true) w w' [b] ∧ w'.nacc = 0 := by
  rw [flush_eq_putBits h0] at h
  obtain ⟨raw, hw⟩ := putBits_wrote h
  rw [bitsOf_ff (Nat.sub_le 8 _)] at hw
  have hl := hw.length
  have hn := w'.nacc.isLt
  rw [List.length_replicate] at hl
  obtain ⟨b, rfl⟩ := List.length_eq_one_iff.mp (show raw.length = 1 by omega)
  exact ⟨b, hw, Fin.ext (by simp at hl ⊢; omega)⟩

/-- Settles O42: with nothing pending `flush` does nothing; otherwise the one byte it writes is fixed by its bits. -/
theorem flushPadsWithOnes : Obligations.FlushPadsWithOnes := by
  intro cap w w' h
  by_cases h0 : w.nacc = 0
  · obtain rfl : w = w' := by simpa [flush_of_nacc_zero h0] using h
    exact ⟨h0, fun _ => rfl, fun hne => absurd h0 hne⟩
  · obtain ⟨b, hw, hn⟩ := flush_wrote h0 h
    refine ⟨hn, fun hz => absurd hz h0, fun _ => ⟨b, ?_, ?_⟩⟩
    · simpa [pendingBits, hn] using hw.bits.symm
    · rw [hw.bytes, stuffBytes_singleton]

/-! ### Segments -/

/-- A 16-bit field is its quotient and its remainder by 256 (R53 (c)). -/
theorem bigEndian16_eq_div_mod (n : Nat) : bigEndian16 n = [BitVec.ofNat 8 (n / 256), BitVec.ofNat 8 (n % 256)] := by
  have hlow : BitVec.ofNat 8 n = BitVec.ofNat 8 (n % 256) := BitVec.eq_of_toNat_eq (by simp)
  rw [bigEndian16, hlow]

/-- Settles O43: a segment is raw bytes, and raw bytes are appended as they are exactly when they fit. -/
theorem segmentsAreAppended : Obligations.SegmentsAreAppended := by
  intro cap m payload w
  have hbytes : segmentBytes (m, payload) = [0xFF, m, BitVec.ofNat 8 ((payload.length + 2) / 256),
      BitVec.ofNat 8 ((payload.length + 2) % 256)] ++ payload := by
    simp [segmentBytes, bigEndian16_eq_div_mod]
  have hlen : (segmentBytes (m, payload)).length = payload.length + 4 := length_segmentBytes _
  rw [putSegment_eq cap (m, payload) w, ← hbytes]
  constructor
  · intro hroom
    obtain ⟨w', hw'⟩ := putBytes_isSome (cap := cap) (bs := segmentBytes (m, payload)) (w := w) (by omega)
    have ha : Appended (segmentBytes (m, payload)) w w' := (putBytes_appended hw').1
    exact ⟨w', hw', ha.bytes, ha.acc, ha.nacc, ha.wf, fun a hlt hwf => ha.read hwf hlt⟩
  · intro hfull
    exact putBytes_eq_none (by omega) (by simp [hbytes])

/-! ### Stuffed data -/

/-- In stuffed data a zero byte stands after every 0xFF (R101). -/
theorem stuffBytes_getElem?_succ {raw : List Byte} {a : Nat} (h : (stuffBytes raw)[a]? = some 0xFF) :
    (stuffBytes raw)[a + 1]? = some 0x00 := by
  induction raw generalizing a with
  | nil => simp at h
  | cons b raw ih =>
    rw [← List.singleton_append, stuffBytes_append, stuffBytes_singleton] at h ⊢
    by_cases hb : b = 0xFF
    · rw [if_pos hb] at h ⊢
      match a with
      | 0 => rfl
      | 1 => simp at h
      | a + 2 => exact ih h
    · rw [if_neg hb] at h ⊢
      match a with
      | 0 => exact absurd (Option.some.inj h) hb
      | a + 1 => exact ih h

/-! ### The header's length -/

/-- A configuration whose geometry was checked has one component or three (R204 (c)). -/
theorem ncomp_of_geometryOk {cfg : Cfg} (h : geometryOk cfg = true) : cfg.ncomp = 1 ∨ cfg.ncomp = 3 := by
  simp only [geometryOk, Bool.and_eq_true, decide_eq_true_eq] at h
  obtain ⟨⟨⟨-, hn⟩, -⟩, -⟩ := h
  exact hn.imp BitVec.eq_of_toInt_eq BitVec.eq_of_toInt_eq

/-- The length of the header (R190). -/
theorem length_headerBytes {cfg : Cfg} (qt0 qt1 : Vector Byte 64) (hn : cfg.ncomp = 1 ∨ cfg.ncomp = 3) :
    (headerBytes cfg qt0 qt1).length = headerLength cfg := by
  have hdht : ∀ t, (dhtPayload t).length = if t = 0 ∨ t = 2 then 29 else 179 := by decide +kernel
  rcases hn with hn | hn <;>
    simp [headerBytes, headerSegments, length_segmentBytes, app0Payload, dqtPayload, sof0Payload, sosPayload, hdht, hn,
      bigEndian16, sof0Component, sosComponent, headerLength, List.range_succ]

/-! ### The finished stream -/

/-- From the end of the header on, a finished stream holds the stuffed scan data and the end-of-image marker (R110, R191). -/
theorem FinishedStream.read {s : State} {raw : List Byte} (hf : FinishedStream s raw) (hw : Memory.wf s.bw.out)
    (hl : (headerBytes s.cfg s.qt0 s.qt1).length = headerLength s.cfg) (i : Nat) :
    Memory.read s.bw.out (headerLength s.cfg + i) = (stuffBytes raw ++ [0xFF, 0xD9])[i]? := by
  obtain ⟨-, hb⟩ := hf
  rw [Memory.read_eq_getElem hw, hb, List.append_assoc, List.getElem?_append_right (by omega), hl, Nat.add_sub_cancel_left]

/-- The length of a finished stream: header, stuffed scan data, end-of-image marker (R191). -/
theorem FinishedStream.length {s : State} {raw : List Byte} (hf : FinishedStream s raw)
    (hl : (headerBytes s.cfg s.qt0 s.qt1).length = headerLength s.cfg) :
    s.bw.out.length = headerLength s.cfg + (stuffBytes raw).length + 2 := by
  obtain ⟨-, hb⟩ := hf
  rw [← Memory.length_bytes, hb, List.length_append, List.length_append, hl]
  rfl

/-- Settles O55: the scan data of the invariant is stuffed bytes between the header and the end marker. -/
theorem scanDataIsStuffed : Obligations.ScanDataIsStuffed := by
  intro s hs hv
  obtain ⟨hc, -, raw, hf⟩ := hs.valid hv
  obtain ⟨hg, -⟩ := hs.configured (.inl hc)
  have hl := length_headerBytes s.qt0 s.qt1 (ncomp_of_geometryOk hg)
  have hread := hf.read hs.memory hl
  have hpos : 0 < (stuffBytes raw).length := Nat.lt_of_lt_of_le (List.length_pos_iff.mpr hf.1) (le_length_stuffBytes raw)
  have hstop : s.bw.out.length - 2 = headerLength s.cfg + (stuffBytes raw).length := by rw [hf.length hl]; rfl
  simp only [hstop]
  refine ⟨by omega, by simp [hread], by simp [Nat.add_assoc, hread], fun a ha hlt hff => ?_⟩
  obtain ⟨i, rfl⟩ := Nat.exists_eq_add_of_le ha
  have hi : i < (stuffBytes raw).length := by omega
  rw [hread, List.getElem?_append_left hi] at hff
  have hzero := stuffBytes_getElem?_succ hff
  obtain ⟨hi', -⟩ := List.getElem?_eq_some_iff.mp hzero
  refine ⟨by omega, ?_⟩
  rw [Nat.add_assoc, hread, List.getElem?_append_left hi', hzero]

end Sys2Proof.Machine
end

section
/-! The transform: its exact sums, the one weight of each sample in each coefficient, and what the weights' symmetries give
(R124 to R127, R130). -/

namespace Sys2Proof.Machine

/-! ### The constants -/

theorem exactPosition_iff {v u : Fin 8} : exactPosition v u = true ↔ (v = 0 ∨ v = 4) ∧ (u = 0 ∨ u = 4) := by
  simp [exactPosition]

theorem exactPosition_comm (v u : Fin 8) : exactPosition v u = exactPosition u v := Bool.and_comm _ _

theorem abs_kRom_le : ∀ j i : Fin 8, |kRom j i| ≤ 32138 := by decide

theorem abs_sgRom_le : ∀ j i : Fin 8, |sgRom j i| ≤ 1 := by decide

/-- Every row of `K` but the first sums to 0 (R130 (a)). -/
theorem sum_kRom : ∀ j : Fin 8, j ≠ 0 → ∑ i, kRom j i = 0 := by decide

/-- So does `SG[4]` (R130 (a)). -/
theorem sum_sgRom : ∀ j : Fin 8, j ≠ 0 → ∑ i, sgRom j i = 0 := by decide

/-! ### No sum leaves its width -/

theorem abs_mul_le {a b m n : Int} (ha : |a| ≤ m) (hb : |b| ≤ n) : |a * b| ≤ m * n := by
  rw [abs_mul]
  exact mul_le_mul ha hb (abs_nonneg b) ((abs_nonneg a).trans ha)

theorem abs_sum8_le {f : Fin 8 → Int} {b : Int} (h : ∀ i, |f i| ≤ b) : |sum8 f| ≤ 8 * b := by
  have := sum8_bounds fun i => abs_le.mp (h i)
  exact abs_le.mpr (by omega)

theorem abs_levelShift_le (sb : Vector Byte 64) (k : Fin 64) : |levelShift sb k| ≤ 128 := by
  have := levelShift_bounds sb k
  exact abs_le.mpr (by omega)

/-- With the largest entry of `K` for every entry, a row sum still fits 26 bits. -/
theorem abs_rowSum_le (sb : Vector Byte 64) (y u : Fin 8) : |rowSum sb y u| ≤ 8 * (32138 * 128) :=
  abs_sum8_le fun x => abs_mul_le (abs_kRom_le u x) (abs_levelShift_le sb _)

/-- `TB` holds the row sums (R124). -/
theorem rowPass_toInt (sb : Vector Byte 64) (y u : Fin 8) : ((rowPass sb)[(ix y u).val]).toInt = rowSum sb y u := by
  have h := abs_le.mp (abs_rowSum_le sb y u)
  rw [rowPass_getElem, rowOf_ix, colOf_ix]
  exact toInt_ofInt_of_range (by norm_num; omega) (by norm_num; omega) (by norm_num)

/-- With the largest entry of `K` for every entry, a column sum still fits 44 bits. -/
theorem abs_colSum_le (sb : Vector Byte 64) (v u : Fin 8) :
    |colSum (rowPass sb) v u| ≤ 8 * (32138 * (8 * (32138 * 128))) :=
  abs_sum8_le fun y => abs_mul_le (abs_kRom_le v y) (by rw [rowPass_toInt]; exact abs_rowSum_le sb y u)

theorem abs_exactSum_le (sb : Vector Byte 64) (v u : Fin 8) : |exactSum sb v u| ≤ 2 ^ 29 * (8 * (8 * (1 * 1 * 128))) :=
  abs_mul_le (by norm_num) <| abs_sum8_le fun y => abs_sum8_le fun x =>
    abs_mul_le (abs_mul_le (abs_sgRom_le v y) (abs_sgRom_le u x)) (abs_levelShift_le sb _)

/-- `CB` holds the sums of the column pass (R125, R126). -/
theorem colPass_toInt (sb : Vector Byte 64) (v u : Fin 8) :
    ((colPass sb (rowPass sb))[(ix v u).val]).toInt =
      if exactPosition v u then exactSum sb v u else colSum (rowPass sb) v u := by
  rw [colPass_getElem, rowOf_ix, colOf_ix]
  split
  · have h := abs_le.mp (abs_exactSum_le sb v u)
    exact toInt_ofInt_of_range (by norm_num; omega) (by norm_num; omega) (by norm_num)
  · have h := abs_le.mp (abs_colSum_le sb v u)
    exact toInt_ofInt_of_range (by norm_num; omega) (by norm_num; omega) (by norm_num)

/-! ### The double sums -/

theorem rowSum_eq_sum (sb : Vector Byte 64) (y u : Fin 8) :
    rowSum sb y u = ∑ x, kRom u x * levelShift sb (ix y x) := sum8_eq_sum _

theorem exactSum_eq_sum (sb : Vector Byte 64) (v u : Fin 8) :
    exactSum sb v u = 2 ^ 29 * ∑ y, ∑ x, sgRom v y * sgRom u x * levelShift sb (ix y x) := by
  simp only [exactSum, sum8_eq_sum]

theorem colSum_eq_sum (tb : Vector (BitVec 26) 64) (v u : Fin 8) :
    colSum tb v u = ∑ y, kRom v y * (tb[(ix y u).val]).toInt := sum8_eq_sum _

/-- The two passes together are the double sum over the samples (R125). -/
theorem colSum_rowPass_eq_sum (sb : Vector Byte 64) (v u : Fin 8) :
    colSum (rowPass sb) v u = ∑ y, ∑ x, kRom v y * kRom u x * levelShift sb (ix y x) := by
  simp only [colSum_eq_sum, rowPass_toInt, rowSum_eq_sum, Finset.mul_sum, mul_assoc]

/-- Settles O31: every sum is stored without wrapping, and the two passes are one double sum. -/
theorem transformIsExact : Obligations.TransformIsExact := by
  intro sb v u
  refine ⟨⟨?_, ?_, fun h => ?_⟩, fun s hs => by rw [runTransform, hs]⟩
  · rw [rowPass_toInt, rowSum_eq_sum]; rfl
  · simp only [colPass_toInt, exactPosition_iff, exactSum_eq_sum, colSum_eq_sum]; rfl
  · rw [colPass_toInt, if_neg (mt exactPosition_iff.mp h), colSum_rowPass_eq_sum]; rfl

/-! ### The weight of a sample in a coefficient -/

/-- The weight of the shifted sample at row `y`, column `x` in `CB[8*v + u]`: the exact one at the four exact positions, the
product of two entries of `K` elsewhere (R125, R126). -/
def sampleWeight (v u y x : Fin 8) : Int := if exactPosition v u then 2 ^ 29 * (sgRom v y * sgRom u x) else kRom v y * kRom u x

/-- The transform is linear in the shifted samples (R130 (b)). -/
theorem colPass_eq_sum_sampleWeight (sb : Vector Byte 64) (v u : Fin 8) :
    ((colPass sb (rowPass sb))[(ix v u).val]).toInt = ∑ y, ∑ x, sampleWeight v u y x * levelShift sb (ix y x) := by
  rw [colPass_toInt]
  unfold sampleWeight
  split
  · simp only [exactSum_eq_sum, Finset.mul_sum, mul_assoc]
  · exact colSum_rowPass_eq_sum sb v u

theorem sampleWeight_comm (v u y x : Fin 8) : sampleWeight u v x y = sampleWeight v u y x := by
  simp only [sampleWeight, exactPosition_comm u v, mul_comm (sgRom u x), mul_comm (kRom u x)]

/-- Along a row of the block the weights of a horizontal frequency cancel (R130 (c)). -/
theorem sum_sampleWeight_row (v y : Fin 8) {u : Fin 8} (hu : u ≠ 0) : ∑ x, sampleWeight v u y x = 0 := by
  unfold sampleWeight
  split
  · rw [← Finset.mul_sum, ← Finset.mul_sum, sum_sgRom u hu, mul_zero, mul_zero]
  · rw [← Finset.mul_sum, sum_kRom u hu, mul_zero]

/-! ### Blocks with a symmetry -/

/-- A block that is constant along each of its rows has no horizontal frequency (R130 (c)). -/
theorem colPass_of_constant_rows {sb : Vector Byte 64} (h : ∀ y x : Fin 8, sb[(ix y x).val] = sb[(ix y 0).val])
    (v : Fin 8) {u : Fin 8} (hu : u ≠ 0) : ((colPass sb (rowPass sb))[(ix v u).val]).toInt = 0 := by
  rw [colPass_eq_sum_sampleWeight]
  refine Finset.sum_eq_zero fun y _ => ?_
  have hxs : ∀ x, levelShift sb (ix y x) = levelShift sb (ix y 0) := fun x => by simp only [levelShift, h y x]
  simp only [hxs]
  rw [← Finset.sum_mul, sum_sampleWeight_row v y hu, zero_mul]

/-- Transposing the block transposes the transform (R130 (d)). -/
theorem colPass_transpose {sb sb' : Vector Byte 64} (h : ∀ y x : Fin 8, sb'[(ix y x).val] = sb[(ix x y).val])
    (v u : Fin 8) : (colPass sb' (rowPass sb'))[(ix u v).val] = (colPass sb (rowPass sb))[(ix v u).val] := by
  have hxs : ∀ y x, levelShift sb' (ix y x) = levelShift sb (ix x y) := fun y x => by simp only [levelShift, h y x]
  apply BitVec.eq_of_toInt_eq
  rw [colPass_eq_sum_sampleWeight, colPass_eq_sum_sampleWeight, Finset.sum_comm]
  simp only [hxs, sampleWeight_comm v u]

/-- The block with rows and columns exchanged. -/
def transposeBlock (sb : Vector Byte 64) : Vector Byte 64 := Vector.ofFn fun k => sb[(ix (colOf k) (rowOf k)).val]

@[simp] theorem transposeBlock_getElem (sb : Vector Byte 64) (y x : Fin 8) :
    (transposeBlock sb)[(ix y x).val] = sb[(ix x y).val] := by simp [transposeBlock]

/-- A block that is constant along each of its columns has no vertical frequency: its transpose has no horizontal one. -/
theorem colPass_of_constant_columns {sb : Vector Byte 64} (h : ∀ y x : Fin 8, sb[(ix y x).val] = sb[(ix 0 x).val])
    {v : Fin 8} (u : Fin 8) (hv : v ≠ 0) : ((colPass sb (rowPass sb))[(ix v u).val]).toInt = 0 := by
  rw [← colPass_transpose (transposeBlock_getElem sb) v u]
  exact colPass_of_constant_rows (fun y x => by simpa using h x y) u hv

/-- The transform of a sum is the sum of the transforms (R130 (b)). -/
theorem colPass_add {sa sb sc : Vector Byte 64} (h : ∀ k, levelShift sc k = levelShift sa k + levelShift sb k) (v u : Fin 8) :
    ((colPass sc (rowPass sc))[(ix v u).val]).toInt =
      ((colPass sa (rowPass sa))[(ix v u).val]).toInt + ((colPass sb (rowPass sb))[(ix v u).val]).toInt := by
  simp only [colPass_eq_sum_sampleWeight, h, mul_add, Finset.sum_add_distrib]

/-! ### Flat blocks -/

/-- A flat block has its DC coefficient only (R130 (a)). -/
theorem colPass_of_flat {sb : Vector Byte 64} {a : Byte} (h : ∀ k : Fin 64, sb[k.val] = a) (v u : Fin 8) :
    ((colPass sb (rowPass sb))[(ix v u).val]).toInt = if v = 0 ∧ u = 0 then 2 ^ 32 * (8 * ((a.toNat : Int) - 128)) else 0 := by
  by_cases hu : u = 0
  · by_cases hv : v = 0
    · subst hu hv
      rw [colPass_toInt, if_pos (exactPosition_iff.mpr ⟨.inl rfl, .inl rfl⟩), exactSum_eq_sum]
      simp only [levelShift, h, sgRom, if_true, Finset.sum_const, Finset.card_univ, Fintype.card_fin, nsmul_eq_mul, and_self]
      ring
    · rw [if_neg fun h0 => hv h0.1]
      exact colPass_of_constant_columns (fun y x => (h _).trans (h _).symm) u hv
  · rw [if_neg fun h0 => hu h0.2]
    exact colPass_of_constant_rows (fun y x => (h _).trans (h _).symm) v hu

/-- Settles O33: the weights of a frequency cancel along a row, they are symmetric, and the transform is linear. -/
theorem flatAndTransposedBlocks : Obligations.FlatAndTransposedBlocks := by
  refine ⟨fun sb a h => ⟨colPass_of_flat h 0 0, fun k hk => ?_⟩, fun sb h v u hu => colPass_of_constant_rows h v hu,
    fun sb h v u hv => colPass_of_constant_columns h u hv, fun sb sb' h v u => colPass_transpose h v u,
    fun sa sb sc h k => ?_⟩
  · have hne : ¬(rowOf k = 0 ∧ colOf k = 0) := fun ⟨hr, hc⟩ => hk <| by rw [← ix_rowOf_colOf k, hr, hc]; rfl
    simpa [hne] using colPass_of_flat h (rowOf k) (colOf k)
  · simpa using colPass_add h (rowOf k) (colOf k)

end Sys2Proof.Machine
end

section
/-! Quantization: the range of every coefficient of the transform, and its quotient by the table entry (R126, R141, R142). -/

namespace Sys2Proof.Machine

/-! ### The range of a coefficient -/

/-- What the sizes of one row of `K` add up to. -/
theorem sum_abs_kRom_le : ∀ j : Fin 8, ∑ i, |kRom j i| ≤ 185363 := by decide

theorem sum_abs_mul_eq (f g : Fin 8 → Int) : ∑ y, ∑ x, |f y * g x| = (∑ y, |f y|) * ∑ x, |g x| := by
  simp only [abs_mul, Finset.sum_mul_sum]

/-- The sizes of all weights of a coefficient add up to at most 8 * 2^32, which is what they are at an exact position (R126). -/
theorem sum_abs_sampleWeight_le (v u : Fin 8) : ∑ y, ∑ x, |sampleWeight v u y x| ≤ 8 * 2 ^ 32 := by
  unfold sampleWeight
  split
  · have hterm : ∀ y x, |(2 : Int) ^ 29 * (sgRom v y * sgRom u x)| ≤ 2 ^ 29 * (1 * 1) := fun y x =>
      abs_mul_le (by norm_num) (abs_mul_le (abs_sgRom_le v y) (abs_sgRom_le u x))
    calc ∑ y, ∑ x, |(2 : Int) ^ 29 * (sgRom v y * sgRom u x)|
      _ ≤ ∑ _y : Fin 8, ∑ _x : Fin 8, (2 : Int) ^ 29 * (1 * 1) :=
        Finset.sum_le_sum fun y _ => Finset.sum_le_sum fun x _ => hterm y x
      _ = 8 * 2 ^ 32 := by simp
  · calc ∑ y, ∑ x, |kRom v y * kRom u x|
      _ = (∑ y, |kRom v y|) * ∑ x, |kRom u x| := sum_abs_mul_eq _ _
      _ ≤ 185363 * 185363 :=
        mul_le_mul (sum_abs_kRom_le v) (sum_abs_kRom_le u) (Finset.sum_nonneg fun _ _ => abs_nonneg _) (by norm_num)
      _ ≤ 8 * 2 ^ 32 := by norm_num

/-- The weights of every coefficient but the DC one cancel (R130 (a)). -/
theorem sum_sampleWeight {v u : Fin 8} (h : ¬(v = 0 ∧ u = 0)) : ∑ y, ∑ x, sampleWeight v u y x = 0 := by
  by_cases hu : u = 0
  · have hv : v ≠ 0 := fun hv => h ⟨hv, hu⟩
    rw [Finset.sum_comm]
    refine Finset.sum_eq_zero fun x _ => ?_
    simp only [← sampleWeight_comm v u]
    exact sum_sampleWeight_row u x hv
  · exact Finset.sum_eq_zero fun y _ => sum_sampleWeight_row v y hu

theorem abs_two_mul_levelShift_add_one_le (sb : Vector Byte 64) (k : Fin 64) : |2 * levelShift sb k + 1| ≤ 255 := by
  have := levelShift_bounds sb k
  exact abs_le.mpr (by omega)

/-- Every coefficient but the DC one is within 1020 * 2^32 of 0 (R126). Because its weights cancel, each shifted sample can be
moved by one half, to the symmetric range from -127.5 to 127.5; the proof doubles both sides. -/
theorem abs_colPass_ac_le (sb : Vector Byte 64) {v u : Fin 8} (h : ¬(v = 0 ∧ u = 0)) :
    |((colPass sb (rowPass sb))[(ix v u).val]).toInt| ≤ 1020 * 2 ^ 32 := by
  have hcentred : 2 * ((colPass sb (rowPass sb))[(ix v u).val]).toInt =
      ∑ y, ∑ x, sampleWeight v u y x * (2 * levelShift sb (ix y x) + 1) := by
    have hzero := sum_sampleWeight h
    simp only [mul_add, mul_one, Finset.sum_add_distrib, hzero, add_zero, colPass_eq_sum_sampleWeight, Finset.mul_sum]
    simp only [mul_left_comm]
  have hbound : |2 * ((colPass sb (rowPass sb))[(ix v u).val]).toInt| ≤ 8 * 2 ^ 32 * 255 := by
    rw [hcentred]
    calc |∑ y, ∑ x, sampleWeight v u y x * (2 * levelShift sb (ix y x) + 1)|
      _ ≤ ∑ y, ∑ x, |sampleWeight v u y x * (2 * levelShift sb (ix y x) + 1)| :=
        (Finset.abs_sum_le_sum_abs _ _).trans (Finset.sum_le_sum fun y _ => Finset.abs_sum_le_sum_abs _ _)
      _ ≤ ∑ y, ∑ x, |sampleWeight v u y x| * 255 :=
        Finset.sum_le_sum fun y _ => Finset.sum_le_sum fun x _ =>
          abs_mul_le le_rfl (abs_two_mul_levelShift_add_one_le sb _)
      _ = (∑ y, ∑ x, |sampleWeight v u y x|) * 255 := by simp only [Finset.sum_mul]
      _ ≤ 8 * 2 ^ 32 * 255 := Int.mul_le_mul_of_nonneg_right (sum_abs_sampleWeight_le v u) (by norm_num)
  rw [abs_le] at hbound ⊢
  omega

/-! ### The quotient -/

/-- `rhaz` as sign and size (R141). -/
theorem rhaz_eq_sign_mul (n : Int) {d : Nat} (hd : 0 < d) :
    rhaz n d = n.sign * (((2 * n.natAbs + d) / (2 * d) : Nat) : Int) := by
  unfold rhaz
  rcases lt_trichotomy n 0 with hn | rfl | hn
  · rw [if_neg (by omega), Int.sign_eq_neg_one_of_neg hn, show (-n).toNat = n.natAbs by omega, neg_one_mul]
  · simp [Nat.div_eq_of_lt (show d < 2 * d by omega)]
  · rw [if_pos hn.le, Int.sign_eq_one_of_pos hn, show n.toNat = n.natAbs by omega, one_mul]

theorem divisor_pos {q : Byte} (hq : q ≠ 0) : 0 < q.toNat * 2 ^ 32 :=
  Nat.mul_pos (toNat_pos_of_ne_zero hq) (by norm_num)

/-- Division by a table entry leaves a coefficient within the whole numbers around 0 that it lies between (R142). -/
theorem quantizeOne_bounds {c : BitVec 44} {q : Byte} {lo hi : Int} (hq : q ≠ 0) (hlo : lo ≤ 0) (hhi : 0 ≤ hi)
    (h : lo * 2 ^ 32 ≤ c.toInt ∧ c.toInt ≤ hi * 2 ^ 32) : lo ≤ quantizeOne c q ∧ quantizeOne c q ≤ hi := by
  have hq1 : (1 : Int) ≤ (q.toNat : Int) := by exact_mod_cast toNat_pos_of_ne_zero hq
  exact ⟨le_rhaz (divisor_pos hq) (by push_cast; nlinarith), rhaz_le (divisor_pos hq) (by push_cast; nlinarith)⟩

theorem quantizeOne_dc_bounds (sb : Vector Byte 64) {q : Byte} (hq : q ≠ 0) :
    -1024 ≤ quantizeOne (colPass sb (rowPass sb))[0] q ∧ quantizeOne (colPass sb (rowPass sb))[0] q ≤ 1016 := by
  obtain ⟨hc, hlo, hhi⟩ := colPass_zero sb
  exact quantizeOne_bounds hq (by norm_num) (by norm_num) ⟨hlo.trans_eq hc.symm, hc.trans_le hhi⟩

theorem quantizeOne_ac_bounds (sb : Vector Byte 64) {q : Byte} (hq : q ≠ 0) {k : Fin 64} (hk : k ≠ 0) :
    -1020 ≤ quantizeOne (colPass sb (rowPass sb))[k.val] q ∧ quantizeOne (colPass sb (rowPass sb))[k.val] q ≤ 1020 := by
  have hne : ¬(rowOf k = 0 ∧ colOf k = 0) := fun ⟨hr, hc⟩ => hk <| by rw [← ix_rowOf_colOf k, hr, hc]; rfl
  have hc := abs_le.mp (abs_colPass_ac_le sb hne)
  simp only [ix_rowOf_colOf] at hc
  exact quantizeOne_bounds hq (by norm_num) (by norm_num) (by omega)

/-- No quotient loses bits when it is stored in 12 bits (R142). -/
theorem quantize_toInt (sb : Vector Byte 64) {qt : Vector Byte 64} (hqt : ∀ k : Fin 64, qt[k.val] ≠ 0) (k : Fin 64) :
    ((quantize qt (colPass sb (rowPass sb)))[k.val]).toInt = quantizeOne (colPass sb (rowPass sb))[k.val] qt[k.val] := by
  have hrange : -1024 ≤ quantizeOne (colPass sb (rowPass sb))[k.val] qt[k.val] ∧
      quantizeOne (colPass sb (rowPass sb))[k.val] qt[k.val] ≤ 1020 := by
    by_cases hk : k = 0
    · subst hk
      obtain ⟨hlo, hhi⟩ := quantizeOne_dc_bounds sb (hqt 0)
      exact ⟨hlo, hhi.trans (by norm_num)⟩
    · obtain ⟨hlo, hhi⟩ := quantizeOne_ac_bounds sb (hqt k) hk
      exact ⟨le_trans (by norm_num) hlo, hhi⟩
  rw [quantize_getElem]
  exact toInt_ofInt_of_range (by norm_num; omega) (by norm_num; omega) (by norm_num)

/-- Settles O34: the quotient is `rhaz` by definition, and the ranges of R142 keep it from wrapping in 12 bits. -/
theorem quantizedCoefficients : Obligations.QuantizedCoefficients := by
  intro sb qt hqt k
  simp only [quantize_toInt sb hqt k]
  refine ⟨rfl, rhaz_eq_sign_mul _ (divisor_pos (hqt k)), ?_, fun hk => quantizeOne_ac_bounds sb (hqt k) hk⟩
  rintro rfl
  exact quantizeOne_dc_bounds sb (hqt 0)

end Sys2Proof.Machine
end

section
/-! Entropy coding: categories and value bits, and the calls of a block (R151, R152, R162). -/

namespace Sys2Proof.Machine

/-! ### Value bits -/

/-- A non-zero DC difference is the code of its category, then its value bits (R151 (b)). -/
theorem dcCalls_of_ne_zero (t : Fin 4) {v : Int} (h : v ≠ 0) :
    dcCalls t v = (symbolCall t (category v)).map fun c => [c, (valueBits v (category v), category v)] := by
  have hpos : category v > 0 := category_pos h
  simp only [dcCalls, if_pos hpos]

theorem valueBits_of_pos {v : Int} (h : 0 < v) (s : Nat) : (valueBits v s : Int) = v := by
  rw [valueBits, if_pos h, Int.toNat_of_nonneg h.le]

/-- A negative value's bits are the number `v + 2^s - 1`, which is not negative when the magnitude fits the category. -/
theorem valueBits_of_neg {v : Int} (h : v < 0) : (valueBits v (category v) : Int) = v + 2 ^ category v - 1 := by
  have hfit : (v.natAbs : Int) < 2 ^ category v := by exact_mod_cast (category_bounds h.ne).2
  rw [valueBits, if_neg (by omega), Int.toNat_of_nonneg (by omega)]

/-- The value bits of a negative value are the low bits of the value less 1 (R152). -/
theorem valueBits_of_neg_eq_emod {v : Int} (h : v < 0) :
    (valueBits v (category v) : Int) = (v - 1) % 2 ^ category v := by
  have hlt : (valueBits v (category v) : Int) < 2 ^ category v := by exact_mod_cast valueBits_lt h.ne
  have hsum : (valueBits v (category v) : Int) = (v - 1) + 2 ^ category v := by rw [valueBits_of_neg h]; ring
  calc (valueBits v (category v) : Int)
    _ = (valueBits v (category v) : Int) % 2 ^ category v := (Int.emod_eq_of_lt (Int.natCast_nonneg _) hlt).symm
    _ = (v - 1) % 2 ^ category v := by rw [hsum, Int.add_emod_right]

/-- The leading value bit of a negative value is 0 (R152). -/
theorem valueBits_lt_of_neg {v : Int} (h : v < 0) : valueBits v (category v) < 2 ^ (category v - 1) := by
  have hlow : ((2 ^ (category v - 1) : Nat) : Int) ≤ v.natAbs := by exact_mod_cast (category_bounds h.ne).1
  have hpow : (2 : Int) ^ category v = 2 * 2 ^ (category v - 1) :=
    (mul_pow_sub_one (Nat.one_le_iff_ne_zero.mp (category_pos h.ne)) 2).symm
  have hval := valueBits_of_neg h
  rw [Nat.cast_pow, Nat.cast_ofNat] at hlow
  have hlt : (valueBits v (category v) : Int) < 2 ^ (category v - 1) := by omega
  exact_mod_cast hlt

/-- Settles O36: the category's bounds place a positive value in the upper half of its category's numbers, and a negative value,
shifted by `2^s - 1`, in the lower half. -/
theorem categoryAndValueBits : Obligations.CategoryAndValueBits := by
  refine ⟨category_zero, fun t => rfl, fun v hv => ?_⟩
  obtain ⟨hlow, hhigh⟩ := category_bounds hv
  refine ⟨rfl, category_pos hv, hlow, hhigh, valueBits_lt hv, ?_, fun t => dcCalls_of_ne_zero t hv⟩
  split
  case isTrue hpos =>
    have hval := valueBits_of_pos hpos (category v)
    exact ⟨by omega, hval⟩
  case isFalse hneg =>
    have hlt : v < 0 := by omega
    exact ⟨valueBits_lt_of_neg hlt, valueBits_of_neg hlt, valueBits_of_neg_eq_emod hlt⟩

/-! ### The codes of a block -/

theorem exists_of_mem_acValues {zb : Vector (BitVec 12) 64} {v : Int} (h : v ∈ acValues zb) :
    ∃ z : Fin 64, z ≠ 0 ∧ (zb[z.val]).toInt = v := by
  obtain ⟨x, hx, rfl⟩ := List.mem_map.mp h
  obtain ⟨i, hi, rfl⟩ := List.mem_iff_getElem.mp hx
  have hi63 : i < 63 := by simpa using hi
  exact ⟨⟨i + 1, by omega⟩, by simp [Fin.ext_iff], by simp⟩

/-- A block has its calls when its DC difference and its AC values are in range (R162). -/
theorem blockCalls_isSome (r : Role) {pred : BitVec 12} {zb : Vector (BitVec 12) 64}
    (hdc : ((zb[0]).toInt - pred.toInt).natAbs ≤ 2040) (hac : ∀ z : Fin 64, z ≠ 0 → ((zb[z.val]).toInt).natAbs ≤ 1023) :
    ∃ cs, blockCalls r pred zb = some cs ∧ ∀ c ∈ cs, GoodCall c := by
  obtain ⟨dc, hdcs, hdcGood⟩ := dcCalls_isSome r hdc
  obtain ⟨ac, hacs, hacGood⟩ := acCalls_isSome r 0 (vs := acValues zb) fun v hv => by
    obtain ⟨z, hz, rfl⟩ := exists_of_mem_acValues hv
    exact hac z hz
  refine ⟨dc ++ ac, by simp only [blockCalls, hdcs, hacs], fun c hc => ?_⟩
  exact (List.mem_append.mp hc).elim (hdcGood c) (hacGood c)

/-- Settles O38: the ranges of R142 bound the categories, and the tables code every symbol within those bounds. -/
theorem everySymbolHasACode : Obligations.EverySymbolHasACode := by
  intro r pred zb hpred hpred' hdc hdc' hac
  have hdiff : ((zb[0]).toInt - pred.toInt).natAbs ≤ 2040 := by omega
  refine ⟨category_le_iff.mpr (hdiff.trans_lt (by norm_num)), fun z hz hne => ⟨category_pos hne, ?_⟩,
    fun run cat hrun h1 h10 => symbolCall_ac r hrun h1 h10, ?_⟩
  · exact category_le_iff.mpr ((hac z hz).trans_lt (by norm_num))
  · exact blockCalls_isSome r hdiff fun z hz => (hac z hz).trans (by norm_num)

end Sys2Proof.Machine
end

section
/-! The canonical Huffman codes, none of which begins with another, and what the four tables code (R153, R161). -/

namespace Sys2Proof.Machine

/-! ### Bit strings that begin with another -/

/-- The first bits of a number are the bits of its quotient by a power of two. -/
theorem take_bitsOf (v : Nat) {n m : Nat} (h : n ≤ m) : (bitsOf v m).take n = bitsOf (v / 2 ^ (m - n)) n := by
  simp only [bitsOf, ← List.map_take, List.take_range, min_eq_left h]
  refine List.map_congr_left fun i hi => ?_
  have hin : i < n := List.mem_range.mp hi
  rw [Nat.testBit_div_two_pow, show n - 1 - i + (m - n) = m - 1 - i by omega]

/-- A number that fits `n` bits is its `n` bits. -/
theorem bitsOf_injective {v w n : Nat} (hv : v < 2 ^ n) (hw : w < 2 ^ n) (h : bitsOf v n = bitsOf w n) : v = w := by
  refine Nat.eq_of_testBit_eq fun i => ?_
  rcases lt_or_ge i n with hi | hi
  · have hbit := congrArg (·[n - 1 - i]?) h
    simpa [bitsOf, show n - 1 - i < n by omega, show n - 1 - (n - 1 - i) = i by omega] using hbit
  · rw [Nat.testBit_lt_two_pow (hv.trans_le (Nat.pow_le_pow_right two_pos hi)),
      Nat.testBit_lt_two_pow (hw.trans_le (Nat.pow_le_pow_right two_pos hi))]

/-- A bit string begins with another only if the other's number is the quotient by the power of two of the bits that follow. -/
theorem eq_div_of_bitsOf_prefix {v w n m : Nat} (hv : v < 2 ^ n) (hw : w < 2 ^ m) (h : bitsOf v n <+: bitsOf w m) :
    n ≤ m ∧ v = w / 2 ^ (m - n) := by
  have hnm : n ≤ m := by simpa using h.length_le
  have hdiv : w / 2 ^ (m - n) < 2 ^ n := by
    rwa [Nat.div_lt_iff_lt_mul (by positivity), ← pow_add, Nat.add_sub_cancel' hnm]
  have htake : bitsOf v n = bitsOf (w / 2 ^ (m - n)) n := by
    rw [← take_bitsOf w hnm]; simpa using List.prefix_iff_eq_take.mp h
  exact ⟨hnm, bitsOf_injective hv hdiv htake⟩

/-! ### The canonical construction -/

/-- Canonical order (R153): `e'` is no shorter than `e`, and its leading bits are a greater number than the code of `e`. -/
def CanonicalBefore (e e' : HuffEntry) : Prop := e.len ≤ e'.len ∧ (e.code + 1) * 2 ^ (e'.len - e.len) ≤ e'.code

/-- Entries of one length take the codes from the given one up to the next free one, in order. -/
theorem assignLength_spec (len n code : Nat) (vals : List Byte) :
    code ≤ (assignLength len n code vals).2.1 ∧
    (∀ e ∈ (assignLength len n code vals).1,
      e.len = len ∧ code ≤ e.code ∧ e.code < (assignLength len n code vals).2.1) ∧
    (assignLength len n code vals).1.Pairwise CanonicalBefore := by
  induction n generalizing code vals with
  | zero => simp [assignLength]
  | succ n ih =>
    cases vals with
    | nil => simp [assignLength]
    | cons v vals =>
      obtain ⟨hnext, hmem, hpair⟩ := ih (code + 1) vals
      simp only [assignLength, List.forall_mem_cons, List.pairwise_cons]
      refine ⟨by omega, ⟨⟨trivial, le_rfl, hnext⟩, fun e he => ?_⟩, fun e he => ?_, hpair⟩
      · obtain ⟨hlen, hlow, hhigh⟩ := hmem e he
        exact ⟨hlen, by omega, hhigh⟩
      · obtain ⟨hlen, hlow, -⟩ := hmem e he
        simpa [CanonicalBefore, hlen] using hlow

/-- The first code of the next length continues the first free code of this one. -/
theorem two_mul_mul_two_pow_sub (c : Nat) {len m : Nat} (h : len + 1 ≤ m) :
    2 * c * 2 ^ (m - (len + 1)) = c * 2 ^ (m - len) := by
  rw [show m - len = m - (len + 1) + 1 by omega, pow_succ]; ring

/-- Codes assigned from length `len` on are at least that long, and their first `len` bits are at least the first free code. -/
theorem le_code_of_mem_assignCodes {bits : List Nat} {len code : Nat} {vals : List Byte} {e : HuffEntry}
    (h : e ∈ assignCodes bits len code vals) : len ≤ e.len ∧ code * 2 ^ (e.len - len) ≤ e.code := by
  induction bits generalizing len code vals with
  | nil => cases h
  | cons b bits ih =>
    obtain ⟨hnext, hmem, -⟩ := assignLength_spec len b code vals
    rcases List.mem_append.mp h with h | h
    · obtain ⟨rfl, hlow, -⟩ := hmem e h
      simpa using hlow
    · obtain ⟨hlen, hlow⟩ := ih h
      refine ⟨by omega, ?_⟩
      calc code * 2 ^ (e.len - len)
        _ ≤ (assignLength len b code vals).2.1 * 2 ^ (e.len - len) := Nat.mul_le_mul_right _ hnext
        _ = 2 * (assignLength len b code vals).2.1 * 2 ^ (e.len - (len + 1)) := (two_mul_mul_two_pow_sub _ hlen).symm
        _ ≤ e.code := hlow

/-- The construction lists its entries in canonical order, whatever the counts and the symbols (R153). -/
theorem assignCodes_pairwise (bits : List Nat) (len code : Nat) (vals : List Byte) :
    (assignCodes bits len code vals).Pairwise CanonicalBefore := by
  induction bits generalizing len code vals with
  | nil => exact .nil
  | cons b bits ih =>
    obtain ⟨-, hmem, hpair⟩ := assignLength_spec len b code vals
    refine List.pairwise_append.mpr ⟨hpair, ih _ _ _, fun e he e' he' => ?_⟩
    obtain ⟨rfl, -, hhigh⟩ := hmem e he
    obtain ⟨hlen, hlow⟩ := le_code_of_mem_assignCodes he'
    refine ⟨by omega, ?_⟩
    calc (e.code + 1) * 2 ^ (e'.len - e.len)
      _ ≤ (assignLength e.len b code vals).2.1 * 2 ^ (e'.len - e.len) := Nat.mul_le_mul_right _ hhigh
      _ = 2 * (assignLength e.len b code vals).2.1 * 2 ^ (e'.len - (e.len + 1)) := (two_mul_mul_two_pow_sub _ hlen).symm
      _ ≤ e'.code := hlow

/-! ### No code begins with another -/

/-- Neither code begins with the other. -/
def Incomparable (e e' : HuffEntry) : Prop :=
  ¬(bitsOf e.code e.len <+: bitsOf e'.code e'.len) ∧ ¬(bitsOf e'.code e'.len <+: bitsOf e.code e.len)

theorem incomparable_symm : Std.Symm Incomparable := ⟨fun _ _ => And.symm⟩

/-- Of two entries in canonical order whose codes fit, neither code begins with the other (R161 (a)). -/
theorem CanonicalBefore.incomparable {e e' : HuffEntry} (h : CanonicalBefore e e') (he : e.code < 2 ^ e.len)
    (he' : e'.code < 2 ^ e'.len) : Incomparable e e' := by
  obtain ⟨hlen, hcode⟩ := h
  refine ⟨fun hp => ?_, fun hp => ?_⟩
  · obtain ⟨-, hdiv⟩ := eq_div_of_bitsOf_prefix he he' hp
    have := (Nat.le_div_iff_mul_le (by positivity)).mpr hcode
    omega
  · obtain ⟨hlen', hdiv⟩ := eq_div_of_bitsOf_prefix he' he hp
    rw [le_antisymm hlen hlen'] at hcode hdiv
    simp only [Nat.sub_self, pow_zero, mul_one, Nat.div_one] at hcode hdiv
    omega

/-- No code of a table begins with another (R161 (a)). -/
theorem huffTable_prefixFree (t : Fin 4) {e e' : HuffEntry} (he : e ∈ huffTable t) (he' : e' ∈ huffTable t) (hne : e ≠ e') :
    ¬(bitsOf e.code e.len <+: bitsOf e'.code e'.len) := by
  have hfit : ∀ e ∈ huffTable t, e.code < 2 ^ e.len := fun e he => (huffTable_facts t e he).1
  have hpair : (huffTable t).Pairwise Incomparable :=
    (assignCodes_pairwise _ _ _ _).imp_of_mem fun ha hb hab => hab.incomparable (hfit _ ha) (hfit _ hb)
  have := incomparable_symm
  exact (hpair.forall he he' hne).1

/-! ### The tables -/

/-- No code is all ones, and the lengths are those of R161 (b), (c). -/
theorem huffTable_lengths : ∀ t : Fin 4, ∀ e ∈ huffTable t,
    e.code + 1 < 2 ^ e.len ∧ 2 ≤ e.len ∧ e.len ≤ (if t = 0 then 9 else if t = 2 then 11 else 16) := by decide +kernel

theorem huffTable_length : ∀ t : Fin 4, (huffTable t).length = if t = 0 ∨ t = 2 then 12 else 162 := by decide +kernel

/-- The tables hold no symbol but the 12 DC categories and the AC symbols (R161 (d)). -/
theorem huffTable_sym : ∀ t : Fin 4, ∀ e ∈ huffTable t,
    if t = 0 ∨ t = 2 then e.sym.toNat ≤ 11
    else e.sym.toNat = 0x00 ∨ e.sym.toNat = 0xF0 ∨ (e.sym.toNat < 256 ∧ 1 ≤ e.sym.toNat % 16 ∧ e.sym.toNat % 16 ≤ 10) := by
  decide +kernel

/-- Tables 0 and 2 are the DC tables, 1 and 3 the AC tables (R160). -/
theorem tableNumber_cases (t : Fin 4) :
    (t = 0 ∨ t = 2) ∧ (∃ r, tableNumber .dc r = t) ∨ ¬(t = 0 ∨ t = 2) ∧ ∃ r, tableNumber .ac r = t :=
  match t with
  | 0 => .inl ⟨by decide, .lum, rfl⟩
  | 1 => .inr ⟨by decide, .lum, rfl⟩
  | 2 => .inl ⟨by decide, .chrom, rfl⟩
  | 3 => .inr ⟨by decide, .chrom, rfl⟩

theorem huffCode_isSome_iff_symbolCall {t : Fin 4} {sym : Nat} :
    (huffCode t sym).isSome = true ↔ ∃ c, symbolCall t sym = some c := by
  rw [← Option.isSome_iff_exists, symbolCall, Option.isSome_map]

/-- An AC table has a code for each of its symbols (R161 (d)). -/
theorem symbolCall_of_acSymbol (r : Role) {sym : Nat}
    (h : sym = 0x00 ∨ sym = 0xF0 ∨ (sym < 256 ∧ 1 ≤ sym % 16 ∧ sym % 16 ≤ 10)) :
    ∃ c, symbolCall (tableNumber .ac r) sym = some c := by
  obtain ⟨hzrl, heob⟩ := symbolCall_zrl_eob r
  rcases h with rfl | rfl | ⟨hbyte, hpos, hle⟩
  · exact heob
  · exact hzrl
  · have hcall := symbolCall_ac r (show sym / 16 < 16 by omega) hpos hle
    rwa [Nat.div_add_mod'] at hcall

/-- Each table codes exactly its symbols (R161 (d)). -/
theorem huffCode_isSome_iff (t : Fin 4) (sym : Nat) : (huffCode t sym).isSome = true ↔
    if t = 0 ∨ t = 2 then sym ≤ 11
    else sym = 0x00 ∨ sym = 0xF0 ∨ (sym < 256 ∧ 1 ≤ sym % 16 ∧ sym % 16 ≤ 10) := by
  constructor
  · intro h
    obtain ⟨e, he, hsym⟩ := List.find?_isSome.mp h
    rw [← beq_iff_eq.mp hsym]
    exact huffTable_sym t e he
  · intro h
    rw [huffCode_isSome_iff_symbolCall]
    obtain ⟨hdc, r, rfl⟩ | ⟨hac, r, rfl⟩ := tableNumber_cases t
    · exact symbolCall_dc r sym (by rwa [if_pos hdc] at h)
    · exact symbolCall_of_acSymbol r (by rwa [if_neg hac] at h)

/-- Settles O37: canonical order keeps any code that fits from beginning with another; the lengths, and that no table holds another
symbol, are read off the tables. -/
theorem huffmanTables : Obligations.HuffmanTables := fun t =>
  ⟨fun _ he _ he' hne => huffTable_prefixFree t he he' hne, huffTable_lengths t, huffTable_length t,
    huffCode_isSome_iff t⟩

end Sys2Proof.Machine
end

section
/-! The table of legal states (R200 steps 1, 4, 5, R201). -/

namespace Sys2Proof.Machine

/-! ### What a command's own rule answers -/

/-- The codes that only the front end answers (R200 steps 1, 4, 5). -/
def Code.ofFrontEnd : Code → Bool
  | .eDestroyed | .eTransfer | .eState => true
  | .ok | .eAlloc | .eGeometry | .eMalformed | .eQuality | .eIllegal => false

/-- A command's own rule gives one response, and never with a code of the front end (R200 step 6). -/
theorem ownRule_respPort {i : Instr} {s t : State} (h : ownRule i s = .next t) :
    ∃ r : Response, t.respPort = s.respPort ++ [r] ∧ r.code.ofFrontEnd = false := by
  cases i with
  | wrcfg x reg v =>
    rcases ruleWrcfg_cases reg v.w s with ⟨_, _, h'⟩ | ⟨_, h'⟩ <;> rw [ownRule, h'] at h <;> cases h
    exacts [⟨_, succeed_respPort _ _ _, rfl⟩, ⟨_, fail_respPort _ _ _, rfl⟩]
  | rdreg x reg =>
    rcases ruleRdreg_cases reg s with ⟨_, _, h'⟩ | ⟨_, h'⟩ <;> rw [ownRule, h'] at h <;> cases h
    exacts [⟨_, succeed_respPort _ _ _, rfl⟩, ⟨_, fail_respPort _ _ _, rfl⟩]
  | create x =>
    rcases ruleCreate_cases s with ⟨_, _, h'⟩ | ⟨_, _, h'⟩ | ⟨_, h'⟩ <;> rw [ownRule, h'] at h <;> cases h
    exacts [⟨⟨.ok, _⟩, by rw [succeed_respPort, createContext_respPort], rfl⟩, ⟨_, fail_respPort _ _ _, rfl⟩,
      ⟨_, fail_respPort _ _ _, rfl⟩]
  | beginImage x =>
    rcases ruleBegin_cases s with ⟨_, _, h'⟩ | ⟨_, h'⟩ <;> rw [ownRule, h'] at h <;> cases h
    exacts [⟨_, succeed_respPort _ _ _, rfl⟩, ⟨_, fail_respPort _ _ _, rfl⟩]
  | block x p =>
    rcases ruleBlock_cases p s with ⟨_, h'⟩ | ⟨_, _, h'⟩ | ⟨_, _, _, h'⟩ | ⟨_, _, _, h'⟩ <;> rw [ownRule, h'] at h
    · cases h; exact ⟨_, fail_respPort _ _ _, rfl⟩
    · cases h
    · cases h
    · rcases codeBlock_cases (nextComponent s) s (runStages p (roleOf (nextComponent s)) s) with
        ⟨_, _, _, _, h''⟩ | ⟨_, _, _, h''⟩ | ⟨_, h''⟩ <;> rw [h''] at h <;> cases h
      exacts [⟨⟨.ok, _⟩, by rw [succeed_respPort, blockWith_respPort, runStages_respPort], rfl⟩,
        ⟨_, fail_respPort _ _ _, rfl⟩]
  | endImage x =>
    rcases ruleEnd_cases s with ⟨_, _, _, h'⟩ | ⟨_, _, h'⟩ | ⟨_, h'⟩ <;> rw [ownRule, h'] at h <;> cases h
    exacts [⟨_, succeed_respPort _ _ _, rfl⟩, ⟨_, fail_respPort _ _ _, rfl⟩, ⟨_, fail_respPort _ _ _, rfl⟩]
  | destroy x => cases h; exact ⟨_, succeed_respPort _ _ _, rfl⟩
  | rdout x a =>
    rcases ruleRdout_cases a.w s with ⟨_, _, h'⟩ | ⟨_, h'⟩ <;> rw [ownRule, h'] at h <;> cases h
    exacts [⟨_, succeed_respPort _ _ _, rfl⟩, ⟨_, fail_respPort _ _ _, rfl⟩]

/-! ### The table -/

theorem not_destroyed_iff (l : Lifecycle) : l ≠ .destroyed ↔ l = .idle ∨ l = .created ∨ l = .encoding := by
  cases l <;> decide

/-- With `RDREG` set aside, only `RDOUT` leaves `LAST_ERR` as it was (R27). -/
theorem fail_of_ne_rdreg {o : Op} (c : Code) (s : State) (h : o ≠ .rdreg) :
    fail o c s = { s with lastErr := if o = .rdout then s.lastErr else c, respPort := s.respPort ++ [⟨c, 0⟩] } := by
  cases o with
  | rdreg => exact absurd rfl h
  | _ => rfl

/-- Step 5 is the only step that answers `E_STATE`, and no legal command stops there (R200, R201). -/
theorem legal_eq_false_of_eState {i : Instr} {s t : State} {d : Word} (h : exec i s = .next t)
    (ht : t.respPort = s.respPort ++ [⟨.eState, d⟩]) : legal i.op s = false := by
  rw [exec_eq_gate] at h
  rcases gate_cases i.op (anyXerr (encode i)) s (ownRule i) with
    ⟨-, h'⟩ | ⟨-, -, -, -, h'⟩ | ⟨-, -, -, h'⟩ | ⟨-, -, hl, -⟩ | ⟨-, -, h'⟩
  · cases h.symm.trans h'; simp at ht
  · cases h.symm.trans h'; simp at ht
  · cases h.symm.trans h'; simp at ht
  · exact hl
  · rw [h'] at h
    obtain ⟨r, hr, hcode⟩ := ownRule_respPort h
    obtain rfl : r = ⟨.eState, d⟩ := by simpa [hr] using ht
    cases hcode

/-- Settles O12: the written table is `legal`; the front end answers an illegal command in steps 1 and 5, and nothing else answers
`E_STATE`. -/
theorem wrongStateIsRefused : Obligations.WrongStateIsRefused := by
  intro i s legalWhen
  have htable : legalWhen ↔ legal i.op s = true := by
    simp only [legalWhen]
    cases i.op with
    | rdreg => simp [legal, not_destroyed_iff]
    | rdout => simp [legal]
    | _ => exact beq_iff_eq.symm
  rw [htable]
  refine ⟨fun hd => ⟨fun hl => not_destroyed_of_legal hl hd, ?_⟩, fun hd hx hl => ?_, fun hl t d h ht => ?_⟩
  · rw [exec_eq_gate, gate_destroyed hd]
    rfl
  · have hread : i.op ≠ .rdreg := fun ho => hl (by rw [ho]; exact bne_iff_ne.mpr hd)
    rw [exec_eq_gate, hx, gate_state hd (Bool.eq_false_of_not_eq_true hl), fail_of_ne_rdreg _ _ hread]
  · rw [legal_eq_false_of_eState h ht] at hl
    cases hl

end Sys2Proof.Machine
end

section
/-! Transfer errors: what step 4 of R200 does, what alone answers so, and that the decoder does not see them (R71, R73, R233). -/

namespace Sys2Proof

/-! ### The decoder does not see the transfer-error bits -/

/-- The words of a command begin with a head word of its row (R72, R74). -/
theorem exists_encode_eq_cons (i : Instr) : ∃ x r ps, encode i = ⟨x, headWord i.op r⟩ :: ps := by
  cases i <;> exact ⟨_, _, _, rfl⟩

/-- A decoded command belongs to the row its head word's `op` selects (R75). -/
theorem opOfCode_of_decode {h : CmdWord} {ps rest : List CmdWord} {i : Instr} (hd : decode (h :: ps) = .instr i rest) :
    opOfCode (opField h.w) = some i.op := by
  obtain ⟨x, r, qs, he⟩ := exists_encode_eq_cons i
  have hwords := encode_of_decode hd
  rw [he] at hwords
  obtain ⟨rfl, -⟩ := List.cons.inj hwords
  rw [opField_headWord, opOfCode_opCode]

/-- Words that differ in transfer-error bits only get the same answer of the decoder, of the same row and length (R71, R73). -/
theorem decode_cases_of_map_w_eq {ws ws' : List CmdWord} (hw : ws.map CmdWord.w = ws'.map CmdWord.w) :
    (decode ws = .waiting ∧ decode ws' = .waiting) ∨
    (∃ rest rest', decode ws = .undefinedOp rest ∧ decode ws' = .undefinedOp rest' ∧ rest.length = rest'.length) ∨
    (∃ o rest rest', decode ws = .reservedArg o rest ∧ decode ws' = .reservedArg o rest' ∧ rest.length = rest'.length) ∨
    (∃ i i' rest rest', decode ws = .instr i rest ∧ decode ws' = .instr i' rest' ∧ i.op = i'.op ∧
      rest.length = rest'.length) := by
  match ws, ws', hw with
  | [], [], _ => exact .inl ⟨rfl, rfl⟩
  | h :: ps, h' :: ps', hw =>
    obtain ⟨hhead, hps⟩ := List.cons.inj hw
    have hlen : ps.length = ps'.length := by simpa using congrArg List.length hps
    have hdrop (n : Nat) : (ps.drop n).length = (ps'.drop n).length := by simp [hlen]
    have hcases' := decode_cons_cases h' ps'
    rw [← hhead, ← hlen] at hcases'
    rcases decode_cons_cases h ps with ⟨ho, hd⟩ | ⟨o, ho, ⟨hl, hd⟩ | ⟨hl, hm, i, hd⟩ | ⟨hl, hm, hd⟩⟩
    · have hd' : decode (h' :: ps') = .undefinedOp ps' := by simpa [ho] using hcases'
      exact .inr (.inl ⟨_, _, hd, hd', hlen⟩)
    · have hd' : decode (h' :: ps') = .waiting := by simpa [ho, hl, Nat.not_le.mpr hl] using hcases'
      exact .inl ⟨hd, hd'⟩
    · obtain ⟨i', hd'⟩ : ∃ i', decode (h' :: ps') = .instr i' (ps'.drop (payloadLength o)) := by
        simpa [ho, hm, hl, Nat.not_lt.mpr hl] using hcases'
      have hop : some i.op = some i'.op := by
        rw [← opOfCode_of_decode hd, ← opOfCode_of_decode hd', hhead]
      exact .inr (.inr (.inr ⟨_, _, _, _, hd, hd', Option.some.inj hop, hdrop _⟩))
    · have hd' : decode (h' :: ps') = .reservedArg o (ps'.drop (payloadLength o)) := by
        simpa [ho, hm, hl, Nat.not_lt.mpr hl] using hcases'
      exact .inr (.inr (.inl ⟨_, _, _, hd, hd', hdrop _⟩))

end Sys2Proof

namespace Sys2Proof.Machine

/-! ### What step 4 does, and what alone answers so -/

/-- The response joins the port with data 0; only the two reads leave `LAST_ERR` as it was (R27, R200). -/
theorem fail_eq_ite (o : Op) (c : Code) (s : State) :
    fail o c s = if o = .rdreg ∨ o = .rdout then { s with respPort := s.respPort ++ [⟨c, 0⟩] }
      else { s with lastErr := c, respPort := s.respPort ++ [⟨c, 0⟩] } := by
  cases o <;> rfl

/-- Step 4 is the only step that answers `E_TRANSFER`, and it is taken only for a transfer error (R200, R233). -/
theorem anyXerr_of_eTransfer {i : Instr} {s t : State} {d : Word} (h : exec i s = .next t)
    (ht : t.respPort = s.respPort ++ [⟨.eTransfer, d⟩]) : anyXerr (encode i) = true := by
  rw [exec_eq_gate] at h
  rcases gate_cases i.op (anyXerr (encode i)) s (ownRule i) with
    ⟨-, h'⟩ | ⟨-, hx, -⟩ | ⟨-, hx, -⟩ | ⟨-, -, -, h'⟩ | ⟨-, -, h'⟩
  · cases h.symm.trans h'; simp at ht
  · exact hx
  · exact hx
  · cases h.symm.trans h'; simp at ht
  · rw [h'] at h
    obtain ⟨r, hr, hcode⟩ := ownRule_respPort h
    obtain rfl : r = ⟨.eTransfer, d⟩ := by simpa [hr] using ht
    cases hcode

/-- Settles O11: step 4 of the front end is the whole answer to a transfer error and the only source of `E_TRANSFER`, and the
decoder's answer depends on the words without their transfer-error bits. -/
theorem transferErrors : Obligations.TransferErrors := by
  refine ⟨fun i s hd hx => ?_, fun _ _ _ _ h ht => anyXerr_of_eTransfer h ht, fun ws ws' hw => ?_⟩
  · rw [exec_eq_gate, hx]
    by_cases hb : i.op = .block ∧ s.lifecycle = .encoding
    · rw [if_pos hb, hb.1, gate_transfer_discard hb.2]
      rfl
    · rw [if_neg hb, gate_transfer hd hb, fail_eq_ite]
  · rcases decode_cases_of_map_w_eq hw with
      ⟨h, h'⟩ | ⟨_, _, h, h', hl⟩ | ⟨_, _, _, h, h', hl⟩ | ⟨_, _, _, _, h, h', ho, hl⟩ <;> rw [h, h']
    · trivial
    · exact hl
    · exact ⟨rfl, hl⟩
    · exact ⟨ho, hl⟩

end Sys2Proof.Machine
end

section
/-! Hardware reset: the step that obeys it, and the state it leads to (R34, R260, R261). -/

namespace Sys2Proof.Machine

/-- An asserted reset input comes before anything at the command port (R260). -/
theorem step_of_resetIn {s : State} (h : s.resetIn = true) : step s = .next (hardReset s) := if_pos h

/-- R34 holds after reset: there is no context, nothing is valid, and the output buffer and the counters are empty. -/
theorem resetWith_invariantR34 (cap : Word) : InvariantR34 (State.resetWith cap) where
  a := nofun
  b := nofun
  c _ := ⟨rfl, rfl, rfl⟩
  d := nofun
  e _ _ := rfl
  f := le_rfl

/-- `STATUS` reads 0 after reset: `IDLE` is coded 0 and `OUT_VALID` is clear (R26). -/
theorem resetWith_statusWord (cap : Word) : statusWord (State.resetWith cap) = 0 :=
  show (BitVec.ofBool false ++ Lifecycle.idle.toBits).setWidth 32 = 0 by decide

/-- Settles O9: the step is the reset of R260, which reads nothing of the state but its capacity; every value is then the one
`State.resetWith` gives, entry by entry in the tables and predictors. -/
theorem resetFromEveryState : Obligations.ResetFromEveryState := by
  intro s hreset
  have htables (k : Fin 64) : (hardReset s).qt0[k.val] = 0 ∧ (hardReset s).qt1[k.val] = 0 :=
    ⟨vec_getElem 0 k.val k.isLt, vec_getElem 0 k.val k.isLt⟩
  have hpred (c : Fin 3) : (hardReset s).pred[c.val] = 0 := vec_getElem 0 c.val c.isLt
  exact ⟨hardReset s, step_of_resetIn hreset, rfl, rfl, rfl, rfl, rfl, rfl, rfl, rfl, htables, hpred, rfl, rfl, rfl,
    hardReset_outCap s, resetWith_statusWord s.outCap, rfl, resetWith_invariantR34 s.outCap⟩

end Sys2Proof.Machine
end

section
/-! The decoder on the words of a command: decoding undoes encoding, a command has one encoding, and which head words are
refused (R72 to R78). -/

namespace Sys2Proof

/-! ### Decoding undoes encoding -/

/-- A head word of a row, with the payload of the row after it, is taken as a command of the row (R73, R75). -/
theorem decode_headWord_cons {o : Op} {r : Byte} (x : Bool) {ps : List CmdWord} (hr : r = 0 ∨ o = .wrcfg ∨ o = .rdreg)
    (hl : payloadLength o ≤ ps.length) : decode (⟨x, headWord o r⟩ :: ps) = buildInstr o ⟨x, headWord o r⟩ ps := by
  simp [decode, opOfCode_opCode, Nat.not_lt.mpr hl, headWord_and_opMask o r hr]

theorem decode_encode_append (i : Instr) (rest : List CmdWord) : decode (encode i ++ rest) = .instr i rest := by
  cases i with
  | wrcfg x reg v => exact (decode_headWord_cons x (by simp) (by simp [payloadLength])).trans (by simp [buildInstr])
  | rdreg x reg => exact (decode_headWord_cons x (by simp) (by simp [payloadLength])).trans (by simp [buildInstr])
  | create x => exact decode_headWord_cons x (.inl rfl) (Nat.zero_le _)
  | beginImage x => exact decode_headWord_cons x (.inl rfl) (Nat.zero_le _)
  | block x p => exact (decode_headWord_cons x (.inl rfl) (by simp [payloadLength])).trans (by simp [buildInstr, Vector.toList])
  | endImage x => exact decode_headWord_cons x (.inl rfl) (Nat.zero_le _)
  | destroy x => exact decode_headWord_cons x (.inl rfl) (Nat.zero_le _)
  | rdout x a => exact decode_headWord_cons x (.inl rfl) (by simp [payloadLength])

/-- Settles O1: the head word selects its row, and the row takes its operands from where the encoding put them. -/
theorem decodeOfEncodeIsTheCommand : Obligations.DecodeOfEncodeIsTheCommand := decode_encode_append

/-! ### One encoding -/

/-- A well-formed word list decodes, and nothing is left of it (R75). -/
theorem exists_decode_of_wellFormedWords {ws : List CmdWord} (h : wellFormedWords ws = true) :
    ∃ i, decode ws = .instr i [] := by
  cases ws with
  | nil => cases h
  | cons hd ps =>
    simp only [wellFormedWords] at h
    rcases decode_cons_cases hd ps with ⟨ho, -⟩ | ⟨o, ho, ⟨hl, -⟩ | ⟨hl, -, i, hi⟩ | ⟨-, hm, -⟩⟩ <;>
      simp only [ho, Bool.and_eq_true, beq_iff_eq] at h
    · cases h
    · omega
    · exact ⟨i, by rw [hi, ← h.1, List.drop_length]⟩
    · exact absurd h.2 hm

theorem wellFormed_instr (i : Instr) : wellFormedWords (encode i) = true := by
  cases i with
  | wrcfg x reg v => exact (Laws.WellFormedWords.wrcfg x reg v).1
  | rdreg x reg => exact (Laws.WellFormedWords.rdreg x reg).1
  | create x => exact (Laws.WellFormedWords.create x).1
  | beginImage x => exact (Laws.WellFormedWords.beginImage x).1
  | block x p => exact (Laws.WellFormedWords.block x p).1
  | endImage x => exact (Laws.WellFormedWords.endImage x).1
  | destroy x => exact (Laws.WellFormedWords.destroy x).1
  | rdout x a => exact (Laws.WellFormedWords.rdout x a).1

/-- A word that meets the match and mask of a row has the row's `op` (R75). -/
theorem opField_of_mask_eq_match {w : Word} {o : Op} (h : w &&& opMask o = opMatch o) : opField w = opCode o := by
  rw [mask_eq_match_iff.mp h, opField_headWord]

/-- Settles O2: the decoder reads its words backwards, well-formed words decode, and a row is known by its `op`. -/
theorem everyCommandHasOneEncoding : Obligations.EveryCommandHasOneEncoding := by
  refine ⟨fun _ _ _ h => encode_of_decode h, fun ws => ⟨fun h => ?_, ?_⟩, fun o o' w h h' => ?_⟩
  · obtain ⟨i, hi⟩ := exists_decode_of_wellFormedWords h
    exact ⟨i, by simpa using encode_of_decode hi⟩
  · rintro ⟨i, rfl⟩
    exact wellFormed_instr i
  · exact opCode_injective ((opField_of_mask_eq_match h).symm.trans (opField_of_mask_eq_match h'))

/-! ### Reserved head words -/

theorem headWord_toNat (o : Op) (r : Byte) : (headWord o r).toNat = (opCode o).toNat * 2 ^ 24 + r.toNat := by
  have hr := r.isLt
  simp only [headWord, BitVec.toNat_append, BitVec.ofNat_eq_ofNat, BitVec.toNat_ofNat, Nat.zero_mod, Nat.zero_shiftLeft, Nat.zero_or]
  rw [← Nat.shiftLeft_add_eq_or_of_lt (show r.toNat < 2 ^ (16 + 8) by omega), Nat.shiftLeft_eq]

/-- The fields of a head word determine it (R72). -/
theorem eq_headWord_iff {w : Word} {o : Op} {r : Byte} :
    w = headWord o r ↔ opField w = opCode o ∧ w.extractLsb' 8 16 = 0 ∧ regField w = r := by
  have hw := w.isLt
  have ho := (opCode o).isLt
  have hr := r.isLt
  simp only [← BitVec.toNat_inj, headWord_toNat, opField, regField, BitVec.extractLsb'_toNat, Nat.shiftRight_eq_div_pow,
    BitVec.ofNat_eq_ofNat, BitVec.toNat_ofNat]
  omega

/-- All of `arg` is 0 exactly when its reserved bits in format R and the register number are (R74). -/
theorem arg_eq_zero_iff {w : Word} : w.extractLsb' 0 24 = 0 ↔ w.extractLsb' 8 16 = 0 ∧ regField w = 0 := by
  simp only [← BitVec.toNat_inj, regField, BitVec.extractLsb'_toNat, Nat.shiftRight_eq_div_pow,
    BitVec.ofNat_eq_ofNat, BitVec.toNat_ofNat]
  omega

/-- A word with the `op` of a row meets the row's match and mask exactly when its reserved bits are 0: `arg[23:8]` in format R,
all of `arg` in the others (R74, R75). -/
theorem mask_eq_match_iff_reserved {w : Word} {o : Op} (ho : opField w = opCode o) :
    w &&& opMask o = opMatch o ↔ if hasRegister o then w.extractLsb' 8 16 = 0 else w.extractLsb' 0 24 = 0 := by
  rw [mask_eq_match_iff, eq_headWord_iff]
  cases hasRegister o <;> simp only [ho, arg_eq_zero_iff, Bool.false_eq_true, if_true, if_false, true_and, and_true]

/-- The two rows of format R. -/
theorem hasRegister_iff (o : Op) : hasRegister o = true ↔ opCode o ∈ ([0x01, 0x02] : List Byte) := by
  cases o <;> decide

/-- The other six rows. -/
theorem not_hasRegister_iff (o : Op) :
    hasRegister o = false ↔ opCode o ∈ ([0x10, 0x11, 0x12, 0x13, 0x14, 0x20] : List Byte) := by
  cases o <;> decide

/-- A word with the `op` of a row fails the row's match and mask exactly when it has a reserved bit, of the row's format (R74). -/
theorem reservedBit_iff {w : Word} {o : Op} (ho : opField w = opCode o) :
    ((opField w ∈ ([0x01, 0x02] : List Byte) ∧ w.extractLsb' 8 16 ≠ 0) ∨
      (opField w ∈ ([0x10, 0x11, 0x12, 0x13, 0x14, 0x20] : List Byte) ∧ w.extractLsb' 0 24 ≠ 0)) ↔
    w &&& opMask o ≠ opMatch o := by
  rw [ne_eq (w &&& opMask o), mask_eq_match_iff_reserved ho, ho, ← hasRegister_iff, ← not_hasRegister_iff]
  cases hasRegister o <;> simp

theorem opCode_mem_opcodes (o : Op) : opCode o ∈ ([0x01, 0x02, 0x10, 0x11, 0x12, 0x13, 0x14, 0x20] : List Byte) := by
  cases o <;> decide

/-- The eight defined values of `op` (R75). -/
theorem opOfCode_eq_none_iff_not_mem {b : Byte} :
    opOfCode b = none ↔ b ∉ ([0x01, 0x02, 0x10, 0x11, 0x12, 0x13, 0x14, 0x20] : List Byte) := by
  rw [opOfCode_eq_none]
  constructor
  · intro h hb
    simp only [List.mem_cons, List.not_mem_nil, or_false] at hb
    rcases hb with hb | hb | hb | hb | hb | hb | hb | hb
    exacts [h .wrcfg hb, h .rdreg hb, h .create hb, h .beginImage hb, h .block hb, h .endImage hb, h .destroy hb, h .rdout hb]
  · rintro h o rfl
    exact h (opCode_mem_opcodes o)

/-- Settles O4: in each answer of the decoder, the row of `op` and its reserved bits alone say which it is. -/
theorem reservedHeadWordsAreRefused : Obligations.ReservedHeadWordsAreRefused := by
  intro h ps hlen
  rcases decode_cons_cases h ps with ⟨ho, hd⟩ | ⟨o, ho, hrow⟩
  · have hnot := opOfCode_eq_none_iff_not_mem.mp ho
    refine ⟨by simpa [hd] using hnot, ?_, by simp [hd]⟩
    simp only [List.mem_cons, List.not_mem_nil, or_false, not_or] at hnot
    obtain ⟨h1, h2, h3, h4, h5, h6, h7, h8⟩ := hnot
    simp only [hd, reduceCtorEq, exists_false, List.mem_cons, List.not_mem_nil, h1, h2, h3, h4, h5, h6, h7, h8, or_self,
      false_and]
  · have hop := opOfCode_eq_some.mp ho
    rw [reservedBit_iff hop, ← opOfCode_eq_none_iff_not_mem, ho, hop]
    rcases hrow with ⟨hl, -⟩ | ⟨-, hm, i, hd⟩ | ⟨-, hm, hd⟩
    · rw [commandLength_of_some ho] at hlen; omega
    · simp [hd, hm]
    · simp [hd, hm]

/-! ### The samples of a payload -/

/-- Each byte of a packed word is one of the four samples, the first the least significant (R78). -/
theorem packSamples_bytes (s0 s1 s2 s3 : Byte) :
    (packSamples s0 s1 s2 s3).extractLsb' 0 8 = s0 ∧ (packSamples s0 s1 s2 s3).extractLsb' 8 8 = s1 ∧
    (packSamples s0 s1 s2 s3).extractLsb' 16 8 = s2 ∧ (packSamples s0 s1 s2 s3).extractLsb' 24 8 = s3 := by
  have hlow {m : Nat} (x : Byte) (y : BitVec m) (k : Nat) (h : k + 8 ≤ m) :
      (x ++ y).extractLsb' k 8 = y.extractLsb' k 8 := BitVec.extractLsb'_append_eq_of_add_le h
  have hhigh {m : Nat} (x : Byte) (y : BitVec m) : (x ++ y).extractLsb' m 8 = x :=
    BitVec.extractLsb'_append_eq_left
  refine ⟨?_, ?_, ?_, hhigh s3 _⟩
  · rw [packSamples, hlow _ _ 0 (by omega), hlow _ _ 0 (by omega), hlow _ _ 0 (by omega), BitVec.extractLsb'_eq_self]
  · rw [packSamples, hlow _ _ 8 (by omega), hlow _ _ 8 (by omega), hhigh]
  · rw [packSamples, hlow _ _ 16 (by omega), hhigh]

theorem samplesOf_packBlock_getElem (s : Vector Byte 64) (i : Fin 16) (j : Fin 4) :
    (Machine.samplesOf (packBlock s))[4 * i.val + j.val] = s[4 * i.val + j.val] := by
  have hdiv : (4 * i.val + j.val) / 4 = i.val := by omega
  have hmod : (4 * i.val + j.val) % 4 = j.val := by omega
  obtain ⟨h0, h1, h2, h3⟩ :=
    packSamples_bytes s[4 * i.val] s[4 * i.val + 1] s[4 * i.val + 2] s[4 * i.val + 3]
  have hword : (packBlock s)[i.val] =
      cleanWord (packSamples s[4 * i.val] s[4 * i.val + 1] s[4 * i.val + 2] s[4 * i.val + 3]) := by simp [packBlock]
  simp only [Machine.samplesOf_getElem, hdiv, hmod, hword, cleanWord]
  match j with
  | 0 => exact h0
  | 1 => exact h1
  | 2 => exact h2
  | 3 => exact h3

/-- Settles O6: byte `k % 4` of word `k / 4`, read and written. -/
theorem samplesArePackedLittleEndian : Obligations.SamplesArePackedLittleEndian := by
  refine ⟨fun p i j b => ?_, fun s => Vector.ext fun k hk => ?_⟩
  · have hdiv : (4 * i.val + j.val) / 4 = i.val := by omega
    have hmod : (4 * i.val + j.val) % 4 = j.val := by omega
    simp only [Machine.samplesOf_getElem, hdiv, hmod, BitVec.getLsbD_extractLsb', b.isLt, decide_true, Bool.true_and]
  · have h := samplesOf_packBlock_getElem s ⟨k / 4, by omega⟩ ⟨k % 4, by omega⟩
    simpa only [Nat.div_add_mod] using h

/-- Settles O5: each word list is decoded as the opcode map says. -/
theorem knownWordsDecode : Obligations.KnownWordsDecode := by
  unfold Obligations.KnownWordsDecode
  decide +kernel

end Sys2Proof
end

section
/-! One step: what it does in each answer of the decoder (R58, R200, R266), and `DESTROYED` (R235). -/

namespace Sys2Proof.Machine

/-! ### The answers of the decoder -/

theorem step_of_waiting {s : State} (hr : s.resetIn = false) (hd : decode s.cmdPort = .waiting) : step s = .next s := by
  simp [step, hr, hd]

theorem step_of_instr {s : State} {i : Instr} {rest : List CmdWord} (hr : s.resetIn = false)
    (hd : decode s.cmdPort = .instr i rest) : step s = exec i { s with cmdPort := rest } := by simp [step, hr, hd]

theorem step_of_undefinedOp {s : State} {rest : List CmdWord} (hr : s.resetIn = false)
    (hd : decode s.cmdPort = .undefinedOp rest) : step s = .next (answerUndefinedOp { s with cmdPort := rest }) := by
  simp [step, hr, hd]

theorem step_of_reservedArg {s : State} {o : Op} {rest : List CmdWord} (hr : s.resetIn = false)
    (hd : decode s.cmdPort = .reservedArg o rest) : step s = .next (answerReservedArg o { s with cmdPort := rest }) := by
  simp [step, hr, hd]

/-- Settles O7: the decoder finds the command whose words stand at the front. -/
theorem stepRunsTheDecodedCommand : Obligations.StepRunsTheDecodedCommand := by
  intro s i rest hr hport
  exact step_of_instr hr (by rw [hport, decode_encode_append])

/-- Settles O8: the decoder waits for the words the head word's `op` asks for. -/
theorem waitingChangesNothing : Obligations.WaitingChangesNothing := by
  rintro s hr (hport | ⟨h, ps, hport, hlen⟩)
  · exact step_of_waiting hr (by rw [hport]; rfl)
  · exact step_of_waiting hr (by rw [hport]; exact (commandLengthFollowsOp h ps).2.1.mpr hlen)

/-! ### Words that are no command -/

/-- Settles O13: the answers to an undefined `op` and to reserved bits, with the fields they write. -/
theorem illegalWordsAreAnswered : Obligations.IllegalWordsAreAnswered := by
  refine fun s rest hr => ⟨fun hd => ?_, fun o hd => ?_⟩
  · rw [step_of_undefinedOp hr hd]
    by_cases hl : s.lifecycle = .destroyed <;> simp only [answerUndefinedOp, hl, if_true, if_false] <;> rfl
  · rw [step_of_reservedArg hr hd]
    by_cases hl : s.lifecycle = .destroyed
    · simp only [answerReservedArg, hl, if_true]; rfl
    · simp only [answerReservedArg, hl, if_false, fail_eq_ite]

/-! ### `DESTROYED` -/

theorem exec_of_destroyed {i : Instr} {s : State} (hs : s.lifecycle = .destroyed) :
    exec i s = .next (answerDestroyed s) := by rw [exec_eq_gate, gate_destroyed hs]

/-- Every answer of the decoder but waiting takes at least the head word. -/
theorem decode_takes_words {ws : List CmdWord} :
    decode ws = .waiting ∨ ∃ rest, rest.length < ws.length ∧
      ((∃ i, decode ws = .instr i rest) ∨ decode ws = .undefinedOp rest ∨ ∃ o, decode ws = .reservedArg o rest) := by
  cases ws with
  | nil => exact .inl rfl
  | cons h ps =>
    have hdrop (n : Nat) : (ps.drop n).length < (h :: ps).length := by simp
    rcases decode_cons_cases h ps with ⟨-, hd⟩ | ⟨o, -, ⟨-, hd⟩ | ⟨-, -, i, hd⟩ | ⟨-, -, hd⟩⟩
    · exact .inr ⟨ps, by simp, .inr (.inl hd)⟩
    · exact .inl hd
    · exact .inr ⟨_, hdrop _, .inl ⟨i, hd⟩⟩
    · exact .inr ⟨_, hdrop _, .inr (.inr ⟨o, hd⟩)⟩

/-- Settles O10: whatever words the decoder takes, the answer is that of step 1 of R200. -/
theorem destroyedIsTerminal : Obligations.DestroyedIsTerminal := by
  intro s hs hr
  rcases decode_takes_words (ws := s.cmdPort) with hd | ⟨rest, hlen, ⟨i, hd⟩ | hd | ⟨o, hd⟩⟩
  · exact .inl ⟨hd, step_of_waiting hr hd⟩
  · exact .inr ⟨rest, (step_of_instr hr hd).trans (exec_of_destroyed hs), hlen⟩
  · exact .inr ⟨rest, by rw [step_of_undefinedOp hr hd, answerUndefinedOp, if_pos hs]; rfl, hlen⟩
  · exact .inr ⟨rest, by rw [step_of_reservedArg hr hd, answerReservedArg, if_pos hs]; rfl, hlen⟩

end Sys2Proof.Machine
end

section
/-! Everything a command can end with: one inductive predicate with a constructor for each kind of answer (R200, R236). -/

namespace Sys2Proof.Machine

/-- The successful end of a command's own rule: the data of its response and the state before the response (R202 to R210). -/
inductive Succeeds : Instr → State → Word → State → Prop
  | wrcfg {x : Bool} {reg : Byte} {v : CmdWord} {s : State} {cfg : Cfg} (h : writeCfg s.cfg reg v.w = some cfg) :
    Succeeds (.wrcfg x reg v) s 0 { s with cfg := cfg }
  | rdreg {x : Bool} {reg : Byte} {s : State} {v : Word} (h : readReg s reg = some v) : Succeeds (.rdreg x reg) s v s
  | create {x : Bool} {s : State} (hg : geometryOk s.cfg = true) (hq : qualityOk s.cfg = true) :
    Succeeds (.create x) s (BitVec.ofNat 32 (totalBlocks s.cfg)) (createContext s)
  | beginImage {x : Bool} {s : State} {w : Writer}
    (h : writeHeaders s.outCap.toNat s.cfg s.qt0 s.qt1 resetWriter = some w) :
    Succeeds (.beginImage x) s (BitVec.ofNat 32 w.out.length) (beginWith w s)
  | block {x : Bool} {p : Vector CmdWord 16} {s : State} {calls : List BitsCall} {w : Writer}
    (hlt : s.blkDone < s.blkTotal) (hz : ∀ k : Fin 64, (qtOf s (roleOf (nextComponent s)))[k.val] ≠ 0)
    (hc : blockCalls (roleOf (nextComponent s)) s.pred[nextComponent s]
      (runStages p (roleOf (nextComponent s)) s).zb = some calls)
    (hw : putCalls s.outCap.toNat calls s.bw = some w) :
    Succeeds (.block x p) s (s.blkDone + 1)
      (blockWith (nextComponent s) w (runStages p (roleOf (nextComponent s)) s))
  | endImage {x : Bool} {s : State} {w : Writer} (hd : s.blkDone = s.blkTotal)
    (hw : finalize s.outCap.toNat s.bw = some w) :
    Succeeds (.endImage x) s (BitVec.ofNat 32 w.out.length) (endWith w s)
  | destroy {x : Bool} {s : State} : Succeeds (.destroy x) s 0 (destroyContext s)
  | rdout {x : Bool} {a : CmdWord} {s : State} {b : Byte} (h : Memory.read s.bw.out a.w.toNat = some b) :
    Succeeds (.rdout x a) s (b.setWidth 32) s

/-- The codes of the failures that give up no image (R236). -/
def Code.keepsImage : Code → Bool
  | .eGeometry | .eTransfer | .eQuality | .eState | .eIllegal => true
  | .ok | .eAlloc | .eMalformed | .eDestroyed => false

/-- The failures that give up the image in flight (R236). -/
def Discards (o : Op) (c : Code) (s : State) : Prop :=
  (o = .block ∧ s.lifecycle = .encoding ∧ c = .eTransfer) ∨
  (legal o s = true ∧ (o = .beginImage ∨ o = .block ∨ o = .endImage) ∧ (c = .eAlloc ∨ c = .eMalformed))

/-- How a command can end (R200, R236). -/
inductive Ends (i : Instr) (s : State) : State → Prop
  | destroyed (hs : s.lifecycle = .destroyed) : Ends i s (respond .eDestroyed 0 s)
  | failed (c : Code) (hs : s.lifecycle ≠ .destroyed) (hc : c.keepsImage = true)
    (ht : ¬(c = .eTransfer ∧ i.op = .block ∧ s.lifecycle = .encoding)) : Ends i s (fail i.op c s)
  | discarded (c : Code) (h : Discards i.op c s) : Ends i s (fail i.op c (discard s))
  | succeeded (hl : legal i.op s = true) {d : Word} {u : State} (h : Succeeds i s d u) : Ends i s (succeed i.op d u)

/-- Everything a command's own rule can end with (R200 step 6). -/
theorem ends_of_ownRule {i : Instr} {s t : State} (hl : legal i.op s = true) (h : ownRule i s = .next t) : Ends i s t := by
  have hs := not_destroyed_of_legal hl
  have fails {c : Code} (hc : c.keepsImage = true) (ht : c ≠ .eTransfer) : Ends i s (fail i.op c s) :=
    .failed c hs hc fun ⟨he, _⟩ => ht he
  have discards {c : Code} (ho : i.op = .beginImage ∨ i.op = .block ∨ i.op = .endImage) (hc : c = .eAlloc ∨ c = .eMalformed) :
      Ends i s (fail i.op c (discard s)) := .discarded c (.inr ⟨hl, ho, hc⟩)
  cases i with
  | wrcfg x reg v =>
    rcases ruleWrcfg_cases reg v.w s with ⟨_, hc, h'⟩ | ⟨_, h'⟩ <;> rw [ownRule, h'] at h <;> cases h
    exacts [.succeeded hl (.wrcfg hc), fails rfl nofun]
  | rdreg x reg =>
    rcases ruleRdreg_cases reg s with ⟨_, hv, h'⟩ | ⟨_, h'⟩ <;> rw [ownRule, h'] at h <;> cases h
    exacts [.succeeded hl (.rdreg hv), fails rfl nofun]
  | create x =>
    rcases ruleCreate_cases s with ⟨hg, hq, h'⟩ | ⟨_, _, h'⟩ | ⟨_, h'⟩ <;> rw [ownRule, h'] at h <;> cases h
    exacts [.succeeded hl (.create hg hq), fails rfl nofun, fails rfl nofun]
  | beginImage x =>
    rcases ruleBegin_cases s with ⟨_, hw, h'⟩ | ⟨_, h'⟩ <;> rw [ownRule, h'] at h <;> cases h
    exacts [.succeeded hl (.beginImage hw), discards (.inl rfl) (.inl rfl)]
  | block x p =>
    rcases ruleBlock_cases p s with ⟨_, h'⟩ | ⟨_, _, h'⟩ | ⟨_, _, _, h'⟩ | ⟨hlt, _, hz, h'⟩ <;> rw [ownRule, h'] at h
    · cases h; exact discards (.inr (.inl rfl)) (.inr rfl)
    · cases h
    · cases h
    · rcases codeBlock_cases (nextComponent s) s (runStages p (roleOf (nextComponent s)) s) with
        ⟨_, w, hc, hw, h''⟩ | ⟨_, _, _, h''⟩ | ⟨_, h''⟩ <;> rw [h''] at h <;> cases h
      · simp only [runStages_pred, runStages_bw, runStages_outCap, runStages_blkDone] at hc hw ⊢
        exact .succeeded hl (.block hlt (hasZeroEntry_eq_false_iff.mp hz) hc hw)
      · exact discards (.inr (.inl rfl)) (.inl rfl)
  | endImage x =>
    rcases ruleEnd_cases s with ⟨_, hd, hw, h'⟩ | ⟨_, _, h'⟩ | ⟨_, h'⟩ <;> rw [ownRule, h'] at h <;> cases h
    exacts [.succeeded hl (.endImage hd hw), discards (.inr (.inr rfl)) (.inl rfl), discards (.inr (.inr rfl)) (.inr rfl)]
  | destroy x => cases h; exact .succeeded hl .destroy
  | rdout x a =>
    rcases ruleRdout_cases a.w s with ⟨_, hb, h'⟩ | ⟨_, h'⟩ <;> rw [ownRule, h'] at h <;> cases h
    exacts [.succeeded hl (.rdout hb), fails rfl nofun]

/-- Everything a command can end with. -/
theorem ends_of_exec {i : Instr} {s t : State} (h : exec i s = .next t) : Ends i s t := by
  rw [exec_eq_gate] at h
  rcases gate_cases i.op (anyXerr (encode i)) s (ownRule i) with
    ⟨hs, h'⟩ | ⟨-, -, ho, hs, h'⟩ | ⟨hs, -, hb, h'⟩ | ⟨hs, -, -, h'⟩ | ⟨hl, -, h'⟩ <;> rw [h'] at h
  · cases h; exact .destroyed hs
  · cases h; exact .discarded .eTransfer (.inl ⟨ho, hs, rfl⟩)
  · cases h; exact .failed .eTransfer hs rfl fun ⟨_, hbe⟩ => hb hbe
  · cases h; exact .failed .eState hs rfl nofun
  · exact ends_of_ownRule hl h

/-- A success answers nothing itself: the response comes after it. -/
theorem Succeeds.respPort {i : Instr} {s u : State} {d : Word} (h : Succeeds i s d u) : u.respPort = s.respPort := by
  cases h <;> simp

/-- A failure of one of the two reads writes the response only (R27). -/
theorem fail_of_read {o : Op} (c : Code) (s : State) (ho : o = .rdreg ∨ o = .rdout) :
    fail o c s = { s with respPort := s.respPort ++ [⟨c, 0⟩] } := by rw [fail_eq_ite, if_pos ho]

/-- Settles O53: none of the answers of the two reads writes a field other than the response port. -/
theorem readsChangeNothing : Obligations.ReadsChangeNothing := by
  intro i s ho
  rw [exec_eq_gate]
  rcases gate_cases i.op (anyXerr (encode i)) s (ownRule i) with
    ⟨-, h⟩ | ⟨-, -, hb, -, -⟩ | ⟨-, -, -, h⟩ | ⟨-, -, -, h⟩ | ⟨-, -, h⟩
  · exact ⟨_, h⟩
  · rw [hb] at ho; simp at ho
  · exact ⟨_, by rw [h, fail_of_read _ s ho]⟩
  · exact ⟨_, by rw [h, fail_of_read _ s ho]⟩
  · rw [h]
    cases i with
    | rdreg x reg => rcases ruleRdreg_cases reg s with ⟨_, -, h⟩ | ⟨-, h⟩ <;> exact ⟨_, h⟩
    | rdout x a => rcases ruleRdout_cases a.w s with ⟨_, -, h⟩ | ⟨-, h⟩ <;> exact ⟨_, h⟩
    | _ => simp [Instr.op] at ho

/-- Settles O15: by the kinds of answers; a success is the one answer of the code `OK`. -/
theorem failuresChangeOnlyWhatTheTableSays : Obligations.FailuresChangeOnlyWhatTheTableSays := by
  intro i s t h
  cases ends_of_exec h with
  | destroyed hs => exact ⟨_, respond_respPort _ _ _, fun _ => ⟨rfl, by simp; rfl⟩⟩
  | failed c hs hc ht =>
    have hkeep : ¬(c = .eAlloc ∨ c = .eMalformed ∨ (c = .eTransfer ∧ i.op = .block ∧ s.lifecycle = .encoding)) := by
      rintro (hca | hca | hca)
      · subst hca; cases hc
      · subst hca; cases hc
      · exact ht hca
    have hne : c ≠ .eDestroyed := by rintro rfl; cases hc
    refine ⟨_, fail_respPort _ _ _, fun _ => ⟨rfl, ?_⟩⟩
    simp only [if_neg hkeep, hne, false_or]
    rw [fail_eq_ite]
    split <;> rfl
  | discarded c hd =>
    have hdisc : c = .eAlloc ∨ c = .eMalformed ∨ (c = .eTransfer ∧ i.op = .block ∧ s.lifecycle = .encoding) := by
      rcases hd with ⟨ho, hs, rfl⟩ | ⟨-, -, rfl | rfl⟩ <;> simp [*]
    have hwrites : ¬(c = .eDestroyed ∨ i.op = .rdreg ∨ i.op = .rdout) := by
      rcases hd with ⟨ho, hs, rfl⟩ | ⟨-, ho | ho | ho, rfl | rfl⟩ <;> simp [ho]
    refine ⟨_, fail_respPort _ _ _, fun _ => ⟨rfl, ?_⟩⟩
    simp only [if_pos hdisc, if_neg hwrites]
    rw [fail_eq_ite, if_neg fun ho => hwrites (.inr ho)]
    rfl
  | succeeded hl hs =>
    exact ⟨_, (succeed_respPort _ _ _).trans (by rw [hs.respPort]), fun hne => absurd rfl hne⟩

/-! ### What commands leave as it was -/

/-- A success that touches the configuration is one of `WRCFG`. -/
theorem Succeeds.cfg {i : Instr} {s u : State} {d : Word} (h : Succeeds i s d u) (hi : i.op ≠ .wrcfg) : u.cfg = s.cfg := by
  cases h with
  | wrcfg => exact absurd rfl hi
  | _ => simp

/-- A success that touches the tables or the block counts is one of `CREATE`. -/
theorem Succeeds.context {i : Instr} {s u : State} {d : Word} (h : Succeeds i s d u) (hi : i.op ≠ .create) :
    u.qt0 = s.qt0 ∧ u.qt1 = s.qt1 ∧ u.blkTotal = s.blkTotal ∧ u.blkPerMcu = s.blkPerMcu := by
  cases h with
  | create => exact absurd rfl hi
  | _ => simp

theorem Succeeds.outCap {i : Instr} {s u : State} {d : Word} (h : Succeeds i s d u) : u.outCap = s.outCap := by
  cases h <;> simp

theorem exec_outCap {i : Instr} {s t : State} (h : exec i s = .next t) : t.outCap = s.outCap := by
  cases ends_of_exec h with
  | succeeded hl hs => simpa using hs.outCap
  | _ => simp

theorem answerUndefinedOp_outCap (s : State) : (answerUndefinedOp s).outCap = s.outCap := by
  unfold answerUndefinedOp; split <;> simp

theorem answerReservedArg_outCap (o : Op) (s : State) : (answerReservedArg o s).outCap = s.outCap := by
  unfold answerReservedArg; split <;> simp

/-- Settles O51: only `WRCFG` and `CREATE` touch these fields when they succeed, and both are legal in `IDLE` only. -/
theorem configurationIsImmutable : Obligations.ConfigurationIsImmutable := by
  refine ⟨fun i s t h => ?_, fun s t h => ?_⟩
  · cases ends_of_exec h with
    | succeeded hl hs =>
      refine ⟨fun hi => ?_, fun hi => ?_⟩
      · simpa using hs.cfg fun ho => hi ⟨by simpa [ho, legal] using hl, ho⟩
      · simpa using hs.context fun ho => hi ⟨by simpa [ho, legal] using hl, ho⟩
    | _ => simp
  · rcases step_cases h with ⟨-, rfl⟩ | ⟨-, -, rfl⟩ | ⟨i, rest, -, -, he⟩ | ⟨rest, -, -, rfl⟩ | ⟨o, rest, -, -, rfl⟩
    · exact hardReset_outCap s
    · rfl
    · exact (exec_outCap he).trans rfl
    · exact answerUndefinedOp_outCap _
    · exact answerReservedArg_outCap _ _

/-! ### Predictors -/

/-- Settles O54: by the kinds of answers; `BLOCK` sets one entry of `PRED`. -/
theorem predictorsArePerComponent : Obligations.PredictorsArePerComponent := by
  intro i s t d h ht
  cases ends_of_exec h with
  | destroyed hs => simp at ht
  | failed c hs hc =>
    obtain ⟨rfl, -⟩ : c = .ok ∧ 0 = d := by simpa using ht
    cases hc
  | discarded c hd =>
    obtain ⟨rfl, -⟩ : c = .ok ∧ 0 = d := by simpa using ht
    rcases hd with ⟨-, -, hc⟩ | ⟨-, -, hc | hc⟩ <;> cases hc
  | succeeded hl hs =>
    cases hs with
    | beginImage hw => simp [Instr.op]
    | block hlt hz hc hw =>
      refine ⟨nofun, fun _ c => ?_, fun _ hne => absurd rfl hne⟩
      simp [Vector.getElem_set, Fin.ext_iff, eq_comm]
    | _ => simp [Instr.op]

end Sys2Proof.Machine
end

section
/-! The register commands, the context commands and the readback, and which operands are illegal (R202 to R204, R209, R210,
R231). -/

namespace Sys2Proof.Machine

/-! ### The table of legal states -/

theorem legal_wrcfg {s : State} : legal .wrcfg s = true ↔ s.lifecycle = .idle := beq_iff_eq
theorem legal_rdreg {s : State} : legal .rdreg s = true ↔ s.lifecycle ≠ .destroyed := bne_iff_ne
theorem legal_create {s : State} : legal .create s = true ↔ s.lifecycle = .idle := beq_iff_eq
theorem legal_beginImage {s : State} : legal .beginImage s = true ↔ s.lifecycle = .created := beq_iff_eq
theorem legal_block {s : State} : legal .block s = true ↔ s.lifecycle = .encoding := beq_iff_eq
theorem legal_endImage {s : State} : legal .endImage s = true ↔ s.lifecycle = .encoding := beq_iff_eq
theorem legal_destroy {s : State} : legal .destroy s = true ↔ s.lifecycle = .created := beq_iff_eq
theorem legal_rdout {s : State} : legal .rdout s = true ↔ s.lifecycle = .created ∧ s.outValid = true := by simp [legal]

/-! ### A legal command without transfer error -/

/-- A legal command without transfer error is its own rule (R200 step 6). -/
theorem exec_eq_ownRule {i : Instr} {s : State} (hl : legal i.op s = true) (hx : anyXerr (encode i) = false) :
    exec i s = ownRule i s := by rw [exec_eq_gate, hx, gate_run hl]

theorem exec_wrcfg {reg : Byte} (v : Word) {s : State} (hs : s.lifecycle = .idle) :
    exec (.wrcfg false reg ⟨false, v⟩) s = ruleWrcfg reg v s :=
  exec_eq_ownRule (i := .wrcfg false reg ⟨false, v⟩) (legal_wrcfg.mpr hs) rfl

theorem exec_create {s : State} (hs : s.lifecycle = .idle) : exec (.create false) s = ruleCreate s :=
  exec_eq_ownRule (i := .create false) (legal_create.mpr hs) rfl

theorem exec_beginImage {s : State} (hs : s.lifecycle = .created) : exec (.beginImage false) s = ruleBegin s :=
  exec_eq_ownRule (i := .beginImage false) (legal_beginImage.mpr hs) rfl

theorem exec_block {p : Vector CmdWord 16} {s : State} (hs : s.lifecycle = .encoding) (hx : anyXerr p.toList = false) :
    exec (.block false p) s = ruleBlock p s :=
  exec_eq_ownRule (i := .block false p) (legal_block.mpr hs) (by simpa [anyXerr, encode] using hx)

theorem exec_endImage {s : State} (hs : s.lifecycle = .encoding) : exec (.endImage false) s = ruleEnd s :=
  exec_eq_ownRule (i := .endImage false) (legal_endImage.mpr hs) rfl

theorem exec_destroy {s : State} (hs : s.lifecycle = .created) : exec (.destroy false) s = ruleDestroy s :=
  exec_eq_ownRule (i := .destroy false) (legal_destroy.mpr hs) rfl

theorem exec_rdout (a : Word) {s : State} (hs : s.lifecycle = .created) (hv : s.outValid = true) :
    exec (.rdout false ⟨false, a⟩) s = ruleRdout a s :=
  exec_eq_ownRule (i := .rdout false ⟨false, a⟩) (legal_rdout.mpr ⟨hs, hv⟩) rfl

/-! ### Illegal operands -/

theorem writeCfg_eq_none_iff {cfg : Cfg} {reg : Byte} {v : Word} : writeCfg cfg reg v = none ↔ 4 < reg.toNat := by
  unfold writeCfg
  split
  case h_6 h0 h1 h2 h3 h4 =>
    simp only [imp_false] at h0 h1 h2 h3 h4
    exact iff_of_true rfl (by omega)
  all_goals exact iff_of_false nofun (by omega)

/-- The undefined register numbers (R23, R231 (d)). -/
theorem readReg_eq_none_iff {s : State} {reg : Byte} : readReg s reg = none ↔
    (0x05 ≤ reg.toNat ∧ reg.toNat ≤ 0x0F) ∨ (0x16 ≤ reg.toNat ∧ reg.toNat ≤ 0x3F) ∨ 0xC0 ≤ reg.toNat := by
  rw [← Option.not_isSome_iff_eq_none, readReg_isSome, regDefined, decide_eq_true_iff]
  omega

/-- The operands that R231 (c), (d), (e) call illegal. -/
def IllegalOperand : Instr → State → Prop
  | .wrcfg _ reg _, _ => 0x04 < reg.toNat
  | .rdreg _ reg, _ => (0x05 ≤ reg.toNat ∧ reg.toNat ≤ 0x0F) ∨ (0x16 ≤ reg.toNat ∧ reg.toNat ≤ 0x3F) ∨ 0xC0 ≤ reg.toNat
  | .rdout _ addr, s => s.bw.out.length ≤ addr.w.toNat
  | _, _ => False

/-- A command's own rule answers `E_ILLEGAL` to an illegal operand, with no other effect (R231). -/
theorem ownRule_of_illegalOperand {i : Instr} {s : State} (hw : Memory.wf s.bw.out) (h : IllegalOperand i s) :
    ownRule i s = .next (fail i.op .eIllegal s) := by
  cases i with
  | wrcfg x reg v => simp only [ownRule, ruleWrcfg, writeCfg_eq_none_iff.mpr h]; rfl
  | rdreg x reg => simp only [ownRule, ruleRdreg, readReg_eq_none_iff.mpr h]; rfl
  | rdout x a => simp only [ownRule, ruleRdout, (Memory.read_none_iff hw).mpr h]; rfl
  | _ => cases h

/-- Only to an illegal operand does a command's own rule answer `E_ILLEGAL` (R231). -/
theorem illegalOperand_of_ownRule {i : Instr} {s t : State} {d : Word} (hw : Memory.wf s.bw.out) (h : ownRule i s = .next t)
    (ht : t.respPort = s.respPort ++ [⟨.eIllegal, d⟩]) : IllegalOperand i s := by
  cases i with
  | wrcfg x reg v =>
    rcases ruleWrcfg_cases reg v.w s with ⟨_, _, h'⟩ | ⟨hn, _⟩
    · rw [ownRule, h'] at h; cases h; simp at ht
    · exact writeCfg_eq_none_iff.mp hn
  | rdreg x reg =>
    rcases ruleRdreg_cases reg s with ⟨_, _, h'⟩ | ⟨hn, _⟩
    · rw [ownRule, h'] at h; cases h; simp at ht
    · exact readReg_eq_none_iff.mp hn
  | rdout x a =>
    rcases ruleRdout_cases a.w s with ⟨_, _, h'⟩ | ⟨hn, _⟩
    · rw [ownRule, h'] at h; cases h; simp at ht
    · exact (Memory.read_none_iff hw).mp hn
  | create x =>
    rcases ruleCreate_cases s with ⟨_, _, h'⟩ | ⟨_, _, h'⟩ | ⟨_, h'⟩ <;> rw [ownRule, h'] at h <;> cases h <;> simp at ht
  | beginImage x =>
    rcases ruleBegin_cases s with ⟨_, _, h'⟩ | ⟨_, h'⟩ <;> rw [ownRule, h'] at h <;> cases h <;> simp at ht
  | block x p =>
    rcases ruleBlock_cases p s with ⟨_, h'⟩ | ⟨_, _, h'⟩ | ⟨_, _, _, h'⟩ | ⟨_, _, _, h'⟩ <;> rw [ownRule, h'] at h
    · cases h; simp at ht
    · cases h
    · cases h
    · rcases codeBlock_cases (nextComponent s) s (runStages p (roleOf (nextComponent s)) s) with
        ⟨_, _, _, _, h''⟩ | ⟨_, _, _, h''⟩ | ⟨_, h''⟩ <;> rw [h''] at h <;> cases h <;> simp at ht
  | endImage x =>
    rcases ruleEnd_cases s with ⟨_, _, _, h'⟩ | ⟨_, _, h'⟩ | ⟨_, h'⟩ <;> rw [ownRule, h'] at h <;> cases h <;> simp at ht
  | destroy x => cases h; simp at ht

/-- Settles O14: an illegal operand is met by the command's own rule, which alone answers `E_ILLEGAL`. -/
theorem illegalOperands : Obligations.IllegalOperands := by
  intro i s hw illegal
  have hiff : illegal ↔ legal i.op s = true ∧ anyXerr (encode i) = false ∧ IllegalOperand i s := by
    cases i with
    | wrcfg x reg v =>
      exact ⟨fun ⟨_, hx, hs, hr⟩ => ⟨legal_wrcfg.mpr hs, hx, hr⟩,
        fun ⟨hl, hx, hr⟩ => ⟨not_destroyed_of_legal hl, hx, legal_wrcfg.mp hl, hr⟩⟩
    | rdreg x reg =>
      exact and_congr_left' legal_rdreg.symm
    | rdout x a =>
      exact ⟨fun ⟨_, hx, hs, hv, ha⟩ => ⟨legal_rdout.mpr ⟨hs, hv⟩, hx, ha⟩,
        fun ⟨hl, hx, ha⟩ => ⟨not_destroyed_of_legal hl, hx, (legal_rdout.mp hl).1, (legal_rdout.mp hl).2, ha⟩⟩
    | _ => exact ⟨fun ⟨_, _, hf⟩ => hf.elim, fun ⟨_, _, hf⟩ => hf.elim⟩
  rw [hiff]
  refine ⟨fun ⟨hl, hx, hi⟩ => ?_, fun t d h ht => ?_⟩
  · rw [exec_eq_ownRule hl hx, ownRule_of_illegalOperand hw hi, fail_eq_ite]
    cases i with
    | wrcfg | rdreg | rdout => rfl
    | _ => cases hi
  · rw [exec_eq_gate] at h
    rcases gate_cases i.op (anyXerr (encode i)) s (ownRule i) with
      ⟨-, h'⟩ | ⟨-, -, -, -, h'⟩ | ⟨-, -, -, h'⟩ | ⟨-, -, -, h'⟩ | ⟨hl, hx, h'⟩ <;> rw [h'] at h
    · cases h; simp at ht
    · cases h; simp at ht
    · cases h; simp at ht
    · cases h; simp at ht
    · exact ⟨hl, hx, illegalOperand_of_ownRule hw h ht⟩

/-! ### The register commands -/

/-- Settles O16: the register of the number takes the value, the four others keep theirs. -/
theorem wrcfgStoresTheValue : Obligations.WrcfgStoresTheValue := by
  intro reg v s hs hreg
  rw [exec_wrcfg v hs]
  have hcases : reg = 0 ∨ reg = 1 ∨ reg = 2 ∨ reg = 3 ∨ reg = 4 := by
    simp only [← BitVec.toNat_inj]
    simp
    omega
  rcases hcases with rfl | rfl | rfl | rfl | rfl <;> rfl

/-- A read of a register that exists answers its value and writes the response port only (R203). -/
theorem exec_rdreg {reg : Byte} {v : Word} {s : State} (hs : s.lifecycle ≠ .destroyed) (hv : readReg s reg = some v) :
    exec (.rdreg false reg) s = .next { s with respPort := s.respPort ++ [⟨.ok, v⟩] } := by
  rw [exec_eq_ownRule (i := .rdreg false reg) (legal_rdreg.mpr hs) rfl, ownRule, ruleRdreg, hv]
  rfl

/-- The numbers from 0x40 on are entries of the first table, those from 0x80 on of the second (R23, R32). -/
theorem readReg_qt0 (s : State) {reg : Byte} {k : Fin 64} (h : reg.toNat = 0x40 + k.val) :
    readReg s reg = some ((s.qt0[k.val]).setWidth 32) := by
  unfold readReg
  split
  case h_12 => simp only [h]; rw [dif_pos (by omega)]; simp
  all_goals omega

theorem readReg_qt1 (s : State) {reg : Byte} {k : Fin 64} (h : reg.toNat = 0x80 + k.val) :
    readReg s reg = some ((s.qt1[k.val]).setWidth 32) := by
  unfold readReg
  split
  case h_12 => simp only [h]; rw [dif_neg (by omega), dif_pos (by omega)]; simp
  all_goals omega

theorem statusWord_toNat (s : State) : (statusWord s).toNat = s.lifecycle.toBits.toNat + if s.outValid then 4 else 0 := by
  unfold statusWord
  cases s.outValid <;> cases s.lifecycle <;> rfl

theorem outLen_toNat {s : State} (h : s.bw.out.length < 2 ^ 32) :
    (outLen s).toNat = if s.outValid then s.bw.out.length else 0 := by
  unfold outLen
  split
  · rw [BitVec.toNat_ofNat, Nat.mod_eq_of_lt h]
  · rfl

/-- Settles O17: number by number. -/
theorem rdregReturnsTheRegister : Obligations.RdregReturnsTheRegister := by
  intro reg s hs answers
  have reads {v : Word} {n : Nat} (hv : readReg s reg = some v) (hn : v.toNat = n) : answers n :=
    ⟨v, hn, exec_rdreg hs hv⟩
  have widened {n : Nat} {b : BitVec n} (hv : readReg s reg = some (b.setWidth 32)) (hn : n ≤ 32) : answers b.toNat :=
    reads hv (BitVec.toNat_setWidth_of_le hn)
  refine ⟨?_, ?_, ?_, ?_, ?_, ?_, ?_, ?_, ?_, ?_, ?_, fun k h => widened (readReg_qt0 s h) (by omega),
    fun k h => widened (readReg_qt1 s h) (by omega)⟩ <;> rintro rfl
  · exact reads rfl rfl
  · exact reads rfl rfl
  · exact reads rfl rfl
  · exact reads rfl rfl
  · exact reads rfl rfl
  · exact reads rfl (statusWord_toNat s)
  · exact widened rfl (by omega)
  · exact fun hlen => reads rfl (outLen_toNat hlen)
  · exact reads rfl rfl
  · exact reads rfl rfl
  · exact widened rfl (by omega)

/-! ### The readback and the context commands -/

/-- Settles O22: in the canonical form the byte at an address is the byte of that index. -/
theorem rdoutReturnsTheByte : Obligations.RdoutReturnsTheByte := by
  intro addr s hs hv hw hlt
  have hlen : addr.toNat < s.bw.out.bytes.length := by simpa using hlt
  refine ⟨s.bw.out.bytes[addr.toNat], List.getElem?_eq_getElem hlen, ?_⟩
  rw [exec_rdout addr hs hv, ruleRdout, Memory.read_eq_getElem hw, List.getElem?_eq_getElem hlen]
  rfl

/-- Settles O21. -/
theorem destroyReleasesTheContext : Obligations.DestroyReleasesTheContext := fun _ hs => exec_destroy hs

/-! ### The checks of `CREATE` -/

theorem blocksPerMcu_of_one {cfg : Cfg} (hn : cfg.ncomp = 1) : blocksPerMcu cfg = 1 := if_pos hn

theorem blocksPerMcu_of_three {cfg : Cfg} (hn : cfg.ncomp ≠ 1) : blocksPerMcu cfg =
    hSamp cfg 0 * vSamp cfg 0 + hSamp cfg 1 * vSamp cfg 1 + hSamp cfg 2 * vSamp cfg 2 := if_neg hn

/-- The geometry checks (a) to (f) of R204, spelled out. -/
theorem geometryOk_iff {cfg : Cfg} : geometryOk cfg = true ↔
    (1 ≤ cfg.width.toInt ∧ cfg.width.toInt ≤ 65535) ∧ (1 ≤ cfg.height.toInt ∧ cfg.height.toInt ≤ 65535) ∧
    (cfg.ncomp.toInt = 1 ∨ cfg.ncomp.toInt = 3) ∧ cfg.samp.extractLsb' 24 8 = 0 ∧
    (cfg.ncomp.toInt = 1 → hSamp cfg 0 = 1 ∧ vSamp cfg 0 = 1) ∧
    (cfg.ncomp.toInt = 3 → (∀ c : Fin 3, 1 ≤ hSamp cfg c.val ∧ hSamp cfg c.val ≤ 4 ∧
        1 ≤ vSamp cfg c.val ∧ vSamp cfg c.val ≤ 4) ∧
      hSamp cfg 0 * vSamp cfg 0 + hSamp cfg 1 * vSamp cfg 1 + hSamp cfg 2 * vSamp cfg 2 ≤ 10) := by
  simp only [geometryOk, sampReserved, factorOk, Bool.and_eq_true, decide_eq_true_eq, beq_iff_eq, and_assoc]
  refine and_congr_right' <| and_congr_right' <| and_congr_right' <| and_congr_right' <| and_congr_right fun hn => and_congr_right' ?_
  rcases hn with hn | hn
  · simp [hn]
  · have hne : cfg.ncomp ≠ 1 := fun h => absurd hn (by rw [h]; decide)
    simp [hn, blocksPerMcu_of_three hne, Fin.forall_fin_succ, and_assoc]

/-- Settles O20: the written checks are those of `CREATE`, and the first that fails decides. -/
theorem createRefusesBadConfigurations : Obligations.CreateRefusesBadConfigurations := by
  intro s hs geometry
  have hgeometry : geometry ↔ geometryOk s.cfg = true := geometryOk_iff.symm
  rw [hgeometry, exec_create hs]
  rcases ruleCreate_cases s with ⟨hg, hq, h⟩ | ⟨hg, hq, h⟩ | ⟨hg, h⟩
  · exact ⟨fun hn => absurd hg hn, fun _ hn => absurd (of_decide_eq_true hq) hn⟩
  · exact ⟨fun hn => absurd hg hn, fun _ _ => h⟩
  · exact ⟨fun _ => h, fun hg' => by rw [hg] at hg'; cases hg'⟩

/-! ### The block counts -/

/-- A positive signed number is its bits read without sign (R10). -/
theorem toNat_eq_of_toInt_eq {x : Word} {n : Nat} (h : x.toInt = n) : x.toNat = n := by
  have hx := x.isLt
  rw [BitVec.toInt_eq_toNat_cond] at h
  split at h <;> omega

theorem ceilDiv_pos {n d : Nat} (hn : 1 ≤ n) (hd : 1 ≤ d) : 1 ≤ ceilDiv n d := Nat.div_pos (by omega) hd

theorem ceilDiv_mono {n m : Nat} (d : Nat) (h : n ≤ m) : ceilDiv n d ≤ ceilDiv m d := Nat.div_le_div_right (by omega)

/-- The most blocks an image with these largest factors can have; the product is largest for factors 1 and 3 (log entry 6). -/
theorem largest_totals : ∀ hm vm : Fin 5, 1 ≤ hm.val → 1 ≤ vm.val →
    ceilDiv 65535 (8 * hm.val) * ceilDiv 65535 (8 * vm.val) * min 10 (3 * (hm.val * vm.val)) ≤ 201351168 := by decide +kernel

/-- The geometry that `CREATE` accepts, as natural numbers: sizes, largest factors, and the blocks of an MCU (R204). -/
structure LegalGeometry (cfg : Cfg) : Prop where
  width : 1 ≤ cfg.width.toNat ∧ cfg.width.toNat ≤ 65535
  height : 1 ≤ cfg.height.toNat ∧ cfg.height.toNat ≤ 65535
  hMax : 1 ≤ hMax cfg ∧ hMax cfg ≤ 4
  vMax : 1 ≤ vMax cfg ∧ vMax cfg ≤ 4
  bpm : 1 ≤ blocksPerMcu cfg ∧ blocksPerMcu cfg ≤ min 10 (3 * (Machine.hMax cfg * Machine.vMax cfg))

theorem legalGeometry_of_geometryOk {cfg : Cfg} (h : geometryOk cfg = true) : LegalGeometry cfg := by
  obtain ⟨⟨hw1, hw2⟩, ⟨hh1, hh2⟩, hn, -, h1, h3⟩ := geometryOk_iff.mp h
  have hsize {x : Word} (hlo : 1 ≤ x.toInt) (hhi : x.toInt ≤ 65535) : 1 ≤ x.toNat ∧ x.toNat ≤ 65535 := by
    have := toNat_eq_of_toInt_eq (x := x) (n := x.toInt.toNat) (by omega)
    omega
  rcases hn with hn | hn
  · have hone : cfg.ncomp = 1 := BitVec.eq_of_toInt_eq hn
    exact ⟨hsize hw1 hw2, hsize hh1 hh2, by simp [Machine.hMax, hone], by simp [Machine.vMax, hone],
      by simp [blocksPerMcu_of_one hone, Machine.hMax, Machine.vMax, hone]⟩
  · have hne : cfg.ncomp ≠ 1 := fun h => absurd hn (by rw [h]; decide)
    obtain ⟨hf, h10⟩ := h3 hn
    have f0 := hf 0
    have f1 := hf 1
    have f2 := hf 2
    have hH : Machine.hMax cfg = max (hSamp cfg 0) (max (hSamp cfg 1) (hSamp cfg 2)) := if_neg hne
    have hV : Machine.vMax cfg = max (vSamp cfg 0) (max (vSamp cfg 1) (vSamp cfg 2)) := if_neg hne
    have hle (c : Fin 3) : hSamp cfg c.val * vSamp cfg c.val ≤ Machine.hMax cfg * Machine.vMax cfg := by
      rw [hH, hV]; fin_cases c <;> exact Nat.mul_le_mul (by simp) (by simp)
    have h0 := hle 0
    have h1 := hle 1
    have h2 := hle 2
    have hpos : 0 < hSamp cfg 0 * vSamp cfg 0 := Nat.mul_pos f0.1 f0.2.2.1
    simp only [Fin.val_zero, Fin.val_one, Fin.val_two] at f0 f1 f2 h0 h1 h2
    refine ⟨hsize hw1 hw2, hsize hh1 hh2, by omega, by omega, ?_⟩
    rw [blocksPerMcu_of_three hne]
    omega

/-- The bounds on the block count of a legal geometry: at least one MCU, at most the true maximum (R204, log entry 6). -/
theorem LegalGeometry.total {cfg : Cfg} (h : LegalGeometry cfg) :
    blocksPerMcu cfg ≤ totalBlocks cfg ∧ totalBlocks cfg ≤ 201351168 := by
  obtain ⟨⟨hw1, hw2⟩, ⟨hh1, hh2⟩, ⟨hm1, hm4⟩, ⟨vm1, vm4⟩, ⟨hb1, hb2⟩⟩ := h
  have hcols : 1 ≤ mcuCols cfg := ceilDiv_pos hw1 (by omega)
  have hrows : 1 ≤ mcuRows cfg := ceilDiv_pos hh1 (by omega)
  refine ⟨Nat.le_mul_of_pos_left _ (Nat.mul_pos hcols hrows), ?_⟩
  calc totalBlocks cfg
    _ ≤ ceilDiv 65535 (8 * Machine.hMax cfg) * ceilDiv 65535 (8 * Machine.vMax cfg) *
        min 10 (3 * (Machine.hMax cfg * Machine.vMax cfg)) :=
      Nat.mul_le_mul (Nat.mul_le_mul (ceilDiv_mono _ hw2) (ceilDiv_mono _ hh2)) hb2
    _ ≤ 201351168 := largest_totals ⟨Machine.hMax cfg, by omega⟩ ⟨Machine.vMax cfg, by omega⟩ hm1 vm1

/-- Settles O18: the written formula is that of `totalBlocks`, and neither count loses bits in its register. -/
theorem createBuildsTheContext : Obligations.CreateBuildsTheContext := by
  intro s w h q hs hw hh hq hw1 hw2 hh1 hh2 hq1 hq2 hres bpm total hcount
  have hwn := toNat_eq_of_toInt_eq hw
  have hhn := toNat_eq_of_toInt_eq hh
  have hqn := toNat_eq_of_toInt_eq hq
  have hquality : qualityOk s.cfg = true := decide_eq_true (by omega)
  obtain ⟨hgeometry, hbpm, htotal⟩ :
      geometryOk s.cfg = true ∧ blocksPerMcu s.cfg = bpm ∧ totalBlocks s.cfg = total := by
    rw [geometryOk_iff, totalBlocks, mcuCols, mcuRows, hwn, hhn]
    rcases hcount with ⟨hn, h1, v1, rfl, rfl⟩ | ⟨hn, hf, rfl, h10, hm, vm, rfl, rfl, rfl⟩
    · have hone : s.cfg.ncomp = 1 := BitVec.eq_of_toInt_eq hn
      refine ⟨⟨by omega, by omega, .inl hn, hres, fun _ => ⟨h1, v1⟩, by omega⟩, blocksPerMcu_of_one hone, ?_⟩
      simp [blocksPerMcu_of_one hone, hMax, vMax, hone, ceilDiv]
    · have hne : s.cfg.ncomp ≠ 1 := fun h => absurd hn (by rw [h]; decide)
      refine ⟨⟨by omega, by omega, .inr hn, hres, by omega, fun _ => ⟨hf, h10⟩⟩, blocksPerMcu_of_three hne, ?_⟩
      rw [blocksPerMcu_of_three hne, hMax, vMax, if_neg hne, if_neg hne]
      rfl
  obtain ⟨hb1, hb2⟩ := (legalGeometry_of_geometryOk hgeometry).bpm
  obtain ⟨-, ht⟩ := (legalGeometry_of_geometryOk hgeometry).total
  rcases ruleCreate_cases s with ⟨-, -, hrun⟩ | ⟨-, hq', -⟩ | ⟨hg', -⟩
  · refine ⟨_, (exec_create hs).trans hrun, ?_, ?_, htotal ▸ ht, ?_⟩
    · simp [hbpm]; omega
    · simp [htotal]; omega
    · rw [← hqn]; rfl
  · rw [hquality] at hq'; cases hq'
  · rw [hgeometry] at hg'; cases hg'

/-- Refutes O19 with the configuration of log entry 6: 65535 by 65535, three components, all sampled 1 by 3. -/
theorem not_blockTotalIsWithinThePrintedBound : ¬ Obligations.BlockTotalIsWithinThePrintedBound := by
  intro h
  exact absurd (h ⟨65535, 65535, 3, 1, 0x00131313⟩ (by decide +kernel)) (by decide +kernel)

end Sys2Proof.Machine
end

section
/-! Arithmetic and tables: rounding, the zig-zag order, the ends of the transform's ranges, and the layout of the header (R11,
R124, R126, R143, R190). -/

namespace Sys2Proof.Machine

/-! ### Rounding -/

theorem rhaz_neg (n : Int) {d : Nat} (hd : 0 < d) : rhaz (-n) d = -(rhaz n d) := by
  rw [rhaz_eq_sign_mul _ hd, rhaz_eq_sign_mul _ hd, Int.sign_neg, Int.natAbs_neg, neg_mul]

/-- The size of the rounded quotient is the quotient of the sizes, rounded half up (R11). -/
theorem natAbs_rhaz (n : Int) {d : Nat} (hd : 0 < d) : (rhaz n d).natAbs = (2 * n.natAbs + d) / (2 * d) := by
  rw [rhaz_eq_sign_mul _ hd, Int.natAbs_mul, Int.natAbs_natCast]
  by_cases hn : n = 0
  · subst hn
    simp [Nat.div_eq_of_lt (show d < 2 * d by omega)]
  · rw [Int.natAbs_sign_of_ne_zero hn, one_mul]

/-- Settles O30: an integer quotient lies within one of the exact one, and the sign is carried apart. -/
theorem roundingIsHalfAwayFromZero : Obligations.RoundingIsHalfAwayFromZero := by
  intro n d hd
  rw [natAbs_rhaz n hd]
  have hdiv := Nat.div_add_mod (2 * n.natAbs + d) (2 * d)
  have hmod := Nat.mod_lt (2 * n.natAbs + d) (show 0 < 2 * d by omega)
  have hlin (q : Nat) : 2 * q * d = 2 * d * q ∧ (2 * q + 1) * d = 2 * d * q + d := ⟨by ring, by ring⟩
  obtain ⟨h1, h2⟩ := hlin ((2 * n.natAbs + d) / (2 * d))
  refine ⟨?_, ?_, fun hn => le_rhaz hd (by simpa using hn), fun hn => rhaz_le hd (by simpa using hn), rhaz_neg n hd⟩
  · rw [h2]; omega
  · rw [h1]; omega

/-! ### The zig-zag order -/

theorem zigzag_injective : ∀ z z' : Fin 64, zigzag[z.val] = zigzag[z'.val] → z = z' := by decide +kernel

/-- Settles O35: the order is read off the table, entry by entry; it is one to one on 64 indices, and so takes each. -/
theorem zigzagOrder : Obligations.ZigzagOrder := by
  refine ⟨by decide +kernel, fun k => ?_, fun qb z => reorder_getElem qb z.val z.isLt, by decide +kernel⟩
  have hsurj : Function.Surjective fun z : Fin 64 => zigzag[z.val] :=
    Finite.surjective_of_injective fun z z' h => zigzag_injective z z' h
  obtain ⟨z, hz⟩ := hsurj k
  exact ⟨z, hz, fun z' hz' => zigzag_injective z' z (hz'.trans hz.symm)⟩

/-! ### The ends of the ranges of `TB` and `CB` -/

theorem sum_abs_kRom_le_largest : ∀ j : Fin 8, ∑ i, |kRom j i| ≤ 185360 := by decide

/-- A row sum of a horizontal frequency: because its weights cancel, each shifted sample can be moved by one half; the proof
doubles both sides (R124). -/
theorem abs_rowSum_ac_le (sb : Vector Byte 64) (y : Fin 8) {u : Fin 8} (hu : u ≠ 0) : |rowSum sb y u| ≤ 23633400 := by
  have hcentred : 2 * rowSum sb y u = ∑ x, kRom u x * (2 * levelShift sb (ix y x) + 1) := by
    simp only [rowSum_eq_sum, mul_add, mul_one, Finset.sum_add_distrib, sum_kRom u hu, add_zero, Finset.mul_sum, mul_left_comm]
  have hbound : |2 * rowSum sb y u| ≤ 185360 * 255 := by
    rw [hcentred]
    calc |∑ x, kRom u x * (2 * levelShift sb (ix y x) + 1)|
      _ ≤ ∑ x, |kRom u x * (2 * levelShift sb (ix y x) + 1)| := Finset.abs_sum_le_sum_abs _ _
      _ ≤ ∑ x, |kRom u x| * 255 :=
        Finset.sum_le_sum fun x _ => abs_mul_le le_rfl (abs_two_mul_levelShift_add_one_le sb _)
      _ = (∑ x, |kRom u x|) * 255 := by rw [Finset.sum_mul]
      _ ≤ 185360 * 255 := Int.mul_le_mul_of_nonneg_right (sum_abs_kRom_le_largest u) (by norm_num)
  rw [abs_le] at hbound ⊢
  omega

/-- The row sums of the horizontal mean (R124). -/
theorem rowSum_dc_bounds (sb : Vector Byte 64) (y : Fin 8) : -23726080 ≤ rowSum sb y 0 ∧ rowSum sb y 0 ≤ 23540720 := by
  have h := sum8_bounds (f := fun x => kRom 0 x * levelShift sb (ix y x)) (a := -(23170 * 128)) (b := 23170 * 127) fun x => by
    have hk : kRom 0 x = 23170 := by revert x; decide
    have := levelShift_bounds sb (ix y x)
    rw [hk]; omega
  unfold rowSum
  omega

theorem rowPass_bounds (sb : Vector Byte 64) (k : Fin 64) :
    -23726080 ≤ ((rowPass sb)[k.val]).toInt ∧ ((rowPass sb)[k.val]).toInt ≤ 23633400 := by
  have h := rowPass_toInt sb (rowOf k) (colOf k)
  simp only [ix_rowOf_colOf] at h
  rw [h]
  by_cases hu : colOf k = 0
  · have := rowSum_dc_bounds sb (rowOf k)
    rw [hu]; omega
  · have := abs_le.mp (abs_rowSum_ac_le sb (rowOf k) hu)
    omega

theorem colPass_ac_bounds (sb : Vector Byte 64) {k : Fin 64} (hk : k ≠ 0) :
    -(1020 * 2 ^ 32) ≤ ((colPass sb (rowPass sb))[k.val]).toInt ∧ ((colPass sb (rowPass sb))[k.val]).toInt ≤ 1020 * 2 ^ 32 := by
  have hne : ¬(rowOf k = 0 ∧ colOf k = 0) := fun ⟨hr, hc⟩ => hk <| by rw [← ix_rowOf_colOf k, hr, hc]; rfl
  have h := abs_le.mp (abs_colPass_ac_le sb hne)
  simpa only [ix_rowOf_colOf] using h

/-- A block whose columns take the signs of `SG[4]`, as large as samples can be. -/
def contrastBlock : Vector Byte 64 := Vector.ofFn fun k => if 0 < sg4[(colOf k).val] then 255 else 0

/-- Settles O32: the DC weights are all positive, all others cancel; black and the columns of `SG[4]` reach the ends. -/
theorem transformRanges : Obligations.TransformRanges := by
  refine ⟨fun sb k => ⟨rowPass_bounds sb k, ?_, fun hk => (colPass_ac_bounds sb hk).1⟩,
    ⟨vec 64 0, by decide +kernel⟩, ⟨contrastBlock, by decide +kernel⟩⟩
  by_cases hk : k = 0
  · subst hk
    obtain ⟨hc, hlo, hhi⟩ := colPass_zero sb
    have hc' : ((colPass sb (rowPass sb))[(0 : Fin 64).val]).toInt = exactSum sb 0 0 := hc
    omega
  · have := colPass_ac_bounds sb hk
    omega

/-! ### The layout of the header -/

/-- The segments of the header have the sizes of R190. -/
theorem headerSegments_sizes {cfg : Cfg} (qt0 qt1 : Vector Byte 64) (hn : cfg.ncomp = 1 ∨ cfg.ncomp = 3) :
    (headerSegments cfg qt0 qt1).map (fun g => (segmentBytes g).length) =
      if cfg.ncomp = 1 then [18, 69, 69, 13, 33, 183, 33, 183, 10] else [18, 69, 69, 19, 33, 183, 33, 183, 14] := by
  have hdht : ∀ t, (dhtPayload t).length = if t = 0 ∨ t = 2 then 29 else 179 := by decide +kernel
  rcases hn with hn | hn <;>
    simp [headerSegments, length_segmentBytes, app0Payload, dqtPayload, sof0Payload, sosPayload, hdht, hn,
      bigEndian16, sof0Component, sosComponent, List.range_succ]

/-- An element of the middle of three lists. -/
theorem getElem?_append_middle {α : Type} {a b c : List α} {n i : Nat} (ha : a.length = n) (hi : i < b.length) :
    (a ++ (b ++ c))[n + i]? = b[i]? := by
  rw [List.getElem?_append_right (by omega), List.getElem?_append_left (by omega)]
  congr 1; omega

/-- The frame header: its marker and length, the sample precision, the height, the width (R186). -/
theorem segmentBytes_sof0 (cfg : Cfg) : ∃ l1 l2 post, segmentBytes (0xC0, sof0Payload cfg) =
    [0xFF, 0xC0, l1, l2, 0x08] ++ (bigEndian16 cfg.height.toNat ++ bigEndian16 cfg.width.toNat ++ post) :=
  ⟨_, _, _, by simp only [segmentBytes, bigEndian16, sof0Payload]; simp; exact ⟨rfl, rfl, rfl⟩⟩

/-- A table segment: its marker and length, its identifier, the entries in zig-zag order (R184). -/
theorem segmentBytes_dqt (tq : Byte) (qt : Vector Byte 64) :
    segmentBytes (0xDB, dqtPayload tq qt) = [0xFF, 0xDB, 0x00, 0x43, tq] ++ (reorder qt).toList := by
  simp [segmentBytes, dqtPayload, bigEndian16]

/-- The entries of a table segment begin at its byte 5. -/
theorem segmentBytes_dqt_getElem? (tq : Byte) (qt : Vector Byte 64) (z : Fin 64) :
    (segmentBytes (0xDB, dqtPayload tq qt))[5 + z.val]? = some qt[(zigzag[z.val]).val] := by
  rw [segmentBytes_dqt, List.getElem?_append_right (by simp)]
  simp

/-- The two bytes of a 16-bit field are the low 16 bits of the word (R53 (c)). -/
theorem bigEndian16_toNat (x : Word) : bigEndian16 x.toNat = [x.extractLsb' 8 8, x.extractLsb' 0 8] := by
  simp only [bigEndian16, List.cons.injEq, and_true]
  constructor <;> apply BitVec.eq_of_toNat_eq <;>
    norm_num [BitVec.extractLsb'_toNat, BitVec.toNat_ofNat, Nat.shiftRight_eq_div_pow]

/-- The header up to the frame header, segment by segment. -/
theorem headerBytes_eq (cfg : Cfg) (qt0 qt1 : Vector Byte 64) : ∃ app0 post : List Byte, app0.length = 20 ∧
    headerBytes cfg qt0 qt1 = app0 ++ (segmentBytes (0xDB, dqtPayload 0 qt0) ++
      (segmentBytes (0xDB, dqtPayload 1 qt1) ++ (segmentBytes (0xC0, sof0Payload cfg) ++ post))) :=
  ⟨[0xFF, 0xD8] ++ segmentBytes (0xE0, app0Payload), _, rfl, by
    simp only [headerBytes, headerSegments, List.flatMap_cons, List.append_assoc]; rfl⟩

/-- Settles O44: the segments before the frame header have fixed lengths, so that the fields stand at fixed addresses. -/
theorem headerLayout : Obligations.HeaderLayout := by
  intro cfg qt0 qt1 hn
  obtain ⟨app0, post, h20, hbytes⟩ := headerBytes_eq cfg qt0 qt1
  obtain ⟨l1, l2, rest, hsof⟩ := segmentBytes_sof0 cfg
  rw [bigEndian16_toNat, bigEndian16_toNat] at hsof
  refine ⟨headerSegments_sizes qt0 qt1 hn, length_headerBytes qt0 qt1 hn, ?_⟩
  have hlen (tq : Byte) (qt : Vector Byte 64) : (segmentBytes (0xDB, dqtPayload tq qt)).length = 69 := by
    rw [segmentBytes_dqt]; simp
  have hfront : (app0 ++ (segmentBytes (0xDB, dqtPayload 0 qt0) ++ segmentBytes (0xDB, dqtPayload 1 qt1))).length = 158 := by
    simp only [List.length_append, hlen, h20]
  have hframe (i : Nat) (hi : i < 9) : (headerBytes cfg qt0 qt1)[158 + i]? = (segmentBytes (0xC0, sof0Payload cfg))[i]? := by
    rw [hbytes, ← List.append_assoc (segmentBytes _), ← List.append_assoc app0,
      getElem?_append_middle hfront (by rw [hsof]; simp; omega)]
  refine ⟨by rw [hframe 5 (by omega), hsof]; rfl, by rw [hframe 6 (by omega), hsof]; rfl,
    by rw [hframe 7 (by omega), hsof]; rfl, by rw [hframe 8 (by omega), hsof]; rfl, fun z => ⟨?_, ?_⟩⟩
  · rw [show 25 + z.val = 20 + (5 + z.val) by omega, hbytes, getElem?_append_middle h20 (by rw [hlen]; omega),
      segmentBytes_dqt_getElem?]
  · rw [show 94 + z.val = 89 + (5 + z.val) by omega, hbytes, ← List.append_assoc app0,
      getElem?_append_middle (by simp only [List.length_append, hlen, h20]) (by rw [hlen]; omega), segmentBytes_dqt_getElem?]

end Sys2Proof.Machine
end

section
/-! The entropy coder's calls: run-length coding and the size of a block's code; and the writer that keeps their bits (R101 to
R103, R164, R165). -/

namespace Sys2Proof.Machine

/-! ### The bits of the writer -/

/-- Settles O41: what the writer's laws say of its data bytes and pending bits. -/
theorem writerKeepsTheBits : Obligations.WriterKeepsTheBits := by
  refine ⟨fun cap v n w w' h => ?_, fun cap calls w w' h => ?_⟩
  · obtain ⟨raw, hw⟩ := putBits_wrote h
    exact ⟨raw, hw.bytes, hw.bits⟩
  · obtain ⟨raw, hw⟩ := putCalls_wrote h
    exact ⟨raw, hw.bytes, hw.bits⟩

/-! ### Runs -/

@[simp] theorem acCalls_zero (t : Fin 4) (run : Nat) (vs : List Int) : acCalls t run (0 :: vs) = acCalls t (run + 1) vs := by
  simp [acCalls]

theorem acCalls_nil (t : Fin 4) {run : Nat} (h : 0 < run) : acCalls t run [] = (symbolCall t 0x00).map fun c => [c] := by
  simp [acCalls, h]

theorem acCalls_replicate_zero (t : Fin 4) (run n : Nat) (vs : List Int) :
    acCalls t run (List.replicate n 0 ++ vs) = acCalls t (run + n) vs := by
  induction n generalizing run with
  | zero => rfl
  | succ n ih => rw [List.replicate_succ, List.cons_append, acCalls_zero, ih]; congr 1; omega

/-- A non-zero AC value: what stands before it is the code of the run (R151 (c)). -/
theorem acCalls_cons_eq_some {t : Fin 4} {run : Nat} {v : Int} {vs : List Int} {cs : List BitsCall} (hv : v ≠ 0) :
    acCalls t run (v :: vs) = some cs ↔
      ∃ zrl c after, symbolCall t 0xF0 = some zrl ∧ symbolCall t (run % 16 * 16 + category v) = some c ∧
        acCalls t 0 vs = some after ∧
        cs = List.replicate (run / 16) zrl ++ [c, (valueBits v (category v), category v)] ++ after := by
  rw [acCalls, if_neg hv, acValueCalls]
  cases symbolCall t 0xF0 <;> cases symbolCall t (run % 16 * 16 + category v) <;> cases acCalls t 0 vs <;>
    simp [eq_comm]

/-- Settles O39: zeros only count, and what they counted is coded where they end. -/
theorem runLengthCoding : Obligations.RunLengthCoding := by
  intro t
  refine ⟨rfl, fun n hn => ?_, fun n v vs zrl c after hv hz hc hafter => ?_⟩
  · have h := acCalls_replicate_zero t 0 n []
    rw [List.append_nil, Nat.zero_add] at h
    rw [h, acCalls_nil t hn]
  · rw [acCalls_replicate_zero, Nat.zero_add]
    exact (acCalls_cons_eq_some hv).mpr ⟨zrl, c, after, hz, hc, hafter, rfl⟩

/-! ### The size of a block's code -/

/-- The lengths of the codes that bound the size of a block (R161, R165): the least of a table, and the least of the symbols
with a run. -/
theorem huffTable_least : ∀ r : Role, ∀ e ∈ huffTable (tableNumber .ac r),
    (e.sym.toNat = 0 → e.len = if r = .lum then 4 else 2) ∧ (16 ≤ e.sym.toNat → 3 ≤ e.len) := by
  intro r; cases r <;> decide +kernel

/-- The code of a symbol is that of the table's entry. -/
theorem exists_entry_of_symbolCall {t : Fin 4} {sym : Nat} {c : BitsCall} (h : symbolCall t sym = some c) :
    ∃ e ∈ huffTable t, e.sym.toNat = sym ∧ e.len = c.2 := by
  simp only [symbolCall, Option.map_eq_some_iff] at h
  obtain ⟨e, he, rfl⟩ := h
  exact ⟨e, List.mem_of_find?_eq_some he, beq_iff_eq.mp (List.find?_some (p := fun e : HuffEntry => e.sym.toNat == sym) he), rfl⟩

/-- The size of the code of one non-zero value after a run. -/
theorem bitCount_value (run : Nat) (zrl c : BitsCall) (v : Int) (after : List BitsCall) :
    bitCount (List.replicate (run / 16) zrl ++ [c, (valueBits v (category v), category v)] ++ after) =
      run / 16 * zrl.2 + (c.2 + category v) + bitCount after := by simp [Nat.add_assoc]

/-- At least three bits for a value, four when zeros stand before it. -/
theorem bitCount_acCalls_lower (r : Role) {run : Nat} {vs : List Int} {cs : List BitsCall}
    (h : acCalls (tableNumber .ac r) run vs = some cs) :
    (1 ≤ run + vs.length → (if r = .lum then 3 else 2) ≤ bitCount cs) ∧
    (2 ≤ run + vs.length → (if r = .lum then 4 else 2) ≤ bitCount cs) := by
  induction vs generalizing run cs with
  | nil =>
    rcases Nat.eq_zero_or_pos run with rfl | hr
    · simp
    · rw [acCalls_nil _ hr] at h
      obtain ⟨c, hc, rfl⟩ := Option.map_eq_some_iff.mp h
      obtain ⟨e, he, hs, hl⟩ := exists_entry_of_symbolCall hc
      have := (huffTable_least r e he).1 hs
      rw [bitCount_cons, ← hl, this]
      split <;> simp
  | cons v vs ih =>
    by_cases hv : v = 0
    · subst hv
      rw [acCalls_zero] at h
      have := ih h
      rw [List.length_cons]
      exact ⟨fun _ => this.1 (by omega), fun _ => this.2 (by omega)⟩
    · obtain ⟨zrl, c, after, hz, hc, hafter, rfl⟩ := (acCalls_cons_eq_some hv).mp h
      rw [bitCount_value]
      have hcat := category_pos hv
      obtain ⟨-, hz2, -⟩ := symbolCall_bounds hz
      obtain ⟨-, hc2, -⟩ := symbolCall_bounds hc
      refine ⟨fun _ => by split <;> omega, fun hlen => ?_⟩
      rcases Nat.eq_zero_or_pos run with rfl | hr
      · have := (ih hafter).1 (by simpa using hlen)
        split at this <;> split <;> omega
      · obtain ⟨e, he, hs, hl⟩ := exists_entry_of_symbolCall hc
        rcases Nat.eq_zero_or_pos (run % 16) with h0 | hpos
        · have : 1 ≤ run / 16 := by omega
          have := Nat.mul_le_mul this hz2
          split <;> omega
        · have := (huffTable_least r e he).2 (by omega)
          split <;> omega

/-- At most 26 bits for each value, and no more for the zeros that are coded with it. -/
theorem bitCount_acCalls_upper {t : Fin 4} {run : Nat} {vs : List Int} {cs : List BitsCall}
    (hvs : ∀ v ∈ vs, v.natAbs ≤ 1020) (h : acCalls t run vs = some cs) : bitCount cs ≤ 26 * (run + vs.length) := by
  induction vs generalizing run cs with
  | nil =>
    rcases Nat.eq_zero_or_pos run with rfl | hr
    · cases h; simp
    · rw [acCalls_nil _ hr] at h
      obtain ⟨c, hc, rfl⟩ := Option.map_eq_some_iff.mp h
      obtain ⟨-, -, hc16⟩ := symbolCall_bounds hc
      simp; omega
  | cons v vs ih =>
    have hrest : ∀ v ∈ vs, v.natAbs ≤ 1020 := fun x hx => hvs x (List.mem_cons_of_mem _ hx)
    rw [List.length_cons]
    by_cases hv : v = 0
    · subst hv
      rw [acCalls_zero] at h
      have := ih hrest h
      omega
    · obtain ⟨zrl, c, after, hz, hc, hafter, rfl⟩ := (acCalls_cons_eq_some hv).mp h
      rw [bitCount_value]
      have hcat : category v ≤ 10 := category_le_iff.mpr ((hvs v List.mem_cons_self).trans_lt (by norm_num))
      obtain ⟨-, -, hz16⟩ := symbolCall_bounds hz
      obtain ⟨-, -, hc16⟩ := symbolCall_bounds hc
      have := Nat.mul_le_mul_left (run / 16) hz16
      have := ih hrest hafter
      omega

/-- The largest code and category of a DC table (R161). -/
theorem huffTable_dc_largest : ∀ r : Role, ∀ e ∈ huffTable (tableNumber .dc r), e.len + e.sym.toNat ≤ 22 := by
  intro r; cases r <;> decide +kernel

theorem bitCount_dcCalls_upper {r : Role} {diff : Int} {cs : List BitsCall}
    (h : dcCalls (tableNumber .dc r) diff = some cs) : bitCount cs ≤ 22 := by
  obtain ⟨c, hc, rfl⟩ := Option.map_eq_some_iff.mp h
  obtain ⟨e, he, hs, hl⟩ := exists_entry_of_symbolCall hc
  have := huffTable_dc_largest r e he
  split <;> simp <;> omega

theorem blockCalls_eq_some {r : Role} {pred : BitVec 12} {zb : Vector (BitVec 12) 64} {cs : List BitsCall}
    (h : blockCalls r pred zb = some cs) : ∃ dc ac, dcCalls (tableNumber .dc r) (zb[0].toInt - pred.toInt) = some dc ∧
      acCalls (tableNumber .ac r) 0 (acValues zb) = some ac ∧ cs = dc ++ ac := by
  unfold blockCalls at h
  split at h
  · exact ⟨_, _, by assumption, by assumption, (Option.some.inj h).symm⟩
  · cases h

/-- The bounds of R165 on the bits of a block. -/
theorem bitCount_blockCalls_bounds {r : Role} {pred : BitVec 12} {zb : Vector (BitVec 12) 64} {cs : List BitsCall}
    (hac : ∀ z : Fin 64, z ≠ 0 → ((zb[z.val]).toInt).natAbs ≤ 1020) (h : blockCalls r pred zb = some cs) :
    (if r = .lum then 6 else 4) ≤ bitCount cs ∧ bitCount cs ≤ 1660 := by
  obtain ⟨dc, ac, hdc, hacs, rfl⟩ := blockCalls_eq_some h
  have hlen : (acValues zb).length = 63 := by simp [acValues]
  have hval : ∀ v ∈ acValues zb, v.natAbs ≤ 1020 := fun v hv => by
    obtain ⟨z, hz, rfl⟩ := exists_of_mem_acValues hv
    exact hac z hz
  have hlow := (bitCount_acCalls_lower r hacs).2 (by omega)
  have hhigh := bitCount_acCalls_upper hval hacs
  have hdlow := bitCount_dcCalls hdc
  have hdhigh := bitCount_dcCalls_upper hdc
  rw [bitCount_append]
  refine ⟨?_, by omega⟩
  split at hlow <;> rename_i hr <;> simp only [hr, if_true, if_false] <;> omega

/-- A block's calls append at most 416 bytes (R165). -/
theorem putCalls_out_length {cap : Nat} {calls : List BitsCall} {w w' : Writer} (hc : bitCount calls ≤ 1660)
    (h : putCalls cap calls w = some w') : w.out.length ≤ w'.out.length ∧ w'.out.length ≤ w.out.length + 416 := by
  obtain ⟨raw, hw⟩ := putCalls_wrote h
  obtain ⟨hlo, hhi⟩ := hw.out_length
  rw [length_callBits] at hhi
  have := w.nacc.isLt
  omega

/-- Settles O40: the bounds on the codes of the tables, summed over the values of a block. -/
theorem blockSizeIsBounded : Obligations.BlockSizeIsBounded :=
  ⟨fun _ _ _ _ hac h => bitCount_blockCalls_bounds hac h, fun _ _ _ _ hc h => putCalls_out_length hc h⟩

end Sys2Proof.Machine
end

section
/-! The commands of an image: when `BEGIN`, `BLOCK` and `END` succeed, and exactly what they leave (R205, R206, R208, R234). -/

namespace Sys2Proof.Machine

/-! ### `BEGIN` -/

theorem headerBytes_ne_nil (cfg : Cfg) (qt0 qt1 : Vector Byte 64) : headerBytes cfg qt0 qt1 ≠ [] := by simp [headerBytes]

/-- `BEGIN` writes the header when it fits, and nothing else is then in `OUT` (R181, R205). -/
theorem writeHeaders_fits {cfg : Cfg} {qt0 qt1 : Vector Byte 64} {cap : Nat} (h : (headerBytes cfg qt0 qt1).length ≤ cap) :
    ∃ m : Memory, writeHeaders cap cfg qt0 qt1 resetWriter = some ⟨m, 0, 0⟩ ∧ m.bytes = headerBytes cfg qt0 qt1 ∧ m.wf := by
  obtain ⟨w, hw⟩ := putBytes_isSome (cap := cap) (bs := headerBytes cfg qt0 qt1) (w := resetWriter)
    (by simpa [resetWriter] using h)
  obtain ⟨ha, -⟩ := putBytes_appended hw
  obtain ⟨m, acc, nacc⟩ := w
  obtain rfl : acc = 0 := ha.acc
  obtain rfl : nacc = 0 := ha.nacc
  exact ⟨m, (writeHeaders_eq ..).trans hw, by simpa [resetWriter] using ha.bytes, ha.wf Memory.wf_nil⟩

theorem writeHeaders_eq_none {cfg : Cfg} {qt0 qt1 : Vector Byte 64} {cap : Nat} (h : cap < (headerBytes cfg qt0 qt1).length) :
    writeHeaders cap cfg qt0 qt1 resetWriter = none := by
  rw [writeHeaders_eq]
  exact putBytes_eq_none (by simpa [resetWriter] using h) (headerBytes_ne_nil _ _ _)

/-- Settles O23: the header fits, so it is written as it is. -/
theorem beginWritesTheHeader : Obligations.BeginWritesTheHeader := by
  intro s hs hn hroom
  rw [← length_headerBytes s.qt0 s.qt1 hn] at hroom ⊢
  obtain ⟨m, hm, hb, hw⟩ := writeHeaders_fits hroom
  have hlen : m.length = (headerBytes s.cfg s.qt0 s.qt1).length := by rw [← hb, Memory.length_bytes]
  refine ⟨m, hb, hw, hlen, ?_⟩
  rw [exec_beginImage hs, ruleBegin, hm, ← hlen]
  rfl

/-- Settles O24: the header does not fit. -/
theorem beginWithoutRoomIsDiscarded : Obligations.BeginWithoutRoomIsDiscarded := by
  intro s hs hn hroom
  rw [← length_headerBytes s.qt0 s.qt1 hn] at hroom
  rw [exec_beginImage hs, ruleBegin, writeHeaders_eq_none hroom]
  rfl

/-! ### `BLOCK` -/

/-- The quantized coefficients of any block are in the ranges of R142, in the order they are visited. -/
theorem zb_ac_bounds (sb : Vector Byte 64) {qt : Vector Byte 64} (hqt : ∀ k : Fin 64, qt[k.val] ≠ 0) {z : Fin 64} (hz : z ≠ 0) :
    (((reorder (quantize qt (colPass sb (rowPass sb))))[z.val]).toInt).natAbs ≤ 1020 := by
  have hk : zigzag[z.val] ≠ 0 := fun h => hz (zigzag_injective z 0 h)
  have := (quantizedCoefficients sb qt hqt zigzag[z.val]).2.2.2 hk
  rw [reorder_getElem]
  omega

/-- The calls of any block exist, and are at most 1660 bits, when the divisors are not 0 and the predictor is in range (R162,
R165). -/
theorem exists_blockCalls (r : Role) {pred : BitVec 12} (sb : Vector Byte 64) {qt : Vector Byte 64}
    (hqt : ∀ k : Fin 64, qt[k.val] ≠ 0) (hp : -1024 ≤ pred.toInt ∧ pred.toInt ≤ 1016) :
    ∃ calls, blockCalls r pred (reorder (quantize qt (colPass sb (rowPass sb)))) = some calls ∧ bitCount calls ≤ 1660 := by
  obtain ⟨hlo, hhi⟩ := zb_zero_bounds sb qt hqt
  have hac {z : Fin 64} (hz : z ≠ 0) := zb_ac_bounds sb hqt hz
  obtain ⟨calls, hc, -⟩ := blockCalls_isSome r (pred := pred) (by omega) fun z hz => (hac hz).trans (by norm_num)
  exact ⟨calls, hc, (bitCount_blockCalls_bounds (fun z hz => hac hz) hc).2⟩

theorem ne_zero_of_toNat_pos {n : Nat} {x : BitVec n} (h : 0 < x.toNat) : x ≠ 0 := by
  rintro rfl; simp at h

/-- What `BLOCK` is while blocks are missing, under the invariants that rule its faults out: the coding of its block (R206). -/
theorem ruleBlock_eq_codeBlock (p : Vector CmdWord 16) {s : State} (hlt : s.blkDone < s.blkTotal) (hm : 0 < s.blkPerMcu.toNat)
    (hqt : ∀ (r : Role) (k : Fin 64), (qtOf s r)[k.val] ≠ 0) :
    ruleBlock p s = codeBlock (nextComponent s) s (runStages p (roleOf (nextComponent s)) s) := by
  rw [ruleBlock, if_neg (BitVec.not_le.mpr hlt), if_neg (ne_zero_of_toNat_pos hm),
    hasZeroEntry_eq_false_iff.mpr (hqt _), if_neg Bool.false_ne_true]

/-- The state a coded block leaves, field by field (R57, R206). -/
theorem succeed_block_eq (c : Fin 3) (w : Writer) (p : Vector CmdWord 16) (r : Role) (s : State) :
    succeed .block (s.blkDone + 1) (blockWith c w (runStages p r s)) =
      { s with
        sb := samplesOf p, tb := rowPass (samplesOf p), cb := colPass (samplesOf p) (rowPass (samplesOf p))
        qb := quantize (qtOf s r) (colPass (samplesOf p) (rowPass (samplesOf p)))
        zb := reorder (quantize (qtOf s r) (colPass (samplesOf p) (rowPass (samplesOf p))))
        bw := w
        pred := s.pred.set c.val (reorder (quantize (qtOf s r) (colPass (samplesOf p) (rowPass (samplesOf p)))))[0]
        blkDone := s.blkDone + 1, lastErr := .ok, respPort := s.respPort ++ [⟨.ok, s.blkDone + 1⟩] } := by
  have hqt : qtOf (runTransform (loadSamples p s)) r = qtOf s r := by simp
  simp only [succeed, respond, setLastErr, writesLastErr, blockWith, runStages, runQuantizer, hqt, if_true]
  simp only [runTransform, loadSamples]

/-- Settles O25: the calls exist, they need at most 416 bytes, and the writer either carries them out or does not. -/
theorem blockCodesTheBlock : Obligations.BlockCodesTheBlock := by
  intro p s hs hx hlt hm hqt hp c sb tb cb qb zb coded
  obtain ⟨calls, hcalls, hbits⟩ := exists_blockCalls (roleOf c) sb (hqt (roleOf c)) (hp c)
  have hexec {w : Writer} (hw : putCalls s.outCap.toNat calls s.bw = some w) :
      exec (.block false p) s = .next (coded w) := by
    rw [exec_block hs hx, ruleBlock_eq_codeBlock p hlt hm hqt, codeBlock]
    simp only [runStages_pred, runStages_zb, runStages_outCap, runStages_bw, runStages_blkDone]
    rw [show blockCalls (roleOf (nextComponent s)) s.pred[nextComponent s] _ = some calls from hcalls]
    simp only [hw]
    exact congrArg _ (succeed_block_eq c w p (roleOf c) s)
  refine ⟨calls, hcalls, fun hroom => ?_, fun w hw => hexec hw⟩
  have hn := s.bw.nacc.isLt
  obtain ⟨w, hw⟩ := putCalls_isSome (cs := calls) (w := s.bw) (cap := s.outCap.toNat) (by omega)
  exact ⟨w, hw, hexec hw⟩

/-- Settles O26: the count is checked first; a block's calls exist, so only the writer can fail. -/
theorem blockRefusalsDiscard : Obligations.BlockRefusalsDiscard := by
  intro p s hs hx discarded
  refine ⟨fun hge => ?_, fun hlt hm hqt hp hnone => ?_⟩
  · rw [exec_block hs hx, ruleBlock, if_pos hge]
    rfl
  · obtain ⟨calls, hcalls, -⟩ := exists_blockCalls (roleOf (nextComponent s)) (samplesOf p) (hqt _) (hp (nextComponent s))
    rw [exec_block hs hx, ruleBlock_eq_codeBlock p hlt hm hqt, codeBlock]
    simp only [runStages_pred, runStages_zb, runStages_outCap, runStages_bw, runStages_blkDone]
    rw [show blockCalls (roleOf (nextComponent s)) s.pred[nextComponent s] _ = some calls from hcalls]
    simp only [hnone calls hcalls]
    rfl

/-! ### `END` -/

/-- A bit that leaves nothing pending was the last of its byte, and `ACC` is cleared (R102). -/
theorem putBit_acc {cap : Nat} {b : Bool} {w w' : Writer} (h : putBit cap b w = some w') (hn : w'.nacc = 0) : w'.acc = 0 := by
  unfold putBit at h
  split at h
  · exact (emitDataByte_eq_some h).1
  case isFalse h7 =>
    cases h
    have hwrap : ∀ n : Fin 8, n + 1 = 0 → n = 7 := by decide
    exact absurd (hwrap w.nacc hn) h7

theorem putBits_acc {cap v n : Nat} {w w' : Writer} (hpos : 0 < n) (h : putBits cap v n w = some w') (hn : w'.nacc = 0) :
    w'.acc = 0 := by
  induction n generalizing w with
  | zero => omega
  | succ n ih =>
    simp only [putBits, Option.bind_eq_some_iff] at h
    obtain ⟨w1, h1, h2⟩ := h
    rcases Nat.eq_zero_or_pos n with rfl | hn'
    · cases h2; exact putBit_acc h1 hn
    · exact ih hn' h2

theorem replicate_eq_byteBits_ff : List.replicate 8 true = byteBits 0xFF := by decide

/-- The padded byte is 0xFF exactly when all pending bits are 1 (R104). -/
theorem padded_eq_ff_iff {w : Writer} {b : Byte}
    (h : byteBits b = pendingBits w ++ List.replicate (8 - w.nacc.val) true) :
    b = 0xFF ↔ pendingBits w = List.replicate w.nacc.val true := by
  have h8 : List.replicate w.nacc.val true ++ List.replicate (8 - w.nacc.val) true = byteBits 0xFF := by
    rw [← replicate_eq_byteBits_ff, List.replicate_append_replicate, Nat.add_sub_cancel' (by omega)]
  constructor
  · rintro rfl
    rw [← h8] at h
    exact (List.append_cancel_right h).symm
  · intro hp
    rw [hp, h8] at h
    exact byteBits_injective h

/-- What a finished stream is made of: the padded byte if bits are pending, stuffed, and the end marker; `endBytes` counts them
(R104, R109). -/
structure Finished (w w' : Writer) (raw : List Byte) : Prop where
  bytes : w'.out.bytes = w.out.bytes ++ stuffBytes raw ++ [0xFF, 0xD9]
  nacc : w'.nacc = 0
  acc : w'.acc = if w.nacc = 0 then w.acc else 0
  wf : w.out.wf → w'.out.wf
  length : w'.out.length = w.out.length + endBytes w
  none_pending : w.nacc = 0 → raw = []
  pending : w.nacc ≠ 0 → raw.length = 1 ∧
    raw.flatMap byteBits = pendingBits w ++ List.replicate (8 - w.nacc.val) true

/-- Everything a successful `BW.finalize` can do. -/
theorem finalize_eq_some {cap : Nat} {w w' : Writer} (h : finalize cap w = some w') :
    (∃ raw, Finished w w' raw) ∧ w'.out.length ≤ cap := by
  rw [finalize_eq, Option.bind_eq_some_iff] at h
  obtain ⟨w1, h1, h2⟩ := h
  obtain ⟨ha, -⟩ := putBytes_appended h2
  have hlen := ha.length
  have hcap : w1.out.length + 2 ≤ cap := by
    by_contra hlt
    rw [putBytes_eq_none (by simpa using Nat.lt_of_not_le hlt) (by simp)] at h2
    cases h2
  refine ⟨?_, by simpa [hlen] using hcap⟩
  by_cases h0 : w.nacc = 0
  · rw [flush_of_nacc_zero h0] at h1
    cases h1
    exact ⟨[], by simpa using ha.bytes, ha.nacc.trans h0, by rw [if_pos h0]; exact ha.acc, ha.wf,
      by rw [hlen, endBytes, if_pos h0]; rfl, fun _ => rfl, fun hn => absurd h0 hn⟩
  · obtain ⟨b, hw, hn⟩ := flush_wrote h0 h1
    have hbits : byteBits b = pendingBits w ++ List.replicate (8 - w.nacc.val) true := by
      simpa [pendingBits, hn] using hw.bits.symm
    have hacc : w1.acc = 0 := by
      rw [flush_eq_putBits h0] at h1
      exact putBits_acc (by omega) h1 hn
    have hsize : (stuffBytes [b]).length + 2 = endBytes w := by
      rw [stuffBytes_singleton, endBytes, if_neg h0]
      simp only [padded_eq_ff_iff hbits]
      split <;> rfl
    have hout := congrArg List.length hw.bytes
    simp only [Memory.length_bytes, List.length_append] at hout
    exact ⟨[b], by rw [ha.bytes, hw.bytes], ha.nacc.trans hn, by rw [if_neg h0]; exact ha.acc.trans hacc,
      fun hwf => ha.wf (hw.wf hwf), by rw [hlen, hout, ← hsize, Nat.add_assoc]; rfl, fun hz => absurd hz h0,
      fun _ => ⟨rfl, by simpa using hbits⟩⟩

/-- `BW.finalize` succeeds when its bytes fit (R234). -/
theorem finalize_fits {cap : Nat} {w : Writer} (h : w.out.length + endBytes w ≤ cap) :
    ∃ w' raw, finalize cap w = some w' ∧ Finished w w' raw := by
  obtain ⟨w', hd⟩ := delivers_finalize w
  obtain ⟨⟨raw, hf⟩, -⟩ := finalize_eq_some hd.eq_some
  exact ⟨w', raw, by rw [hd.run cap (by omega), if_pos (hf.length ▸ h)], hf⟩

/-- Otherwise it raises `E_ALLOC` (R234). -/
theorem finalize_eq_none {cap : Nat} {w : Writer} (h : cap < w.out.length + endBytes w) : finalize cap w = none := by
  cases hw : finalize cap w with
  | none => rfl
  | some w' =>
    obtain ⟨⟨raw, hf⟩, hc⟩ := finalize_eq_some hw
    have := hf.length
    omega

/-- Settles O27: the bytes of the end fit, so they are written. -/
theorem endFinishesTheStream : Obligations.EndFinishesTheStream := by
  intro s hs hd hroom
  obtain ⟨w, raw, hw, hf⟩ := finalize_fits hroom
  refine ⟨w, raw, hf.bytes, hf.nacc, hf.acc, hf.wf, hf.length, hf.none_pending, hf.pending, ?_⟩
  rw [exec_endImage hs, ruleEnd, if_pos hd, hw]
  rfl

/-- Settles O28: the count is checked first; then only the writer can fail. -/
theorem endRefusalsDiscard : Obligations.EndRefusalsDiscard := by
  intro s hs discarded
  refine ⟨fun hne => ?_, fun hd hroom => ?_⟩
  · rw [exec_endImage hs, ruleEnd, if_neg hne]
    rfl
  · rw [exec_endImage hs, ruleEnd, if_pos hd, finalize_eq_none hroom]
    rfl

end Sys2Proof.Machine
end

section
/-! The invariant: it holds after reset, every step keeps it, it implies R34, and no step from it stops (R34, R35, R239). -/

namespace Sys2Proof.Machine

/-! ### The context -/

/-- The counts a context holds, as numbers: neither loses bits in its register, and an image has at least one MCU (R34 (d)). -/
theorem ContextBuilt.counts {s : State} (h : ContextBuilt s) : s.blkPerMcu.toNat = blocksPerMcu s.cfg ∧
    s.blkTotal.toNat = totalBlocks s.cfg ∧ 1 ≤ s.blkPerMcu.toNat ∧ s.blkPerMcu.toNat ≤ s.blkTotal.toNat := by
  obtain ⟨hg, -, -, -, hm, ht⟩ := h
  have hl := legalGeometry_of_geometryOk hg
  obtain ⟨hb1, hb2⟩ := hl.bpm
  obtain ⟨hle, hmax⟩ := hl.total
  have hmn : s.blkPerMcu.toNat = blocksPerMcu s.cfg := by rw [hm, BitVec.toNat_ofNat]; omega
  have htn : s.blkTotal.toNat = totalBlocks s.cfg := by rw [ht, BitVec.toNat_ofNat]; omega
  exact ⟨hmn, htn, by omega, by omega⟩

theorem ContextBuilt.qtOf {s : State} (h : ContextBuilt s) (r : Role) : qtOf s r = buildTable s.cfg.quality.toNat r := by
  obtain ⟨-, -, h0, h1, -, -⟩ := h
  cases r
  · exact h0
  · exact h1

/-- No table of a context has a zero entry (R35, R141). -/
theorem ContextBuilt.qtOf_ne_zero {s : State} (h : ContextBuilt s) (r : Role) (k : Fin 64) : (Machine.qtOf s r)[k.val] ≠ 0 := by
  have := buildTable_bounds s.cfg.quality.toNat r k.val k.isLt
  rw [h.qtOf]
  exact ne_zero_of_toNat_pos (by omega)

theorem ContextBuilt.length_headerBytes {s : State} (h : ContextBuilt s) :
    (headerBytes s.cfg s.qt0 s.qt1).length = headerLength s.cfg :=
  Machine.length_headerBytes _ _ (ncomp_of_geometryOk h.1)

theorem headerLength_bounds (cfg : Cfg) : 613 ≤ headerLength cfg ∧ headerLength cfg ≤ 623 := by
  unfold headerLength; split <;> omega

/-! ### Reset -/

theorem sound_resetWith (cap : Word) : Sound (State.resetWith cap) where
  memory := rfl
  capacity := Nat.zero_le _
  idle _ := ⟨rfl, rfl⟩
  destroyed := nofun
  valid := nofun
  created := nofun
  encoding := nofun
  configured := by rintro (h | h) <;> cases h
  counted := BitVec.le_refl _

/-- Settles O45. -/
theorem resetIsSound : Obligations.ResetIsSound := ⟨sound_resetWith _, sound_resetWith⟩

/-! ### Successful commands -/

theorem Sound.outValid_eq_false {s : State} (h : Sound s) (hs : s.lifecycle ≠ .created) : s.outValid = false := by
  cases hv : s.outValid with
  | false => rfl
  | true => exact absurd (h.valid hv).1 hs

theorem sound_wrcfg {s : State} (h : Sound s) (hs : s.lifecycle = .idle) (cfg : Cfg) : Sound { s with cfg := cfg } where
  memory := h.memory
  capacity := h.capacity
  idle := h.idle
  destroyed := h.destroyed
  valid hv := absurd ((h.valid hv).1.symm.trans hs) nofun
  created hc := absurd (hc.symm.trans hs) nofun
  encoding he := absurd (he.symm.trans hs) nofun
  configured := by rintro (hc | hc) <;> exact absurd (hc.symm.trans hs) nofun
  counted := h.counted

theorem sound_createContext {s : State} (h : Sound s) (hs : s.lifecycle = .idle) (hg : geometryOk s.cfg = true)
    (hq : qualityOk s.cfg = true) : Sound (createContext s) where
  memory := by simpa using h.memory
  capacity := by simpa using h.capacity
  idle := nofun
  destroyed := nofun
  valid hv := absurd ((h.valid hv).1.symm.trans hs) nofun
  created _ _ := (h.idle hs).1
  encoding := nofun
  configured _ := ⟨by simpa using hg, by simpa using hq, by simp, by simp, by simp, by simp⟩
  counted := BitVec.le_def.mpr (Nat.zero_le _)

theorem sound_destroyContext {s : State} (h : Sound s) : Sound (destroyContext s) where
  memory := rfl
  capacity := Nat.zero_le _
  idle := nofun
  destroyed _ := rfl
  valid := nofun
  created := nofun
  encoding := nofun
  configured := by rintro (h | h) <;> cases h
  counted := h.counted

/-- A context does not see the image in flight. -/
theorem ContextBuilt.congr {s t : State} (h : ContextBuilt s) (hcfg : t.cfg = s.cfg) (h0 : t.qt0 = s.qt0) (h1 : t.qt1 = s.qt1)
    (hm : t.blkPerMcu = s.blkPerMcu) (ht : t.blkTotal = s.blkTotal) : ContextBuilt t := by
  obtain ⟨hg, hq, hq0, hq1, hm', ht'⟩ := h
  unfold ContextBuilt
  rw [hcfg, h0, h1, hm, ht]
  exact ⟨hg, hq, hq0, hq1, hm', ht'⟩

theorem sound_beginWith {s : State} {w : Writer} (h : Sound s) (hs : s.lifecycle = .created)
    (hw : writeHeaders s.outCap.toNat s.cfg s.qt0 s.qt1 resetWriter = some w) : Sound (beginWith w s) := by
  rw [writeHeaders_eq] at hw
  obtain ⟨ha, hc⟩ := putBytes_appended hw
  exact
    { memory := ha.wf Memory.wf_nil
      capacity := hc (Nat.zero_le _)
      idle := nofun
      destroyed := nofun
      valid := nofun
      created := nofun
      encoding := fun _ => ⟨fun c => by simp, [], by simpa [ScanData, resetWriter] using ha.bytes, fun hpos => by simp at hpos⟩
      configured := fun _ => (h.configured (.inl hs)).congr rfl rfl rfl rfl rfl
      counted := BitVec.le_def.mpr (Nat.zero_le _) }

/-- A block adds at least two bits, so that scan data or pending bits are left (R110). -/
theorem Wrote.progress {bits : List Bool} {w w' : Writer} {raw : List Byte} (h : Wrote bits w w' raw) (hb : 0 < bits.length) :
    raw ≠ [] ∨ w'.nacc ≠ 0 := by
  by_contra hn
  obtain ⟨rfl, h0⟩ := not_or.mp hn |>.imp not_not.mp not_not.mp
  have hlen := h.length
  rw [h0] at hlen
  simp only [List.length_nil, Fin.val_zero] at hlen
  omega

theorem predInRange_set {s : State} (h : PredInRange s) (c : Fin 3) {x : BitVec 12} (hx : -1024 ≤ x.toInt ∧ x.toInt ≤ 1016)
    (c' : Fin 3) : -1024 ≤ ((s.pred.set c.val x)[c'.val]).toInt ∧ ((s.pred.set c.val x)[c'.val]).toInt ≤ 1016 := by
  rw [Vector.getElem_set]
  split
  · exact hx
  · exact h c'

theorem sound_blockWith {s : State} {p : Vector CmdWord 16} {c : Fin 3} {calls : List BitsCall} {w : Writer} (h : Sound s)
    (hs : s.lifecycle = .encoding) (hlt : s.blkDone < s.blkTotal) (hz : ∀ k : Fin 64, (qtOf s (roleOf c))[k.val] ≠ 0)
    (hc : blockCalls (roleOf c) s.pred[c] (runStages p (roleOf c) s).zb = some calls)
    (hw : putCalls s.outCap.toNat calls s.bw = some w) : Sound (blockWith c w (runStages p (roleOf c) s)) := by
  obtain ⟨hpred, raw, hscan, -⟩ := h.encoding hs
  obtain ⟨raw', hwrote⟩ := putCalls_wrote hw
  have hbits : 0 < (callBits calls).length := by
    have := bitCount_blockCalls hc
    rw [length_callBits]; omega
  exact
    { memory := by simpa using hwrote.wf h.memory
      capacity := by simpa using putCalls_capacity hw h.capacity
      idle := fun hi => by simp [hs] at hi
      destroyed := fun hi => by simp [hs] at hi
      valid := fun hv => by simp [h.outValid_eq_false (by rw [hs]; nofun)] at hv
      created := fun hi => by simp [hs] at hi
      encoding := fun _ => by
        refine ⟨fun c' => ?_, raw ++ raw', ?_, fun _ => ?_⟩
        · simpa using predInRange_set hpred c (zb_zero_bounds (samplesOf p) _ hz) c'
        · have hbytes : s.bw.out.bytes = headerBytes s.cfg s.qt0 s.qt1 ++ stuffBytes raw := hscan
          simpa [ScanData, stuffBytes_append, hbytes] using hwrote.bytes
        · rcases hwrote.progress hbits with hne | hne
          · exact .inl (by simp [hne])
          · exact .inr (by simpa using hne)
      configured := fun _ => (h.configured (.inr hs)).congr (by simp) (by simp) (by simp) (by simp) (by simp)
      counted := by
        have := BitVec.lt_def.mp hlt
        have := s.blkTotal.isLt
        simp only [blockWith_blkDone, blockWith_blkTotal, runStages_blkDone, runStages_blkTotal, BitVec.le_def, BitVec.toNat_add]
        simp
        omega }

theorem sound_endWith {s : State} {w : Writer} (h : Sound s) (hs : s.lifecycle = .encoding) (hd : s.blkDone = s.blkTotal)
    (hw : finalize s.outCap.toNat s.bw = some w) : Sound (endWith w s) := by
  obtain ⟨-, raw, hscan, hprog⟩ := h.encoding hs
  obtain ⟨⟨raw', hf⟩, hcap⟩ := finalize_eq_some hw
  have hbuilt := h.configured (.inr hs)
  obtain ⟨-, -, hm1, hmt⟩ := hbuilt.counts
  have hne : raw ++ raw' ≠ [] := by
    by_cases h0 : s.bw.nacc = 0
    · rcases hprog (by rw [hd]; omega) with hr | hn
      · simp [hr]
      · exact absurd h0 hn
    · have : raw' ≠ [] := List.length_pos_iff.mp (by rw [(hf.pending h0).1]; exact Nat.one_pos)
      simp [this]
  exact
    { memory := hf.wf h.memory
      capacity := hcap
      idle := nofun
      destroyed := nofun
      valid := fun _ => ⟨rfl, hf.nacc, raw ++ raw', hne, by
        rw [endWith_bw, hf.bytes, hscan, stuffBytes_append, ← List.append_assoc]; rfl⟩
      created := nofun
      encoding := nofun
      configured := fun _ => hbuilt.congr rfl rfl rfl rfl rfl
      counted := h.counted }

/-- Every success keeps the invariant. -/
theorem Succeeds.sound {i : Instr} {s u : State} {d : Word} (hl : legal i.op s = true) (h : Succeeds i s d u) (hs : Sound s) :
    Sound u := by
  cases h with
  | wrcfg _ => exact sound_wrcfg hs (legal_wrcfg.mp hl) _
  | rdreg _ => exact hs
  | create hg hq => exact sound_createContext hs (legal_create.mp hl) hg hq
  | beginImage hw => exact sound_beginWith hs (legal_beginImage.mp hl) hw
  | block hlt hz hc hw => exact sound_blockWith hs (legal_block.mp hl) hlt hz hc hw
  | endImage hd hw => exact sound_endWith hs (legal_endImage.mp hl) hd hw
  | destroy => exact sound_destroyContext hs
  | rdout _ => exact hs

/-! ### Every step -/

/-- An image is given up only where there is a context. -/
theorem Discards.lifecycle {o : Op} {c : Code} {s : State} (h : Discards o c s) :
    s.lifecycle = .created ∨ s.lifecycle = .encoding := by
  rcases h with ⟨-, hs, -⟩ | ⟨hl, rfl | rfl | rfl, -⟩
  · exact .inr hs
  · exact .inl (legal_beginImage.mp hl)
  · exact .inr (legal_block.mp hl)
  · exact .inr (legal_endImage.mp hl)

/-- Every command keeps the invariant. -/
theorem exec_sound {i : Instr} {s t : State} (hs : Sound s) (h : exec i s = .next t) : Sound t := by
  cases ends_of_exec h with
  | destroyed _ => exact sound_respond _ _ hs
  | failed c _ _ _ => exact sound_fail _ c hs
  | discarded c hd => exact sound_fail _ c (sound_discard hs hd.lifecycle)
  | succeeded hl hu => exact sound_succeed _ _ (hu.sound hl hs)

theorem answerUndefinedOp_sound {s : State} (hs : Sound s) : Sound (answerUndefinedOp s) := by
  unfold answerUndefinedOp
  split
  · exact sound_respond _ _ hs
  · exact sound_fail .create .eIllegal hs

theorem answerReservedArg_sound {s : State} (o : Op) (hs : Sound s) : Sound (answerReservedArg o s) := by
  unfold answerReservedArg
  split
  · exact sound_respond _ _ hs
  · exact sound_fail o _ hs

/-- Settles O46: by everything a step can do. -/
theorem everyStepKeepsSoundness : Obligations.EveryStepKeepsSoundness := by
  intro s t hs h
  rcases step_cases h with ⟨-, rfl⟩ | ⟨-, -, rfl⟩ | ⟨i, rest, -, -, he⟩ | ⟨rest, -, -, rfl⟩ | ⟨o, rest, -, -, rfl⟩
  · exact sound_resetWith s.outCap
  · exact hs
  · exact exec_sound (sound_cmdPort rest hs) he
  · exact answerUndefinedOp_sound (sound_cmdPort rest hs)
  · exact answerReservedArg_sound o (sound_cmdPort rest hs)

/-! ### What the invariant says -/

/-- An image in flight holds its header (R34 (b)). -/
theorem Sound.header_le {s : State} (h : Sound s) (hs : s.lifecycle = .encoding) : headerLength s.cfg ≤ s.bw.out.length := by
  obtain ⟨-, raw, hscan, -⟩ := h.encoding hs
  rw [← Memory.length_bytes, hscan, List.length_append, (h.configured (.inr hs)).length_headerBytes]
  omega

/-- A finished stream holds its header, scan data and the end marker (R34 (a)). -/
theorem Sound.finished_le {s : State} (h : Sound s) (hv : s.outValid = true) : headerLength s.cfg + 3 ≤ s.bw.out.length := by
  obtain ⟨hc, -, raw, hf⟩ := h.valid hv
  rw [hf.length (h.configured (.inl hc)).length_headerBytes]
  have := le_length_stuffBytes raw
  have := List.length_pos_iff.mpr hf.1
  omega

/-- Settles O47: the clauses of R34, from the shape of the output and from the context. -/
theorem soundStatesMeetR34 : Obligations.SoundStatesMeetR34 := by
  intro s h
  have hheader := headerLength_bounds s.cfg
  refine ⟨fun hv => ⟨(h.valid hv).1, ?_⟩, fun hs => ⟨h.outValid_eq_false (by rw [hs]; nofun), by omega, ?_⟩, fun hs => ?_,
    fun hs => ?_, fun hs hv => by rw [h.created hs hv]; rfl, BitVec.le_def.mp h.counted⟩
  · have := h.finished_le hv
    omega
  · have := h.header_le hs
    omega
  · exact ⟨by rw [(h.idle hs).1]; rfl, h.outValid_eq_false (by rw [hs]; nofun), (h.idle hs).2⟩
  · have hb := h.configured hs
    obtain ⟨-, -, hm1, hmt⟩ := hb.counts
    exact ⟨hb.1, hb.2.1, fun r k => by rw [hb.qtOf]; exact buildTable_bounds _ r k.val k.isLt, hm1, hmt⟩

/-! ### No step stops -/

/-- The block of any samples is coded or discarded: the invariant rules its three faults out (log entry 7). -/
theorem ruleBlock_next {s : State} (p : Vector CmdWord 16) (h : Sound s) (hs : s.lifecycle = .encoding) :
    ∃ t, ruleBlock p s = .next t := by
  have hb := h.configured (.inr hs)
  obtain ⟨-, -, hm1, -⟩ := hb.counts
  by_cases hge : s.blkTotal ≤ s.blkDone
  · exact ⟨_, if_pos hge⟩
  rw [ruleBlock_eq_codeBlock p (BitVec.not_le.mp hge) hm1 hb.qtOf_ne_zero]
  obtain ⟨calls, hcalls, -⟩ := exists_blockCalls (roleOf (nextComponent s)) (samplesOf p) (hb.qtOf_ne_zero _)
    ((h.encoding hs).1 (nextComponent s))
  rcases codeBlock_cases (nextComponent s) s (runStages p (roleOf (nextComponent s)) s) with
    ⟨_, _, _, _, hn⟩ | ⟨_, _, _, hn⟩ | ⟨hnone, -⟩
  · exact ⟨_, hn⟩
  · exact ⟨_, hn⟩
  · simp only [runStages_pred, runStages_zb] at hnone
    exact absurd (hnone.symm.trans hcalls) nofun

/-- Every command answers from a state that meets the invariant. -/
theorem exec_next (i : Instr) {s : State} (h : Sound s) : ∃ t, exec i s = .next t := by
  rw [exec_eq_gate]
  rcases gate_cases i.op (anyXerr (encode i)) s (ownRule i) with
    ⟨-, h'⟩ | ⟨-, -, -, -, h'⟩ | ⟨-, -, -, h'⟩ | ⟨-, -, -, h'⟩ | ⟨hl, -, h'⟩ <;> rw [h']
  · exact ⟨_, rfl⟩
  · exact ⟨_, rfl⟩
  · exact ⟨_, rfl⟩
  · exact ⟨_, rfl⟩
  · cases i with
    | wrcfg x reg v => rcases ruleWrcfg_cases reg v.w s with ⟨_, -, hn⟩ | ⟨-, hn⟩ <;> exact ⟨_, hn⟩
    | rdreg x reg => rcases ruleRdreg_cases reg s with ⟨_, -, hn⟩ | ⟨-, hn⟩ <;> exact ⟨_, hn⟩
    | create x => rcases ruleCreate_cases s with ⟨-, -, hn⟩ | ⟨-, -, hn⟩ | ⟨-, hn⟩ <;> exact ⟨_, hn⟩
    | beginImage x => rcases ruleBegin_cases s with ⟨_, -, hn⟩ | ⟨-, hn⟩ <;> exact ⟨_, hn⟩
    | block x p => exact ruleBlock_next p h (legal_block.mp hl)
    | endImage x => rcases ruleEnd_cases s with ⟨_, -, -, hn⟩ | ⟨-, -, hn⟩ | ⟨-, hn⟩ <;> exact ⟨_, hn⟩
    | destroy x => exact ⟨_, rfl⟩
    | rdout x a => rcases ruleRdout_cases a.w s with ⟨_, -, hn⟩ | ⟨-, hn⟩ <;> exact ⟨_, hn⟩

/-- Settles O48: of all the decoder can find, only a command could stop, and none does. -/
theorem soundStatesNeverStop : Obligations.SoundStatesNeverStop := by
  intro s h
  cases hr : s.resetIn with
  | true => exact ⟨_, step_of_resetIn hr⟩
  | false =>
    cases hd : decode s.cmdPort with
    | waiting => exact ⟨_, step_of_waiting hr hd⟩
    | instr i rest => rw [step_of_instr hr hd]; exact exec_next i (sound_cmdPort rest h)
    | undefinedOp rest => exact ⟨_, step_of_undefinedOp hr hd⟩
    | reservedArg o rest => exact ⟨_, step_of_reservedArg hr hd⟩

/-! ### The output space -/

/-- Bytes appended to a canonical output space leave every byte at its address (R51). -/
theorem read_eq_of_bytes_append {m m' : Memory} {bs : List Byte} (hw : m.wf) (hw' : m'.wf) (h : m'.bytes = m.bytes ++ bs)
    {a : Nat} (ha : a < m.length) : Memory.read m' a = Memory.read m a := by
  rw [Memory.read_eq_getElem hw', Memory.read_eq_getElem hw, h, List.getElem?_append_left (by simpa using ha)]

/-- Settles O52: by the kinds of answers; `BLOCK` and `END` append. -/
theorem outputIsAppendOnly : Obligations.OutputIsAppendOnly := by
  intro i s t hs h hi
  have hwf := exec_memory_wf h hs.memory
  cases ends_of_exec h with
  | destroyed _ => exact ⟨.inr fun _ _ => rfl, fun _ _ => .inr fun _ => rfl, fun _ _ => rfl, .inl⟩
  | failed c _ _ _ => exact ⟨by simp, by simp, by simp, fun hv => .inl (by simpa using hv)⟩
  | discarded c _ => simp
  | succeeded hl hu =>
    simp only [succeed_bw, succeed_outValid] at hwf ⊢
    cases hu with
    | beginImage _ => exact absurd rfl hi
    | block hlt hz hc hw =>
      have hv : s.outValid = false := hs.outValid_eq_false (by rw [legal_block.mp hl]; nofun)
      obtain ⟨raw, hwrote⟩ := putCalls_wrote hw
      rw [blockWith_bw] at hwf ⊢
      exact ⟨.inr fun a ha => read_eq_of_bytes_append hs.memory hwf hwrote.bytes ha, fun hne => absurd rfl hne,
        by simp [hv], by simp [hv]⟩
    | endImage hd hw =>
      have hv : s.outValid = false := hs.outValid_eq_false (by rw [legal_endImage.mp hl]; nofun)
      obtain ⟨⟨raw, hf⟩, -⟩ := finalize_eq_some hw
      exact ⟨.inr fun a ha => read_eq_of_bytes_append hs.memory hwf (hf.bytes.trans (List.append_assoc _ _ _)) ha,
        fun _ hne => absurd rfl hne, by simp [hv], fun _ => .inr rfl⟩
    | destroy => simp
    | wrcfg _ => exact ⟨.inr fun _ _ => rfl, fun _ _ => .inr fun _ => rfl, fun _ _ => rfl, .inl⟩
    | rdreg _ => exact ⟨.inr fun _ _ => rfl, fun _ _ => .inr fun _ => rfl, fun _ _ => rfl, .inl⟩
    | create _ _ => exact ⟨by simp, by simp, by simp, fun hv => .inl (by simpa using hv)⟩
    | rdout _ => exact ⟨.inr fun _ _ => rfl, fun _ _ => .inr fun _ => rfl, fun _ _ => rfl, .inl⟩

end Sys2Proof.Machine
end

section
/-! What a command looks at: two states that agree there are given the same answer, one function of the state for both. So
hidden state never shows (R8, R212), `LAST_ERR` has no effect (R27), and `BEGIN` forgets (R60). -/

namespace Sys2Proof.Machine

/-! ### Answers as functions of the state -/

/-- What the successful commands do to the state before their response (R202 to R210). -/
inductive Effect : (State → State) → Prop
  | none : Effect id
  | setCfg (cfg : Cfg) : Effect fun s => { s with cfg := cfg }
  | create : Effect createContext
  | beginImage (w : Writer) : Effect (beginWith w)
  | block (p : Vector CmdWord 16) (r : Role) (c : Fin 3) (w : Writer) : Effect fun s => blockWith c w (runStages p r s)
  | endImage (w : Writer) : Effect (endWith w)
  | destroy : Effect destroyContext

/-- The answers a command can be given, with the response they add (R200). -/
inductive Answer : Response → (State → State) → Prop
  | respond (c : Code) : Answer ⟨c, 0⟩ (respond c 0)
  | fail (o : Op) (c : Code) : Answer ⟨c, 0⟩ (fail o c)
  | failDiscard (o : Op) (c : Code) : Answer ⟨c, 0⟩ fun s => Machine.fail o c (discard s)
  | succeed (o : Op) (d : Word) {f : State → State} (h : Effect f) : Answer ⟨.ok, d⟩ fun s => Machine.succeed o d (f s)

theorem Effect.respPort {f : State → State} (h : Effect f) (s : State) : (f s).respPort = s.respPort := by
  cases h <;> simp

theorem Answer.respPort {r : Response} {f : State → State} (h : Answer r f) (s : State) :
    (f s).respPort = s.respPort ++ [r] := by
  cases h with
  | succeed o d he => rw [succeed_respPort, he.respPort]
  | _ => simp

/-! ### What commands look at -/

/-- Two states that agree on all that commands look at, but for `LAST_ERR`, which only its own read looks at. -/
structure SameInputs (s t : State) : Prop where
  lifecycle : s.lifecycle = t.lifecycle
  cfg : s.cfg = t.cfg
  blkTotal : s.blkTotal = t.blkTotal
  blkPerMcu : s.blkPerMcu = t.blkPerMcu
  qt0 : s.qt0 = t.qt0
  qt1 : s.qt1 = t.qt1
  outCap : s.outCap = t.outCap
  outValid : s.outValid = t.outValid
  out : s.bw.out = t.bw.out
  blkDone : s.blkDone = t.blkDone
  inFlight : s.lifecycle = .encoding → s.bw = t.bw ∧ s.pred = t.pred

theorem SameInputs.legal {s t : State} (h : SameInputs s t) (o : Op) : legal o s = legal o t := by
  cases o <;> simp only [Machine.legal, h.lifecycle, h.outValid]

theorem SameInputs.qtOf {s t : State} (h : SameInputs s t) (r : Role) : qtOf s r = qtOf t r := by
  cases r
  · exact h.qt0
  · exact h.qt1

theorem SameInputs.nextComponent {s t : State} (h : SameInputs s t) : nextComponent s = nextComponent t := by
  simp only [Machine.nextComponent, h.cfg, h.blkDone, h.blkPerMcu]

/-- Every register but `LAST_ERR` reads the same. -/
theorem SameInputs.readReg {s t : State} (h : SameInputs s t) {reg : Byte} (hr : reg = 0x11 → s.lastErr = t.lastErr) :
    readReg s reg = readReg t reg := by
  have hstatus : statusWord s = statusWord t := by simp only [statusWord, h.outValid, h.lifecycle]
  have hlen : outLen s = outLen t := by simp only [outLen, h.outValid, h.out]
  by_cases h11 : reg = 0x11
  · subst h11
    exact congrArg (fun c : Code => some (c.toBits.setWidth 32)) (hr rfl)
  · have hne : reg.toNat ≠ 0x11 := fun hn => h11 (BitVec.eq_of_toNat_eq hn)
    unfold Machine.readReg
    split
    case h_7 hn => exact absurd hn hne
    all_goals simp only [h.cfg, hstatus, hlen, h.blkDone, h.blkTotal, h.blkPerMcu, h.qt0, h.qt1]

/-- Both states are given the same answer, or both stop with the same fault. -/
def SameAnswer (a b : Result) (s t : State) : Prop :=
  (∃ r f, Answer r f ∧ a = .next (f s) ∧ b = .next (f t)) ∨ ∃ e : Fault, a = .fault e ∧ b = .fault e

theorem SameAnswer.of_answer {s t : State} {r : Response} {f : State → State} (h : Answer r f) :
    SameAnswer (.next (f s)) (.next (f t)) s t := .inl ⟨r, f, h, rfl, rfl⟩

/-- `BLOCK` of an image in flight looks at the context, the count, the predictors and the writer. -/
theorem SameInputs.ruleBlock {s t : State} (h : SameInputs s t) (hs : s.lifecycle = .encoding) (p : Vector CmdWord 16) :
    SameAnswer (ruleBlock p s) (ruleBlock p t) s t := by
  obtain ⟨hbw, hpred⟩ := h.inFlight hs
  unfold Machine.ruleBlock
  rw [← h.blkTotal, ← h.blkDone, ← h.blkPerMcu, ← h.nextComponent, ← h.qtOf]
  split_ifs
  · exact .of_answer (.failDiscard _ _)
  · exact .inr ⟨_, rfl, rfl⟩
  · exact .inr ⟨_, rfl, rfl⟩
  · unfold codeBlock
    simp only [runStages_pred, runStages_zb, runStages_outCap, runStages_bw, runStages_blkDone, ← hpred, ← hbw, ← h.outCap,
      ← h.blkDone, ← h.qtOf]
    cases blockCalls (roleOf (Machine.nextComponent s)) s.pred[Machine.nextComponent s]
      (reorder (quantize (Machine.qtOf s (roleOf (Machine.nextComponent s))) (colPass (samplesOf p) (rowPass (samplesOf p)))))
    case none => exact .inr ⟨_, rfl, rfl⟩
    case some calls =>
      cases hw : putCalls s.outCap.toNat calls s.bw with
      | none =>
        simp only [hw]
        exact .of_answer (.failDiscard _ _)
      | some w =>
        simp only [hw]
        have hans := Answer.succeed .block (s.blkDone + 1)
          (.block p (roleOf (Machine.nextComponent s)) (Machine.nextComponent s) w)
        exact .inl ⟨_, _, hans, rfl, rfl⟩

/-- A command's own rule gives both states the same answer, where it is legal. -/
theorem SameInputs.ownRule {s t : State} (h : SameInputs s t) {i : Instr} (hl : Machine.legal i.op s = true)
    (hr : ∀ x, i = .rdreg x 0x11 → s.lastErr = t.lastErr) : SameAnswer (ownRule i s) (ownRule i t) s t := by
  cases i with
  | wrcfg x reg v =>
    simp only [Machine.ownRule, ruleWrcfg, ← h.cfg]
    split
    · exact .of_answer (.succeed .wrcfg 0 (.setCfg _))
    · exact .of_answer (.fail _ _)
  | rdreg x reg =>
    simp only [Machine.ownRule, ruleRdreg, ← h.readReg (reg := reg) fun hreg => hr x (by rw [hreg])]
    split
    · exact .of_answer (.succeed .rdreg _ .none)
    · exact .of_answer (.fail _ _)
  | create x =>
    simp only [Machine.ownRule, ruleCreate, ← h.cfg]
    split_ifs
    · exact .of_answer (.succeed .create _ .create)
    · exact .of_answer (.fail _ _)
    · exact .of_answer (.fail _ _)
  | beginImage x =>
    simp only [Machine.ownRule, ruleBegin, ← h.outCap, ← h.cfg, ← h.qt0, ← h.qt1]
    split
    · exact .of_answer (.failDiscard _ _)
    · exact .of_answer (.succeed .beginImage _ (.beginImage _))
  | block x p => exact h.ruleBlock (legal_block.mp hl) p
  | endImage x =>
    simp only [Machine.ownRule, ruleEnd, ← h.blkDone, ← h.blkTotal, ← h.outCap, ← (h.inFlight (legal_endImage.mp hl)).1]
    split_ifs
    · split
      · exact .of_answer (.failDiscard _ _)
      · exact .of_answer (.succeed .endImage _ (.endImage _))
    · exact .of_answer (.failDiscard _ _)
  | destroy x => exact .of_answer (.succeed .destroy 0 .destroy)
  | rdout x a =>
    simp only [Machine.ownRule, ruleRdout, ← h.out]
    split
    · exact .of_answer (.succeed .rdout _ .none)
    · exact .of_answer (.fail _ _)

/-- Every command gives both states the same answer. -/
theorem SameInputs.exec {s t : State} (h : SameInputs s t) {i : Instr} (hr : ∀ x, i = .rdreg x 0x11 → s.lastErr = t.lastErr) :
    SameAnswer (exec i s) (exec i t) s t := by
  rw [exec_eq_gate, exec_eq_gate, gate, gate, ← h.lifecycle, ← h.legal]
  split_ifs with hd hx hb hl
  · exact .of_answer (.respond _)
  · exact .of_answer (.failDiscard _ _)
  · exact .of_answer (.fail _ _)
  · exact h.ownRule hl hr
  · exact .of_answer (.fail _ _)

/-! ### `LAST_ERR` -/

theorem Succeeds.lastErr {i : Instr} {s u : State} {d : Word} (h : Succeeds i s d u) : u.lastErr = s.lastErr := by
  cases h <;> simp

theorem Effect.setLastErr {f : State → State} (h : Effect f) (c : Code) (s : State) :
    f (setLastErr c s) = setLastErr c (f s) := by
  cases h with
  | block p r k w =>
    have hqt : qtOf (Machine.setLastErr c s) r = qtOf s r := by cases r <;> rfl
    simp only [blockWith, runStages, runQuantizer, runTransform_qtOf, loadSamples_qtOf, hqt]
    simp only [runTransform, loadSamples, Machine.setLastErr]
  | _ => rfl

/-- Another `LAST_ERR` before an answer is at most another `LAST_ERR` after it. -/
theorem Answer.lastErr_inert {r : Response} {f : State → State} (h : Answer r f) (s : State) (c : Code) :
    { f (setLastErr c s) with lastErr := (f s).lastErr } = f s := by
  cases h with
  | respond c => rfl
  | fail o c => cases o <;> rfl
  | failDiscard o c => cases o <;> rfl
  | succeed o d he =>
    simp only [he.setLastErr]
    cases o <;> rfl

theorem sameInputs_setLastErr (s : State) (c : Code) : SameInputs s { s with lastErr := c } :=
  ⟨rfl, rfl, rfl, rfl, rfl, rfl, rfl, rfl, rfl, rfl, fun _ => ⟨rfl, rfl⟩⟩

/-- Settles O50: by the kinds of answers, and because no command but its own read looks at `LAST_ERR`. -/
theorem lastErrIsRecordedAndInert : Obligations.LastErrIsRecordedAndInert := by
  refine ⟨fun i s t h => ?_, fun i s c hi => ?_⟩
  · have hwrites {a b : Code} (hd : s.lifecycle ≠ .destroyed) :
        (if writesLastErr i.op = true then a else b) =
          if s.lifecycle = .destroyed ∨ i.op = .rdreg ∨ i.op = .rdout then b else a := by
      cases i.op <;> simp [writesLastErr, hd]
    cases ends_of_exec h with
    | destroyed hs => exact ⟨_, respond_respPort _ _ _, by simp [hs]⟩
    | failed c hs _ _ => exact ⟨_, fail_respPort _ _ _, by rw [fail_lastErr, hwrites hs]⟩
    | discarded c hd =>
      have hs : s.lifecycle ≠ .destroyed := by rcases hd.lifecycle with h | h <;> rw [h] <;> nofun
      exact ⟨_, fail_respPort _ _ _, by rw [fail_lastErr, discard_lastErr, hwrites hs]⟩
    | succeeded hl hu =>
      exact ⟨_, (succeed_respPort _ _ _).trans (by rw [hu.respPort]),
        by rw [succeed_lastErr, hu.lastErr, hwrites (not_destroyed_of_legal hl)]⟩
  · rcases (sameInputs_setLastErr s c).exec (i := i) (fun x hx => absurd hx (hi x)) with ⟨r, f, hf, h1, h2⟩ | ⟨e, h1, h2⟩
    · rw [h1, h2]
      exact hf.lastErr_inert s c
    · rw [h1, h2]

/-! ### Hidden state -/

theorem SameView.sameInputs {s t : State} (h : SameView s t) : SameInputs s t :=
  ⟨h.lifecycle, h.cfg, h.blkTotal, h.blkPerMcu, h.qt0, h.qt1, h.outCap, h.outValid, h.out, h.blkDone, h.inFlight⟩

theorem SameView.cmdPort_eq {s t : State} (h : SameView s t) (ws : List CmdWord) :
    SameView { s with cmdPort := ws } { t with cmdPort := ws } :=
  ⟨⟨h.lifecycle, h.cfg, h.blkTotal, h.blkPerMcu, h.qt0, h.qt1, h.outCap, rfl, h.resetIn⟩, h.lastErr, h.outValid, h.out,
    h.blkDone, h.inFlight⟩

theorem SameView.discard {s t : State} (h : SameView s t) : SameView (discard s) (discard t) :=
  ⟨⟨rfl, h.cfg, h.blkTotal, h.blkPerMcu, h.qt0, h.qt1, h.outCap, h.cmdPort, h.resetIn⟩, h.lastErr, rfl, rfl, rfl, nofun⟩

theorem SameView.respond {s t : State} (h : SameView s t) (c : Code) (d : Word) : SameView (respond c d s) (respond c d t) :=
  ⟨⟨h.lifecycle, h.cfg, h.blkTotal, h.blkPerMcu, h.qt0, h.qt1, h.outCap, h.cmdPort, h.resetIn⟩, h.lastErr, h.outValid, h.out,
    h.blkDone, h.inFlight⟩

theorem SameView.setLastErr {s t : State} (h : SameView s t) (c : Code) : SameView (setLastErr c s) (setLastErr c t) :=
  ⟨⟨h.lifecycle, h.cfg, h.blkTotal, h.blkPerMcu, h.qt0, h.qt1, h.outCap, h.cmdPort, h.resetIn⟩, rfl, h.outValid, h.out,
    h.blkDone, h.inFlight⟩

theorem SameView.fail {s t : State} (h : SameView s t) (o : Op) (c : Code) : SameView (fail o c s) (fail o c t) := by
  unfold Machine.fail
  split
  · exact (h.setLastErr c).respond c 0
  · exact h.respond c 0

theorem SameView.succeed {s t : State} (h : SameView s t) (o : Op) (d : Word) : SameView (succeed o d s) (succeed o d t) := by
  unfold Machine.succeed
  split
  · exact (h.setLastErr .ok).respond .ok d
  · exact h.respond .ok d

/-- A success leaves states the host cannot tell apart so: what it computes from hidden state is hidden again. -/
theorem Effect.sameView {f : State → State} (hf : Effect f) {s t : State} (h : SameView s t) : SameView (f s) (f t) := by
  cases hf with
  | none => exact h
  | setCfg cfg =>
    exact ⟨⟨h.lifecycle, rfl, h.blkTotal, h.blkPerMcu, h.qt0, h.qt1, h.outCap, h.cmdPort, h.resetIn⟩, h.lastErr, h.outValid,
      h.out, h.blkDone, h.inFlight⟩
  | create =>
    refine ⟨⟨?_, ?_, ?_, ?_, ?_, ?_, ?_, ?_, ?_⟩, ?_, ?_, ?_, ?_, nofun⟩ <;>
      simp [h.cfg, h.outCap, h.cmdPort, h.resetIn, h.lastErr, h.outValid, h.out]
  | beginImage w =>
    exact ⟨⟨rfl, h.cfg, h.blkTotal, h.blkPerMcu, h.qt0, h.qt1, h.outCap, h.cmdPort, h.resetIn⟩, h.lastErr, rfl, rfl, rfl,
      fun _ => ⟨rfl, rfl⟩⟩
  | block p r c w =>
    refine ⟨⟨?_, ?_, ?_, ?_, ?_, ?_, ?_, ?_, ?_⟩, ?_, ?_, ?_, ?_, fun he => ⟨by simp, ?_⟩⟩
    case refine_14 =>
      have hpred := (h.inFlight (by simpa using he)).2
      simp [hpred, h.sameInputs.qtOf]
    all_goals simp [h.lifecycle, h.cfg, h.blkTotal, h.blkPerMcu, h.qt0, h.qt1, h.outCap, h.cmdPort, h.resetIn, h.lastErr,
      h.outValid, h.blkDone]
  | endImage w =>
    exact ⟨⟨rfl, h.cfg, h.blkTotal, h.blkPerMcu, h.qt0, h.qt1, h.outCap, h.cmdPort, h.resetIn⟩, h.lastErr, rfl, rfl, h.blkDone,
      nofun⟩
  | destroy =>
    exact ⟨⟨rfl, h.cfg, h.blkTotal, h.blkPerMcu, h.qt0, h.qt1, h.outCap, h.cmdPort, h.resetIn⟩, h.lastErr, rfl, rfl, h.blkDone,
      nofun⟩

theorem Answer.sameView {r : Response} {f : State → State} (hf : Answer r f) {s t : State} (h : SameView s t) :
    SameView (f s) (f t) := by
  cases hf with
  | respond c => exact h.respond c 0
  | fail o c => exact h.fail o c
  | failDiscard o c => exact h.discard.fail o c
  | succeed o d he => exact (he.sameView h).succeed o d

/-- The two refusals of the decoder are answers too (R231 (a), (b)). -/
theorem exists_answerUndefinedOp (s : State) : ∃ r f, Answer r f ∧
    ∀ t : State, t.lifecycle = s.lifecycle → answerUndefinedOp t = f t := by
  by_cases hs : s.lifecycle = .destroyed
  · exact ⟨_, _, .respond .eDestroyed, fun t ht => if_pos (ht.trans hs)⟩
  · exact ⟨_, _, .fail .create .eIllegal, fun t ht => if_neg (ht ▸ hs)⟩

theorem exists_answerReservedArg (o : Op) (s : State) : ∃ r f, Answer r f ∧
    ∀ t : State, t.lifecycle = s.lifecycle → answerReservedArg o t = f t := by
  by_cases hs : s.lifecycle = .destroyed
  · exact ⟨_, _, .respond .eDestroyed, fun t ht => if_pos (ht.trans hs)⟩
  · exact ⟨_, _, .fail o .eIllegal, fun t ht => if_neg (ht ▸ hs)⟩

/-- Settles O57: both states decode the same command, which gives both one answer; answers keep the view. -/
theorem hiddenStateNeverShows : Obligations.HiddenStateNeverShows := by
  intro s t h
  have hans {r : Response} {f : State → State} (hf : Answer r f) (rest : List CmdWord) :
      SameView (f { s with cmdPort := rest }) (f { t with cmdPort := rest }) ∧
      NewResponses s (f { s with cmdPort := rest }) [r] ∧ NewResponses t (f { t with cmdPort := rest }) [r] :=
    ⟨hf.sameView (h.cmdPort_eq rest), hf.respPort _, hf.respPort _⟩
  cases hr : s.resetIn with
  | true =>
    rw [if_pos rfl]
    refine ⟨step_of_resetIn hr, ?_⟩
    rw [step_of_resetIn (h.resetIn ▸ hr), hardReset, hardReset, h.outCap]
  | false =>
    have hrt : t.resetIn = false := h.resetIn ▸ hr
    rw [if_neg Bool.false_ne_true]
    cases hd : decode s.cmdPort with
    | waiting =>
      exact .inl ⟨s, t, [], step_of_waiting hr hd, step_of_waiting hrt (h.cmdPort ▸ hd), h, (List.append_nil _).symm,
        (List.append_nil _).symm⟩
    | instr i rest =>
      rw [step_of_instr hr hd, step_of_instr hrt (h.cmdPort ▸ hd)]
      rcases (h.cmdPort_eq rest).sameInputs.exec (i := i) fun _ _ => h.lastErr with ⟨r, f, hf, h1, h2⟩ | ⟨e, h1, h2⟩
      · exact .inl ⟨_, _, [r], h1, h2, hans hf rest⟩
      · exact .inr ⟨e, h1, h2⟩
    | undefinedOp rest =>
      obtain ⟨r, f, hf, heq⟩ := exists_answerUndefinedOp s
      rw [step_of_undefinedOp hr hd, step_of_undefinedOp hrt (h.cmdPort ▸ hd), heq { s with cmdPort := rest } rfl,
        heq { t with cmdPort := rest } h.lifecycle.symm]
      exact .inl ⟨_, _, [r], rfl, rfl, hans hf rest⟩
    | reservedArg o rest =>
      obtain ⟨r, f, hf, heq⟩ := exists_answerReservedArg o s
      rw [step_of_reservedArg hr hd, step_of_reservedArg hrt (h.cmdPort ▸ hd), heq { s with cmdPort := rest } rfl,
        heq { t with cmdPort := rest } h.lifecycle.symm]
      exact .inl ⟨_, _, [r], rfl, rfl, hans hf rest⟩

/-! ### `BEGIN` forgets -/

/-- With room for the header `BEGIN` writes every field in which two states of one context may differ, and without room it
discards. -/
theorem SameContext.ruleBegin {s t : State} (h : SameContext s t) :
    ∃ s' t' : State, ruleBegin s = .next s' ∧ ruleBegin t = .next t' ∧ SameView s' t' := by
  simp only [Machine.ruleBegin, ← h.outCap, ← h.cfg, ← h.qt0, ← h.qt1]
  split
  · exact ⟨_, _, rfl, rfl, ⟨rfl, h.cfg, h.blkTotal, h.blkPerMcu, h.qt0, h.qt1, h.outCap, h.cmdPort, h.resetIn⟩, rfl, rfl, rfl,
      rfl, nofun⟩
  · exact ⟨_, _, rfl, rfl, ⟨rfl, h.cfg, h.blkTotal, h.blkPerMcu, h.qt0, h.qt1, h.outCap, h.cmdPort, h.resetIn⟩, rfl, rfl, rfl,
      rfl, fun _ => ⟨rfl, rfl⟩⟩

/-- Settles O56: the step is the rule of `BEGIN`, from two states of one context. -/
theorem beginForgetsEarlierImages : Obligations.BeginForgetsEarlierImages := by
  intro s t rest h hs hr hport
  have hstep {u : State} (hu : u.lifecycle = .created) (hur : u.resetIn = false)
      (hup : u.cmdPort = encode (.beginImage false) ++ rest) : step u = ruleBegin { u with cmdPort := rest } :=
    (stepRunsTheDecodedCommand u _ rest hur hup).trans (exec_beginImage hu)
  rw [hstep hs hr hport, hstep (h.lifecycle ▸ hs) (h.resetIn ▸ hr) (h.cmdPort ▸ hport)]
  exact SameContext.ruleBegin
    ⟨h.lifecycle, h.cfg, h.blkTotal, h.blkPerMcu, h.qt0, h.qt1, h.outCap, rfl, h.resetIn⟩

end Sys2Proof.Machine
end

section
/-! The block order of the input contract: block numbers of an image and places in the planes correspond one to one (R206,
R207). -/

namespace Sys2Proof.Machine

/-! ### The components of an MCU -/

/-- The components an image has. -/
def HasComponent (cfg : Cfg) (c : Fin 3) : Prop := c.val < 1 ∨ cfg.ncomp ≠ 1

/-- Sampling factors of the components of a legal geometry are not 0 (R204 (e)). -/
theorem plane_factors_pos {cfg : Cfg} (hg : geometryOk cfg = true) (c : Fin 3) : 0 < planeH cfg c ∧ 0 < planeV cfg c := by
  obtain ⟨-, -, hn, -, -, h3⟩ := geometryOk_iff.mp hg
  unfold planeH planeV
  by_cases hone : cfg.ncomp = 1
  · simp [hone]
  · rw [if_neg hone, if_neg hone]
    obtain ⟨hf, -⟩ := h3 (hn.resolve_left fun h => hone (BitVec.eq_of_toInt_eq h))
    exact ⟨(hf c).1, (hf c).2.2.1⟩

/-- The blocks of an MCU are those of its components, one after the other (R206). -/
theorem compOf_eq_iff {cfg : Cfg} {j : Nat} {c : Fin 3} :
    (HasComponent cfg c ∧ compStart cfg c ≤ j ∧ j < compStart cfg c + planeH cfg c * planeV cfg c) ↔
      j < blocksPerMcu cfg ∧ compOf cfg j = c := by
  by_cases hone : cfg.ncomp = 1
  · rw [blocksPerMcu_of_one hone, HasComponent, planeH, planeV, compOf, if_pos hone, if_pos hone, if_pos hone]
    fin_cases c <;> simp [hone, compStart]
  · rw [blocksPerMcu_of_three hone, HasComponent, planeH, planeV, compOf, if_neg hone, if_neg hone, if_neg hone]
    rw [and_iff_right (.inr hone)]
    match c with
    | 0 =>
      simp only [compStart, if_true]
      split_ifs <;> simp <;> omega
    | 1 =>
      simp only [compStart, one_ne_zero, if_false, if_true]
      split_ifs <;> simp <;> omega
    | 2 =>
      simp only [compStart, Fin.reduceEq, if_false]
      split_ifs <;> simp <;> omega

/-! ### Numbers and places -/

theorem mul_add_div_mod {a b n : Nat} (hb : b < n) : (a * n + b) / n = a ∧ (a * n + b) % n = b := by
  rw [Nat.add_comm, Nat.add_mul_div_right _ _ (by omega), Nat.add_mul_mod_self_right, Nat.div_eq_of_lt hb, Nat.mod_eq_of_lt hb]
  exact ⟨Nat.zero_add a, rfl⟩

theorem mul_add_lt_mul {a b m n : Nat} (ha : a < m) (hb : b < n) : a * n + b < m * n := by
  have := Nat.mul_le_mul_right n (Nat.succ_le_of_lt ha)
  rw [Nat.succ_mul] at this
  omega

/-- The number of the block at a place: the inverse of `blockPlace` (R207 (c)). -/
def blockIndex (cfg : Cfg) (p : BlockPlace) : Nat :=
  (p.row / planeV cfg p.comp * mcuCols cfg + p.col / planeH cfg p.comp) * blocksPerMcu cfg +
    (compStart cfg p.comp + (p.row % planeV cfg p.comp * planeH cfg p.comp + p.col % planeH cfg p.comp))

/-- The block with a given number lies in the plane of its component, and the place gives the number back. -/
theorem blockPlace_spec {cfg : Cfg} (hg : geometryOk cfg = true) {i : Nat} (hi : i < totalBlocks cfg) :
    inPlane cfg (blockPlace cfg i) ∧ blockIndex cfg (blockPlace cfg i) = i := by
  have hmcu : i / blocksPerMcu cfg < mcuCols cfg * mcuRows cfg :=
    Nat.div_lt_of_lt_mul (by rwa [totalBlocks, Nat.mul_comm] at hi)
  have hcols : 0 < mcuCols cfg := Nat.pos_of_mul_pos_right (Nat.zero_lt_of_lt hmcu)
  have hj : i % blocksPerMcu cfg < blocksPerMcu cfg := Nat.mod_lt _ (legalGeometry_of_geometryOk hg).bpm.1
  obtain ⟨hc, hstart, hend⟩ := compOf_eq_iff.mpr ⟨hj, rfl⟩
  generalize hcomp : compOf cfg (i % blocksPerMcu cfg) = c at hc hstart hend
  obtain ⟨hH, hV⟩ := plane_factors_pos hg c
  have hk : i % blocksPerMcu cfg - compStart cfg c < planeH cfg c * planeV cfg c := by omega
  have hcol := mul_add_div_mod (a := i / blocksPerMcu cfg % mcuCols cfg)
    (Nat.mod_lt (i % blocksPerMcu cfg - compStart cfg c) hH)
  have hrow := mul_add_div_mod (a := i / blocksPerMcu cfg / mcuCols cfg) (Nat.div_lt_of_lt_mul hk)
  simp only [inPlane, blockIndex, blockPlace, hcomp, hcol, hrow]
  refine ⟨⟨hc, mul_add_lt_mul (Nat.mod_lt _ hcols) (Nat.mod_lt _ hH),
    mul_add_lt_mul (Nat.div_lt_of_lt_mul hmcu) (Nat.div_lt_of_lt_mul hk)⟩, ?_⟩
  rw [Nat.div_add_mod', Nat.div_add_mod', Nat.add_sub_cancel' hstart, Nat.div_add_mod']

/-- A place in the plane of its component has a number below the block count, whose place it is. -/
theorem blockIndex_spec {cfg : Cfg} (hg : geometryOk cfg = true) {p : BlockPlace} (hp : inPlane cfg p) :
    blockIndex cfg p < totalBlocks cfg ∧ blockPlace cfg (blockIndex cfg p) = p := by
  obtain ⟨c, col, row⟩ := p
  obtain ⟨hc, hcol, hrow⟩ := hp
  obtain ⟨hH, hV⟩ := plane_factors_pos hg c
  have hk : row % planeV cfg c * planeH cfg c + col % planeH cfg c < planeH cfg c * planeV cfg c :=
    Nat.mul_comm (planeV cfg c) _ ▸ mul_add_lt_mul (Nat.mod_lt row hV) (Nat.mod_lt col hH)
  obtain ⟨hj, hcomp⟩ := compOf_eq_iff.mp ⟨hc, Nat.le_add_right _ _, Nat.add_lt_add_left hk (compStart cfg c)⟩
  have hcol' : col / planeH cfg c < mcuCols cfg := Nat.div_lt_of_lt_mul (Nat.mul_comm _ (planeH cfg c) ▸ hcol)
  have hrow' : row / planeV cfg c < mcuRows cfg := Nat.div_lt_of_lt_mul (Nat.mul_comm _ (planeV cfg c) ▸ hrow)
  constructor
  · rw [totalBlocks, Nat.mul_comm (mcuCols cfg)]
    exact mul_add_lt_mul (mul_add_lt_mul hrow' hcol') hj
  · simp only [blockPlace, blockIndex, mul_add_div_mod hj, hcomp, mul_add_div_mod hcol', Nat.add_sub_cancel_left,
      mul_add_div_mod (Nat.mod_lt col hH), Nat.div_add_mod']

theorem blockAt_getElem (planes : Planes) (p : BlockPlace) (y x : Fin 8) :
    (blockAt planes p)[(ix y x).val] = planes p.comp (8 * p.col + x.val) (8 * p.row + y.val) := by
  simp [blockAt]

/-- Settles O60: `blockIndex` inverts `blockPlace`, and the ordered blocks are those at the places of their numbers. -/
theorem blockOrderCoversThePlanes : Obligations.BlockOrderCoversThePlanes := by
  intro s hg hm
  have hbpm : s.blkPerMcu.toNat = blocksPerMcu s.cfg := by
    obtain ⟨hb1, hb2⟩ := (legalGeometry_of_geometryOk hg).bpm
    rw [hm, BitVec.toNat_ofNat]; omega
  refine ⟨fun i hi => (blockPlace_spec hg hi).1, fun p hp => ?_, ?_, ?_⟩
  · obtain ⟨hlt, hplace⟩ := blockIndex_spec hg hp
    refine ⟨_, ⟨hlt, hplace⟩, ?_⟩
    rintro i ⟨hi, rfl⟩
    exact (blockPlace_spec hg hi).2.symm
  · rw [nextComponent, hbpm]
    rfl
  · rintro planes blocks ⟨-, rfl⟩
    refine ⟨by simp [orderedBlocks], fun p y x hp => ?_⟩
    obtain ⟨hlt, hplace⟩ := blockIndex_spec hg hp
    refine ⟨blockIndex s.cfg p, blockAt planes p, ?_, hplace, blockAt_getElem planes p y x⟩
    simp [orderedBlocks, hlt, hplace]

end Sys2Proof.Machine
end

section
/-! Runs of commands: what a list of commands at the command port does, command by command (R58, R200, R270). -/

namespace Sys2Proof.Machine

/-! ### The ports -/

theorem Succeeds.cmdPort {i : Instr} {s u : State} {d : Word} (h : Succeeds i s d u) : u.cmdPort = s.cmdPort := by
  cases h <;> simp

theorem Succeeds.resetIn {i : Instr} {s u : State} {d : Word} (h : Succeeds i s d u) : u.resetIn = s.resetIn := by
  cases h <;> simp

theorem exec_cmdPort {i : Instr} {s t : State} (h : exec i s = .next t) : t.cmdPort = s.cmdPort := by
  cases ends_of_exec h with
  | succeeded hl hs => simpa using hs.cmdPort
  | _ => simp

theorem exec_resetIn {i : Instr} {s t : State} (h : exec i s = .next t) : t.resetIn = s.resetIn := by
  cases ends_of_exec h with
  | succeeded hl hs => simpa using hs.resetIn
  | _ => simp

/-! ### Runs -/

/-- A state that meets the invariant, with the reset input released and these words at the command port. -/
structure Ready (ws : List CmdWord) (s : State) : Prop where
  released : s.resetIn = false
  port : s.cmdPort = ws
  sound : Sound s

/-- The commands `cmds` at the front of the port of `s` lead to `t`, are answered `rs`, and leave the words `rest`. -/
structure Ran (cmds : List Instr) (rest : List CmdWord) (s t : State) (rs : List Response) : Prop where
  run : core.run cmds.length s = .next t
  resp : t.respPort = s.respPort ++ rs
  count : rs.length = cmds.length
  ready : Ready rest t

theorem Ran.nil {rest : List CmdWord} {s : State} (h : Ready rest s) : Ran [] rest s s [] :=
  ⟨rfl, (List.append_nil _).symm, rfl, h⟩

/-- What a command leaves of the words after it: all of them. -/
theorem Ready.exec {i : Instr} {ws : List CmdWord} {s u : State} (h : Ready (encode i ++ ws) s)
    (he : exec i { s with cmdPort := ws } = .next u) : Ready ws u :=
  ⟨(exec_resetIn he).trans h.released, exec_cmdPort he, exec_sound (sound_cmdPort ws h.sound) he⟩

/-- One command is one step (R58). -/
theorem Ran.single {i : Instr} {rest : List CmdWord} {s u : State} {r : Response} (h : Ready (encode i ++ rest) s)
    (he : Machine.exec i { s with cmdPort := rest } = .next u) (hr : u.respPort = s.respPort ++ [r]) :
    Ran [i] rest s u [r] where
  run := by
    have hstep : core.step s = .next u := (stepRunsTheDecodedCommand s i rest h.released h.port).trans he
    simp [Host.Core.run, hstep]
  resp := hr
  count := rfl
  ready := h.exec he

/-- Runs follow one another. -/
theorem Ran.append {a b : List Instr} {rest : List CmdWord} {s t u : State} {rs rs' : List Response}
    (h : Ran a (b.flatMap encode ++ rest) s t rs) (h' : Ran b rest t u rs') : Ran (a ++ b) rest s u (rs ++ rs') where
  run := by rw [List.length_append, core_run_add _ _ h.run, h'.run]
  resp := by rw [h'.resp, h.resp, List.append_assoc]
  count := by rw [List.length_append, List.length_append, h.count, h'.count]
  ready := h'.ready

theorem Ran.cons {i : Instr} {cmds : List Instr} {rest : List CmdWord} {s u t : State} {r : Response} {rs : List Response}
    (h : Ran [i] (cmds.flatMap encode ++ rest) s u [r]) (h' : Ran cmds rest u t rs) : Ran (i :: cmds) rest s t (r :: rs) :=
  h.append h'

/-- Words of commands, split at the first command and between two lists of commands. -/
theorem Ready.cons {i : Instr} {cmds : List Instr} {rest : List CmdWord} {s : State}
    (h : Ready ((i :: cmds).flatMap encode ++ rest) s) : Ready (encode i ++ (cmds.flatMap encode ++ rest)) s := by
  rwa [List.flatMap_cons, List.append_assoc] at h

theorem Ready.append {a b : List Instr} {rest : List CmdWord} {s : State} (h : Ready ((a ++ b).flatMap encode ++ rest) s) :
    Ready (a.flatMap encode ++ (b.flatMap encode ++ rest)) s := by
  rwa [List.flatMap_append, List.append_assoc] at h

/-! ### Reads -/

/-- A read of a register is answered as a successful encode allows, and writes the response port only (R203, log entry 18). -/
theorem exec_rdreg_answer (reg : Byte) {s : State} (hs : s.lifecycle ≠ .destroyed) :
    ∃ r : Response, r.code = successCode (.rdreg false reg) ∧
      exec (.rdreg false reg) s = .next { s with respPort := s.respPort ++ [r] } := by
  cases hv : readReg s reg with
  | some v =>
    have hdef : regDefined reg = true := by rw [← readReg_isSome s, hv]; rfl
    exact ⟨⟨.ok, v⟩, by simp [successCode, hdef], exec_rdreg hs hv⟩
  | none =>
    have hdef : regDefined reg = false := by rw [← readReg_isSome s, hv]; rfl
    refine ⟨⟨.eIllegal, 0⟩, by simp [successCode, hdef], ?_⟩
    rw [exec_eq_ownRule (i := .rdreg false reg) (legal_rdreg.mpr hs) rfl, ownRule, ruleRdreg, hv]
    rfl

end Sys2Proof.Machine
end

section
/-! A whole image: the one stream the rules produce, and the run of the commands that send it (R191, R205 to R208, R234, R270). -/

namespace Sys2Proof.Machine

/-! ### The calls of a scan -/

/-- The component of the block with number `j` of an image (R206). -/
def compAt (cfg : Cfg) (j : Nat) : Fin 3 := compOf cfg (j % blocksPerMcu cfg)

/-- `ZB` of the block with number `j` of an image with samples `sb`. -/
def zbAt (cfg : Cfg) (j : Nat) (sb : Vector Byte 64) : Vector (BitVec 12) 64 :=
  quantizedBlock (buildTable cfg.quality.toNat (roleOf (compAt cfg j))) sb

/-- A scan begins with the calls of its first block and goes on with the predictor that block leaves (R151, R206). -/
theorem scanCalls_cons_eq_some {cfg : Cfg} {j : Nat} {pred : Vector (BitVec 12) 3} {sb : Vector Byte 64}
    {sbs : List (Vector Byte 64)} {calls : List BitsCall} : scanCalls cfg j pred (sb :: sbs) = some calls ↔
      ∃ here after, blockCalls (roleOf (compAt cfg j)) pred[compAt cfg j] (zbAt cfg j sb) = some here ∧
        scanCalls cfg (j + 1) (pred.set (compAt cfg j) (zbAt cfg j sb)[0]) sbs = some after ∧ calls = here ++ after := by
  rw [scanCalls]
  split
  case h_1 here after hhere hafter =>
    constructor
    · intro h
      exact ⟨here, after, hhere, hafter, (Option.some.inj h).symm⟩
    · rintro ⟨here', after', hhere', hafter', rfl⟩
      rw [Option.some.inj (hhere.symm.trans hhere'), Option.some.inj (hafter.symm.trans hafter')]
  case h_2 hnone =>
    exact iff_of_false nofun fun ⟨here, after, hhere, hafter, _⟩ => hnone here after hhere hafter

theorem buildTable_ne_zero (q : Nat) (r : Role) (k : Fin 64) : (buildTable q r)[k.val] ≠ 0 := by
  have := buildTable_bounds q r k.val k.isLt
  exact ne_zero_of_toNat_pos (by omega)

/-- Every value a quantized DC coefficient can take (R35). -/
def DcRange (x : BitVec 12) : Prop := -1024 ≤ x.toInt ∧ x.toInt ≤ 1016

theorem dcRange_zbAt (cfg : Cfg) (j : Nat) (sb : Vector Byte 64) : DcRange (zbAt cfg j sb)[0] :=
  zb_zero_bounds sb _ (buildTable_ne_zero _ _)

/-- The calls of a scan of any blocks exist, at most 1660 bits for each block (R162, R165). -/
theorem exists_scanCalls (cfg : Cfg) (blocks : List (Vector Byte 64)) (j : Nat) {pred : Vector (BitVec 12) 3}
    (hp : ∀ c : Fin 3, DcRange pred[c.val]) :
    ∃ calls, scanCalls cfg j pred blocks = some calls ∧ bitCount calls ≤ 1660 * blocks.length := by
  induction blocks generalizing j pred with
  | nil => exact ⟨[], rfl, Nat.le_refl 0⟩
  | cons sb sbs ih =>
    obtain ⟨here, hhere, hbits⟩ := exists_blockCalls (roleOf (compAt cfg j)) sb
      (buildTable_ne_zero cfg.quality.toNat (roleOf (compAt cfg j))) (hp (compAt cfg j))
    obtain ⟨after, hafter, hbits'⟩ := ih (j + 1) (pred := pred.set (compAt cfg j) (zbAt cfg j sb)[0]) fun c => by
      rw [Vector.getElem_set]
      split
      · exact dcRange_zbAt cfg j sb
      · exact hp c
    refine ⟨here ++ after, scanCalls_cons_eq_some.mpr ⟨here, after, hhere, hafter, rfl⟩, ?_⟩
    rw [bitCount_append, List.length_cons]
    omega

/-! ### The stream of the rules -/

/-- The configuration and the blocks fix the stream: the calls are computed, and bits fix bytes (R53). -/
theorem StreamOfRules.unique {cfg : Cfg} {blocks : List (Vector Byte 64)} {stream stream' : List Byte}
    (h : StreamOfRules cfg blocks stream) (h' : StreamOfRules cfg blocks stream') : stream' = stream := by
  obtain ⟨calls, raw, hc, hr, rfl⟩ := h
  obtain ⟨calls', raw', hc', hr', rfl⟩ := h'
  obtain rfl : calls' = calls := Option.some.inj (hc'.symm.trans hc)
  rw [flatMap_byteBits_injective (hr'.trans hr.symm)]

/-- The writers of an image whatever the capacity: after the header, after the scan and after the end (R205, R206, R208). -/
structure Written (cfg : Cfg) (calls : List BitsCall) (w0 w1 w2 : Writer) : Prop where
  header : Delivers (fun cap => writeHeaders cap cfg (buildTable cfg.quality.toNat .lum) (buildTable cfg.quality.toNat .chrom))
    resetWriter w0
  scan : Delivers (fun cap => putCalls cap calls) w0 w1
  finish : Delivers finalize w1 w2

theorem exists_written (cfg : Cfg) (calls : List BitsCall) : ∃ w0 w1 w2, Written cfg calls w0 w1 w2 := by
  obtain ⟨w0, h0⟩ := delivers_writeHeaders cfg (buildTable cfg.quality.toNat .lum) (buildTable cfg.quality.toNat .chrom) resetWriter
  obtain ⟨w1, h1⟩ := delivers_putCalls calls w0
  obtain ⟨w2, h2⟩ := delivers_finalize w1
  exact ⟨w0, w1, w2, h0, h1, h2⟩

/-- What the writers leave is the stream of the rules, of the length of its header, its stuffed scan data and the end marker
(R104, R191). -/
theorem Written.stream {cfg : Cfg} {blocks : List (Vector Byte 64)} {calls : List BitsCall} {w0 w1 w2 : Writer}
    (h : Written cfg calls w0 w1 w2) (hc : scanCalls cfg 0 (vec 3 0) blocks = some calls) :
    StreamOfRules cfg blocks w2.out.bytes ∧
      w2.out.length ≤ (headerBytes cfg (buildTable cfg.quality.toNat .lum) (buildTable cfg.quality.toNat .chrom)).length +
        2 * ((bitCount calls + 7) / 8) + 2 := by
  have hhead := h.header.eq_some
  simp only [writeHeaders_eq] at hhead
  obtain ⟨ha, -⟩ := putBytes_appended hhead
  obtain ⟨raw1, hw⟩ := putCalls_wrote h.scan.eq_some
  obtain ⟨⟨raw2, hf⟩, -⟩ := finalize_eq_some h.finish.eq_some
  have hn0 : w0.nacc = 0 := ha.nacc
  have hlen := hw.length
  rw [hn0, length_callBits, Fin.val_zero, Nat.zero_add] at hlen
  have hn1 := w1.nacc.isLt
  have hbits : callBits calls = raw1.flatMap byteBits ++ pendingBits w1 := by
    simpa [pendingBits, hn0, bitsOf] using hw.bits
  have hraw : (raw1 ++ raw2).flatMap byteBits = callBits calls ++ List.replicate ((8 - bitCount calls % 8) % 8) true := by
    rw [List.flatMap_append, hbits, List.append_assoc]
    congr 1
    by_cases h0 : w1.nacc = 0
    · rw [h0, Fin.val_zero] at hlen
      rw [hf.none_pending h0, show (8 - bitCount calls % 8) % 8 = 0 by omega]
      simp [pendingBits, h0, bitsOf]
    · have hpos : w1.nacc.val ≠ 0 := fun hv => h0 (Fin.ext hv)
      rw [(hf.pending h0).2, show (8 - bitCount calls % 8) % 8 = 8 - w1.nacc.val by omega]
  have hbytes : w2.out.bytes = headerBytes cfg (buildTable cfg.quality.toNat .lum) (buildTable cfg.quality.toNat .chrom) ++
      stuffBytes (raw1 ++ raw2) ++ [0xFF, 0xD9] := by
    rw [hf.bytes, hw.bytes, ha.bytes, stuffBytes_append]
    simp [resetWriter]
  refine ⟨⟨calls, raw1 ++ raw2, hc, hraw, hbytes⟩, ?_⟩
  have hrl := congrArg List.length hraw
  rw [length_flatMap_byteBits, List.length_append (as := callBits calls), length_callBits, List.length_replicate] at hrl
  have hst := length_stuffBytes_le (raw1 ++ raw2)
  rw [← Memory.length_bytes, hbytes, List.length_append, List.length_append]
  simp only [List.length_cons, List.length_nil]
  omega

end Sys2Proof.Machine
end

section
/-! The run of the commands of an image: in flight, given up, or finished (R205, R206, R208, R234, R236, R270). -/

namespace Sys2Proof.Machine

/-! ### An image in flight and an image given up -/

/-- An image begun in `s0` is in flight: `n` blocks are coded, with these predictors and this writer. -/
structure InFlight (s0 : State) (n : Nat) (pred : Vector (BitVec 12) 3) (w : Writer) (s : State) : Prop where
  lifecycle : s.lifecycle = .encoding
  cfg : s.cfg = s0.cfg
  total : s.blkTotal = s0.blkTotal
  outCap : s.outCap = s0.outCap
  done : s.blkDone.toNat = n
  pred : s.pred = pred
  bw : s.bw = w

/-- The image was given up, and no output is left (R236). -/
structure Abandoned (s : State) : Prop where
  lifecycle : s.lifecycle = .created
  outValid : s.outValid = false
  out : s.bw.out = []

theorem InFlight.ports {s0 s : State} {n : Nat} {pred : Vector (BitVec 12) 3} {w : Writer} (h : InFlight s0 n pred w s)
    (ws : List CmdWord) (rs : List Response) : InFlight s0 n pred w { s with cmdPort := ws, respPort := rs } :=
  ⟨h.lifecycle, h.cfg, h.total, h.outCap, h.done, h.pred, h.bw⟩

/-- An image given up stays so under the commands that would have gone on with it (R201, R236). -/
theorem Abandoned.exec {i : Instr} {s u : State} (h : Abandoned s) (hi : i.op = .block ∨ i.op = .rdreg ∨ i.op = .endImage)
    (he : exec i s = .next u) : Abandoned u := by
  obtain ⟨hs, hv, ho⟩ := h
  cases ends_of_exec he with
  | destroyed hd => cases hs.symm.trans hd
  | failed c _ _ _ => exact ⟨by simpa using hs, by simpa using hv, by simpa using ho⟩
  | discarded c _ => exact ⟨by simp, by simp, by simp⟩
  | succeeded hl hu =>
    cases hu with
    | rdreg _ => exact ⟨by simpa using hs, by simpa using hv, by simpa using ho⟩
    | block => cases hs.symm.trans (legal_block.mp hl)
    | endImage => cases hs.symm.trans (legal_endImage.mp hl)
    | _ => simp [Instr.op] at hi

/-- Every command is answered with one response. -/
theorem exists_response {i : Instr} {s t : State} (h : exec i s = .next t) : ∃ r, t.respPort = s.respPort ++ [r] := by
  obtain ⟨r, hr, -⟩ := failuresChangeOnlyWhatTheTableSays i s t h
  exact ⟨r, hr⟩

/-- The rest of an image that was given up is refused (R201). -/
theorem Abandoned.ran {cmds : List Instr} {rest : List CmdWord} {s : State} (h : Abandoned s)
    (hr : Ready (cmds.flatMap encode ++ rest) s) (hops : ∀ i ∈ cmds, i.op = .block ∨ i.op = .rdreg ∨ i.op = .endImage) :
    ∃ t rs, Ran cmds rest s t rs ∧ Abandoned t := by
  induction cmds generalizing s with
  | nil => exact ⟨s, [], .nil hr, h⟩
  | cons i cmds ih =>
    obtain ⟨u, he⟩ := exec_next i (sound_cmdPort (cmds.flatMap encode ++ rest) hr.sound)
    obtain ⟨r, hresp⟩ := exists_response he
    have hs : Abandoned { s with cmdPort := cmds.flatMap encode ++ rest } := ⟨h.lifecycle, h.outValid, h.out⟩
    have hu := hs.exec (hops i List.mem_cons_self) he
    have hran := Ran.single hr.cons he hresp
    obtain ⟨t, rs, hrest, ht⟩ := ih hu hran.ready fun j hj => hops j (List.mem_cons_of_mem i hj)
    exact ⟨t, r :: rs, hran.cons hrest, ht⟩

/-! ### One block -/

theorem codeBlock_fits {c : Fin 3} {s d : State} {calls : List BitsCall} {w : Writer}
    (hc : blockCalls (roleOf c) d.pred[c] d.zb = some calls) (hw : putCalls d.outCap.toNat calls d.bw = some w) :
    codeBlock c s d = .next (succeed .block (d.blkDone + 1) (blockWith c w d)) := by simp only [codeBlock, hc, hw]

theorem codeBlock_without_room {c : Fin 3} {s d : State} {calls : List BitsCall}
    (hc : blockCalls (roleOf c) d.pred[c] d.zb = some calls) (hw : putCalls d.outCap.toNat calls d.bw = none) :
    codeBlock c s d = .next (raiseAlloc .block s) := by simp only [codeBlock, hc, hw]

section
variable {s0 s : State} {n : Nat} {pred : Vector (BitVec 12) 3} {w : Writer} {p : Vector CmdWord 16} {here : List BitsCall}

/-- The next block of an image in flight is coded as the block of its number (R206). -/
theorem InFlight.exec_block (h : InFlight s0 n pred w s) (hs : Sound s) (hx : anyXerr p.toList = false)
    (hn : n < s0.blkTotal.toNat) :
    exec (.block false p) s = codeBlock (compAt s0.cfg n) s (runStages p (roleOf (compAt s0.cfg n)) s) := by
  have hb := hs.configured (.inr h.lifecycle)
  obtain ⟨hm, -, hpos, -⟩ := hb.counts
  have hlt : s.blkDone < s.blkTotal := BitVec.lt_def.mpr (by rwa [h.done, h.total])
  have hcomp : nextComponent s = compAt s0.cfg n := by
    rw [nextComponent, hm, h.cfg, h.done]; rfl
  rw [Machine.exec_block h.lifecycle hx, ruleBlock_eq_codeBlock p hlt hpos hb.qtOf_ne_zero, hcomp]

/-- The coefficients it is coded from are those of its number. -/
theorem InFlight.runStages_zb (h : InFlight s0 n pred w s) (hs : Sound s) (p : Vector CmdWord 16) :
    (runStages p (roleOf (compAt s0.cfg n)) s).zb = zbAt s0.cfg n (samplesOf p) := by
  rw [Machine.runStages_zb, (hs.configured (.inr h.lifecycle)).qtOf, h.cfg, zbAt, quantizedBlock]

/-- `BLOCK` with room for its code: the image goes on with one block more (R206). -/
theorem InFlight.block_fits {w' : Writer} (h : InFlight s0 n pred w s) (hs : Sound s) (hx : anyXerr p.toList = false)
    (hn : n < s0.blkTotal.toNat)
    (hc : blockCalls (roleOf (compAt s0.cfg n)) pred[compAt s0.cfg n] (zbAt s0.cfg n (samplesOf p)) = some here)
    (hw : putCalls s0.outCap.toNat here w = some w') :
    ∃ u r, exec (.block false p) s = .next u ∧ u.respPort = s.respPort ++ [r] ∧ r.code = .ok ∧
      InFlight s0 (n + 1) (pred.set (compAt s0.cfg n) (zbAt s0.cfg n (samplesOf p))[0]) w' u := by
  have hcode := codeBlock_fits (c := compAt s0.cfg n) (s := s) (d := runStages p (roleOf (compAt s0.cfg n)) s)
    (by rwa [h.runStages_zb hs, runStages_pred, h.pred]) (by rwa [runStages_outCap, runStages_bw, h.outCap, h.bw])
  have hdone : (s.blkDone + 1).toNat = n + 1 := by
    have := s0.blkTotal.isLt
    rw [BitVec.toNat_add, h.done]
    simp only [BitVec.ofNat_eq_ofNat, BitVec.toNat_ofNat]
    omega
  refine ⟨_, ⟨.ok, s.blkDone + 1⟩, (h.exec_block hs hx hn).trans hcode, ?_, rfl, ?_, ?_, ?_, ?_, ?_, ?_, ?_⟩
  · simp
  · simpa using h.lifecycle
  · simpa using h.cfg
  · simpa using h.total
  · simpa using h.outCap
  · simpa using hdone
  · rw [succeed_pred, blockWith_pred, h.runStages_zb hs, runStages_pred, h.pred]
  · simp

/-- `BLOCK` without room for its code: the image is given up (R234, R236). -/
theorem InFlight.block_without_room (h : InFlight s0 n pred w s) (hs : Sound s) (hx : anyXerr p.toList = false)
    (hn : n < s0.blkTotal.toNat)
    (hc : blockCalls (roleOf (compAt s0.cfg n)) pred[compAt s0.cfg n] (zbAt s0.cfg n (samplesOf p)) = some here)
    (hw : putCalls s0.outCap.toNat here w = none) :
    ∃ u, exec (.block false p) s = .next u ∧ u.respPort = s.respPort ++ [⟨.eAlloc, 0⟩] ∧ Abandoned u := by
  have hcode := codeBlock_without_room (c := compAt s0.cfg n) (s := s) (d := runStages p (roleOf (compAt s0.cfg n)) s)
    (by rwa [h.runStages_zb hs, runStages_pred, h.pred]) (by rwa [runStages_outCap, runStages_bw, h.outCap, h.bw])
  exact ⟨_, (h.exec_block hs hx hn).trans hcode, rfl, rfl, rfl, rfl⟩

end

/-! ### The commands between -/

/-- A command between `BEGIN` and `END` without transfer error (R270). -/
theorem between_cases {i : Instr} (hop : i.op = .block ∨ i.op = .rdreg) (hx : anyXerr (encode i) = false) :
    (∃ p, i = .block false p ∧ anyXerr p.toList = false) ∨ ∃ reg, i = .rdreg false reg := by
  cases i with
  | block x p =>
    obtain ⟨rfl, hp⟩ : x = false ∧ anyXerr p.toList = false := by simpa [encode, anyXerr] using hx
    exact .inl ⟨p, rfl, hp⟩
  | rdreg x reg =>
    obtain rfl : x = false := by simpa [encode, anyXerr] using hx
    exact .inr ⟨reg, rfl⟩
  | _ => simp [Instr.op] at hop

/-- With room for the calls of all its blocks, an image in flight goes on to the last of them. -/
theorem InFlight.ran {s0 s : State} {n : Nat} {pred : Vector (BitVec 12) 3} {w w' : Writer} {between : List Instr}
    {rest : List CmdWord} {calls : List BitsCall} (h : InFlight s0 n pred w s) (hr : Ready (between.flatMap encode ++ rest) s)
    (hops : ∀ i ∈ between, i.op = .block ∨ i.op = .rdreg) (hx : NoTransferError between)
    (hn : n + (blocksOf between).length ≤ s0.blkTotal.toNat) (hc : scanCalls s0.cfg n pred (blocksOf between) = some calls)
    (hw : putCalls s0.outCap.toNat calls w = some w') :
    ∃ t rs pred', Ran between rest s t rs ∧ rs.map Response.code = between.map successCode ∧
      InFlight s0 (n + (blocksOf between).length) pred' w' t := by
  induction between generalizing s n pred w calls with
  | nil =>
    cases hc
    cases hw
    exact ⟨s, [], pred, .nil hr, rfl, h⟩
  | cons i between ih =>
    obtain ⟨hxi, hxs⟩ := noTransferError_cons.mp hx
    have hrest : ∀ j ∈ between, j.op = .block ∨ j.op = .rdreg := fun j hj => hops j (List.mem_cons_of_mem i hj)
    rcases between_cases (hops i List.mem_cons_self) hxi with ⟨p, rfl, hp⟩ | ⟨reg, rfl⟩
    · have hblocks : blocksOf (.block false p :: between) = samplesOf p :: blocksOf between := blocksOf_cons _ _
      rw [hblocks] at hn hc ⊢
      rw [List.length_cons] at hn ⊢
      obtain ⟨here, after, hhere, hafter, rfl⟩ := scanCalls_cons_eq_some.mp hc
      rw [putCalls_append, Option.bind_eq_some_iff] at hw
      obtain ⟨w1, hw1, hw2⟩ := hw
      obtain ⟨u, r, he, hresp, hcode, hu⟩ := (h.ports (between.flatMap encode ++ rest) s.respPort).block_fits
        (sound_cmdPort _ hr.sound) hp (by omega) hhere hw1
      have hran := Ran.single hr.cons he hresp
      obtain ⟨t, rs, pred', hrs, hcodes, ht⟩ := ih hu hran.ready hrest hxs (by omega) hafter hw2
      exact ⟨t, r :: rs, pred', hran.cons hrs, by rw [List.map_cons, List.map_cons, hcode, hcodes]; rfl,
        by rwa [Nat.add_right_comm] at ht⟩
    · have hblocks : blocksOf (.rdreg false reg :: between) = blocksOf between := blocksOf_cons _ _
      rw [hblocks] at hn hc ⊢
      obtain ⟨r, hcode, he⟩ := exec_rdreg_answer reg (s := { s with cmdPort := between.flatMap encode ++ rest })
        (by rw [h.lifecycle]; nofun)
      have hran := Ran.single hr.cons he rfl
      obtain ⟨t, rs, pred', hrs, hcodes, ht⟩ := ih (h.ports _ _) hran.ready hrest hxs hn hc hw
      exact ⟨t, r :: rs, pred', hran.cons hrs, by rw [List.map_cons, List.map_cons, hcode, hcodes], ht⟩

/-- Without that room, some block is answered `E_ALLOC` and the image is given up. -/
theorem InFlight.ran_without_room {s0 s : State} {n : Nat} {pred : Vector (BitVec 12) 3} {w : Writer} {between : List Instr}
    {rest : List CmdWord} {calls : List BitsCall} (h : InFlight s0 n pred w s) (hr : Ready (between.flatMap encode ++ rest) s)
    (hops : ∀ i ∈ between, i.op = .block ∨ i.op = .rdreg) (hx : NoTransferError between)
    (hn : n + (blocksOf between).length ≤ s0.blkTotal.toNat) (hc : scanCalls s0.cfg n pred (blocksOf between) = some calls)
    (hw : putCalls s0.outCap.toNat calls w = none) :
    ∃ t rs, Ran between rest s t rs ∧ (∃ r ∈ rs, r.code = .eAlloc) ∧ Abandoned t := by
  induction between generalizing s n pred w calls with
  | nil =>
    cases hc
    cases hw
  | cons i between ih =>
    obtain ⟨hxi, hxs⟩ := noTransferError_cons.mp hx
    have hrest : ∀ j ∈ between, j.op = .block ∨ j.op = .rdreg := fun j hj => hops j (List.mem_cons_of_mem i hj)
    rcases between_cases (hops i List.mem_cons_self) hxi with ⟨p, rfl, hp⟩ | ⟨reg, rfl⟩
    · have hblocks : blocksOf (.block false p :: between) = samplesOf p :: blocksOf between := blocksOf_cons _ _
      rw [hblocks] at hn hc
      rw [List.length_cons] at hn
      obtain ⟨here, after, hhere, hafter, rfl⟩ := scanCalls_cons_eq_some.mp hc
      have hflight := h.ports (between.flatMap encode ++ rest) s.respPort
      have hsound := sound_cmdPort (between.flatMap encode ++ rest) hr.sound
      cases hw1 : putCalls s0.outCap.toNat here w with
      | none =>
        obtain ⟨u, he, hresp, hu⟩ := hflight.block_without_room hsound hp (by omega) hhere hw1
        have hran := Ran.single hr.cons he hresp
        obtain ⟨t, rs, hrs, ht⟩ := hu.ran hran.ready fun j hj => (hrest j hj).imp_right .inl
        exact ⟨t, _, hran.cons hrs, ⟨_, List.mem_cons_self, rfl⟩, ht⟩
      | some w1 =>
        obtain ⟨u, r, he, hresp, -, hu⟩ := hflight.block_fits hsound hp (by omega) hhere hw1
        have hran := Ran.single hr.cons he hresp
        rw [putCalls_append, hw1] at hw
        obtain ⟨t, rs, hrs, ⟨r', hr', hcode⟩, ht⟩ := ih hu hran.ready hrest hxs (by omega) hafter hw
        exact ⟨t, r :: rs, hran.cons hrs, ⟨r', List.mem_cons_of_mem r hr', hcode⟩, ht⟩
    · have hblocks : blocksOf (.rdreg false reg :: between) = blocksOf between := blocksOf_cons _ _
      rw [hblocks] at hn hc
      obtain ⟨r, -, he⟩ := exec_rdreg_answer reg (s := { s with cmdPort := between.flatMap encode ++ rest })
        (by rw [h.lifecycle]; nofun)
      have hran := Ran.single hr.cons he rfl
      obtain ⟨t, rs, hrs, ⟨r', hr', hcode⟩, ht⟩ := ih (h.ports _ _) hran.ready hrest hxs hn hc hw
      exact ⟨t, r :: rs, hran.cons hrs, ⟨r', List.mem_cons_of_mem r hr', hcode⟩, ht⟩

end Sys2Proof.Machine
end

section
/-! `BEGIN`, the blocks and `END` together: every image is encoded, or given up for want of room (R211, R234, R270). -/

namespace Sys2Proof.Machine

/-- `NoTransferError` of a list is that of its parts. -/
theorem noTransferError_append {a b : List Instr} : NoTransferError (a ++ b) ↔ NoTransferError a ∧ NoTransferError b := by
  simp [NoTransferError, anyXerr, List.any_append]

/-! ### `BEGIN` and `END` -/

section
variable {s0 s : State} {n : Nat} {pred : Vector (BitVec 12) 3} {calls : List BitsCall} {w w0 w1 w2 : Writer}

/-- The header of a context is the one of the rules, and what becomes of it depends on the capacity only (R205, R234). -/
theorem Written.writeHeaders_eq (hw : Written s.cfg calls w0 w1 w2) (hb : ContextBuilt s) :
    writeHeaders s.outCap.toNat s.cfg s.qt0 s.qt1 resetWriter = if w0.out.length ≤ s.outCap.toNat then some w0 else none := by
  obtain ⟨-, -, h0, h1, -, -⟩ := hb
  rw [h0, h1]
  exact hw.header.run _ (Nat.zero_le _)

theorem exec_begin_fits (hw : Written s.cfg calls w0 w1 w2) (hs : s.lifecycle = .created) (hb : ContextBuilt s)
    (hroom : w0.out.length ≤ s.outCap.toNat) (ws : List CmdWord) :
    ∃ u r, exec (.beginImage false) { s with cmdPort := ws } = .next u ∧ u.respPort = s.respPort ++ [r] ∧ r.code = .ok ∧
      InFlight s 0 (vec 3 0) w0 u := by
  rw [exec_beginImage (s := { s with cmdPort := ws }) hs]
  simp only [ruleBegin, hw.writeHeaders_eq hb, if_pos hroom]
  exact ⟨_, _, rfl, rfl, rfl, rfl, rfl, rfl, rfl, rfl, rfl, rfl⟩

theorem exec_begin_without_room (hw : Written s.cfg calls w0 w1 w2) (hs : s.lifecycle = .created) (hb : ContextBuilt s)
    (hroom : ¬w0.out.length ≤ s.outCap.toNat) (ws : List CmdWord) :
    ∃ u, exec (.beginImage false) { s with cmdPort := ws } = .next u ∧ u.respPort = s.respPort ++ [⟨.eAlloc, 0⟩] ∧
      Abandoned u := by
  rw [exec_beginImage (s := { s with cmdPort := ws }) hs]
  simp only [ruleBegin, hw.writeHeaders_eq hb, if_neg hroom]
  exact ⟨_, rfl, rfl, rfl, rfl, rfl⟩

/-- The image begun in `s0` is finished, with this writer (R208). -/
structure Completed (s0 : State) (w : Writer) (s : State) : Prop where
  lifecycle : s.lifecycle = .created
  outValid : s.outValid = true
  done : s.blkDone = s0.blkTotal
  bw : s.bw = w

theorem InFlight.blkDone_eq (h : InFlight s0 n pred w s) (hn : n = s0.blkTotal.toNat) : s.blkDone = s0.blkTotal :=
  BitVec.eq_of_toNat_eq (h.done.trans hn)

/-- With all blocks coded `END` is the writer's `finalize` (R208). -/
theorem InFlight.end_fits {w' : Writer} (h : InFlight s0 n pred w s) (hn : n = s0.blkTotal.toNat)
    (hw : finalize s0.outCap.toNat w = some w') :
    ∃ u, exec (.endImage false) s = .next u ∧ u.respPort = s.respPort ++ [⟨.ok, BitVec.ofNat 32 w'.out.length⟩] ∧
      Completed s0 w' u := by
  have hdone := h.blkDone_eq hn
  rw [exec_endImage h.lifecycle, ruleEnd, if_pos (hdone.trans h.total.symm), h.outCap, h.bw, hw]
  exact ⟨_, rfl, rfl, rfl, rfl, hdone, rfl⟩

theorem InFlight.end_without_room (h : InFlight s0 n pred w s) (hn : n = s0.blkTotal.toNat)
    (hw : finalize s0.outCap.toNat w = none) :
    ∃ u, exec (.endImage false) s = .next u ∧ u.respPort = s.respPort ++ [⟨.eAlloc, 0⟩] ∧ Abandoned u := by
  rw [exec_endImage h.lifecycle, ruleEnd, if_pos ((h.blkDone_eq hn).trans h.total.symm), h.outCap, h.bw, hw]
  exact ⟨_, rfl, rfl, rfl, rfl, rfl⟩

/-! ### The whole image -/

variable {between : List Instr} {rest : List CmdWord}

/-- The commands of an image (R270). -/
def imageOf (between : List Instr) : List Instr := .beginImage false :: (between ++ [.endImage false])

/-- The run of an image whose stream fits: every command succeeds, and the last one answers the length of the stream. -/
theorem Written.ran (hw : Written s.cfg calls w0 w1 w2) (hs : s.lifecycle = .created)
    (hr : Ready ((imageOf between).flatMap encode ++ rest) s) (hops : ∀ i ∈ between, i.op = .block ∨ i.op = .rdreg)
    (hx : NoTransferError between) (hn : (blocksOf between).length = s.blkTotal.toNat)
    (hc : scanCalls s.cfg 0 (vec 3 0) (blocksOf between) = some calls) (hroom : w2.out.length ≤ s.outCap.toNat) :
    ∃ t rs, Ran (imageOf between) rest s t rs ∧ rs.map Response.code = (imageOf between).map successCode ∧
      rs.getLast? = some ⟨.ok, BitVec.ofNat 32 w2.out.length⟩ ∧ Completed s w2 t := by
  have hroom1 := hw.finish.grows.trans hroom
  have hroom0 := hw.scan.grows.trans hroom1
  rw [← Nat.zero_add (blocksOf between).length] at hn
  obtain ⟨u, r, he, hresp, hcode, hu⟩ := exec_begin_fits hw hs (hr.sound.configured (.inl hs)) hroom0 _
  have hbegin := Ran.single hr.cons he hresp
  obtain ⟨v, rs, pred, hblocks, hcodes, hv⟩ := hu.ran hbegin.ready.append hops hx (Nat.le_of_eq hn) hc
    ((hw.scan.run _ hroom0).trans (if_pos hroom1))
  obtain ⟨t, he', hresp', ht⟩ := (hv.ports rest v.respPort).end_fits hn ((hw.finish.run _ hroom1).trans (if_pos hroom))
  have hend := Ran.single hblocks.ready he' hresp'
  refine ⟨t, _, hbegin.cons (hblocks.append hend), ?_, ?_, ht⟩
  · simp [imageOf, hcode, hcodes, successCode]
  · rw [← List.cons_append, List.getLast?_concat]

/-- The run of an image whose stream does not fit: some command is answered `E_ALLOC`, and no output is left. -/
theorem Written.ran_without_room (hw : Written s.cfg calls w0 w1 w2) (hs : s.lifecycle = .created)
    (hr : Ready ((imageOf between).flatMap encode ++ rest) s) (hops : ∀ i ∈ between, i.op = .block ∨ i.op = .rdreg)
    (hx : NoTransferError between) (hn : (blocksOf between).length = s.blkTotal.toNat)
    (hc : scanCalls s.cfg 0 (vec 3 0) (blocksOf between) = some calls) (hroom : ¬w2.out.length ≤ s.outCap.toNat) :
    ∃ t rs, Ran (imageOf between) rest s t rs ∧ (∃ r ∈ rs, r.code = .eAlloc) ∧ Abandoned t := by
  have hb := hr.sound.configured (.inl hs)
  have hrest : ∀ i ∈ between ++ [.endImage false], i.op = .block ∨ i.op = .rdreg ∨ i.op = .endImage := by
    intro i hi
    rcases List.mem_append.mp hi with hi | hi
    · exact (hops i hi).imp_right .inl
    · obtain rfl := List.mem_singleton.mp hi
      exact .inr (.inr rfl)
  rw [← Nat.zero_add (blocksOf between).length] at hn
  by_cases hroom0 : w0.out.length ≤ s.outCap.toNat
  · obtain ⟨u, r, he, hresp, -, hu⟩ := exec_begin_fits hw hs hb hroom0 _
    have hbegin := Ran.single hr.cons he hresp
    by_cases hroom1 : w1.out.length ≤ s.outCap.toNat
    · obtain ⟨v, rs, pred, hblocks, -, hv⟩ := hu.ran hbegin.ready.append hops hx (Nat.le_of_eq hn) hc
        ((hw.scan.run _ hroom0).trans (if_pos hroom1))
      obtain ⟨t, he', hresp', ht⟩ := (hv.ports rest v.respPort).end_without_room hn
        ((hw.finish.run _ hroom1).trans (if_neg hroom))
      have hend := Ran.single hblocks.ready he' hresp'
      exact ⟨t, _, hbegin.cons (hblocks.append hend), ⟨⟨.eAlloc, 0⟩, by simp, rfl⟩, ht⟩
    · obtain ⟨v, rs, hblocks, ⟨r', hr', hcode⟩, hv⟩ := hu.ran_without_room hbegin.ready.append hops hx (Nat.le_of_eq hn) hc
        ((hw.scan.run _ hroom0).trans (if_neg hroom1))
      obtain ⟨t, rs', hend, ht⟩ := hv.ran (cmds := [.endImage false]) hblocks.ready fun i hi =>
        hrest i (List.mem_append_right between hi)
      exact ⟨t, _, hbegin.cons (hblocks.append hend), ⟨r', by simp [hr'], hcode⟩, ht⟩
  · obtain ⟨u, he, hresp, hu⟩ := exec_begin_without_room hw hs hb hroom0 _
    have hbegin := Ran.single hr.cons he hresp
    obtain ⟨t, rs, hran, ht⟩ := hu.ran hbegin.ready hrest
    exact ⟨t, _, hbegin.cons hran, ⟨_, List.mem_cons_self, rfl⟩, ht⟩

end

/-- The commands of a well-formed image without transfer error (R270). -/
theorem imageOf_of_wellFormedImage {total : Word} {cmds : List Instr} (h : WellFormedImage total cmds)
    (hx : NoTransferError cmds) : ∃ between, cmds = imageOf between ∧ NoTransferError between ∧
      (∀ i ∈ between, i.op = .block ∨ i.op = .rdreg) ∧ (blocksOf between).length = total.toNat ∧
      blocksOf cmds = blocksOf between := by
  obtain ⟨x, y, between, rfl, hops, hn⟩ := h
  obtain ⟨hxs, hxy⟩ := noTransferError_append.mp hx
  obtain ⟨hxx, hxb⟩ := noTransferError_cons.mp hxs
  obtain rfl : x = false := by simpa [encode, anyXerr] using hxx
  obtain rfl : y = false := by simpa [encode, NoTransferError, anyXerr] using hxy
  refine ⟨between, rfl, hxb, hops, hn, ?_⟩
  simp [blocksOf_append, blocksOf_cons, blockSamples]

/-- Settles O58: the writers that the commands of the image would leave give the stream, whatever the capacity; the capacity decides
which of the two runs is that of the image. -/
theorem everyImageIsEncoded : Obligations.EveryImageIsEncoded := by
  intro s cmds rest hsound hs hreset hport hx hwf
  obtain ⟨between, rfl, hxb, hops, hn, hblocks⟩ := imageOf_of_wellFormedImage hwf hx
  rw [hblocks]
  have hb := hsound.configured (.inl hs)
  obtain ⟨calls, hc, hbits⟩ := exists_scanCalls s.cfg (blocksOf between) 0 (pred := vec 3 0) fun c => by
    rw [vec_getElem 0 c.val c.isLt]; exact ⟨by decide, by decide⟩
  obtain ⟨w0, w1, w2, hw⟩ := exists_written s.cfg calls
  obtain ⟨hstream, hlen⟩ := hw.stream hc
  rw [length_headerBytes _ _ (ncomp_of_geometryOk hb.1)] at hlen
  have hready : Ready ((imageOf between).flatMap encode ++ rest) s := ⟨hreset, hport, hsound⟩
  refine ⟨_, hstream, fun stream' h => hstream.unique h, by rw [Memory.length_bytes]; omega, ?_⟩
  rw [CapAtLeast, Memory.length_bytes]
  by_cases hroom : w2.out.length ≤ s.outCap.toNat
  · obtain ⟨t, rs, hran, hcodes, hlast, ht⟩ := hw.ran hs hready hops hxb hn hc hroom
    exact ⟨t, rs, hran.run, hran.resp, hran.count, ht.lifecycle, hran.ready.port, hran.ready.sound,
      fun _ => ⟨hcodes, hlast, ht.outValid, by rw [ht.bw], ht.done⟩, fun hno => absurd hroom hno⟩
  · obtain ⟨t, rs, hran, halloc, ht⟩ := hw.ran_without_room hs hready hops hxb hn hc hroom
    exact ⟨t, rs, hran.run, hran.resp, hran.count, ht.lifecycle, hran.ready.port, hran.ready.sound,
      fun hfits => absurd hfits hroom, fun _ => ⟨ht.outValid, ht.out, halloc⟩⟩

end Sys2Proof.Machine
end

section
/-! From reset: five register writes in any order and a `CREATE` build the context, and every image is then encoded (R261, R263,
R270). -/

namespace Sys2Proof.Machine

/-! ### The configuration writes -/

/-- The configuration a write leaves, for the numbers that exist (R202). -/
def writeOf (cfg : Cfg) : Instr → Cfg
  | .wrcfg _ reg v => (writeCfg cfg reg v.w).getD cfg
  | _ => cfg

/-- The five writes give each register its value, in whatever order they stand (R263). -/
theorem foldl_writeOf {writes : List Instr} {w h n q samp : Word} (hp : writes.Perm (configWrites w h n q samp)) (cfg : Cfg) :
    writes.foldl writeOf cfg = ⟨w, h, n, q, samp⟩ := by
  rw [hp.foldl_eq' fun i hi j hj c => ?_]
  · rfl
  · have hi := hp.mem_iff.mp hi
    have hj := hp.mem_iff.mp hj
    simp only [configWrites, List.mem_cons, List.not_mem_nil, or_false] at hi hj
    rcases hi with rfl | rfl | rfl | rfl | rfl <;> rcases hj with rfl | rfl | rfl | rfl | rfl <;> rfl

/-- What each of the five writes is. -/
theorem exists_wrcfg_of_mem {i : Instr} {w h n q samp : Word} (hi : i ∈ configWrites w h n q samp) :
    ∃ (reg : Byte) (v : Word), i = .wrcfg false reg ⟨false, v⟩ ∧ reg.toNat ≤ 4 := by
  simp only [configWrites, List.mem_cons, List.not_mem_nil, or_false] at hi
  rcases hi with rfl | rfl | rfl | rfl | rfl <;> exact ⟨_, _, rfl, by decide⟩

/-- In `IDLE` with the configuration `cfg` and this capacity of the output buffer. -/
structure IdleWith (cfg : Cfg) (cap : Word) (s : State) : Prop where
  lifecycle : s.lifecycle = .idle
  cfg : s.cfg = cfg
  outCap : s.outCap = cap

theorem IdleWith.port {cfg : Cfg} {cap : Word} {s : State} (h : IdleWith cfg cap s) (ws : List CmdWord) :
    IdleWith cfg cap { s with cmdPort := ws } := ⟨h.lifecycle, h.cfg, h.outCap⟩

/-- Writes of registers that exist are all answered `(OK, 0)`, one after the other (R202). -/
theorem IdleWith.ran {cfg : Cfg} {cap : Word} {s : State} {writes : List Instr} {rest : List CmdWord} (h : IdleWith cfg cap s)
    (hr : Ready (writes.flatMap encode ++ rest) s)
    (hw : ∀ i ∈ writes, ∃ (reg : Byte) (v : Word), i = .wrcfg false reg ⟨false, v⟩ ∧ reg.toNat ≤ 4) :
    ∃ t, Ran writes rest s t (List.replicate writes.length ⟨.ok, 0⟩) ∧ IdleWith (writes.foldl writeOf cfg) cap t := by
  induction writes generalizing s cfg with
  | nil => exact ⟨s, .nil hr, h⟩
  | cons i writes ih =>
    obtain ⟨reg, v, rfl, hreg⟩ := hw i List.mem_cons_self
    obtain ⟨cfg', hcfg⟩ : ∃ cfg', writeCfg s.cfg reg v = some cfg' :=
      Option.ne_none_iff_exists'.mp fun hnone => absurd (writeCfg_eq_none_iff.mp hnone) (by omega)
    have he : exec (.wrcfg false reg ⟨false, v⟩) { s with cmdPort := writes.flatMap encode ++ rest } =
        .next (succeed .wrcfg 0 { s with cmdPort := writes.flatMap encode ++ rest, cfg := cfg' }) := by
      rw [exec_wrcfg v (s := { s with cmdPort := writes.flatMap encode ++ rest }) h.lifecycle]
      simp only [ruleWrcfg, hcfg]
    have hran := Ran.single hr.cons he rfl
    have hcfg' : cfg' = writeOf cfg (.wrcfg false reg ⟨false, v⟩) := by
      rw [writeOf, ← h.cfg, hcfg]; rfl
    obtain ⟨t, hrest, ht⟩ := ih (s := succeed .wrcfg 0 { s with cmdPort := writes.flatMap encode ++ rest, cfg := cfg' })
      (cfg := cfg') ⟨h.lifecycle, rfl, h.outCap⟩ hran.ready fun j hj => hw j (List.mem_cons_of_mem _ hj)
    exact ⟨t, hran.cons hrest, by rwa [List.foldl_cons, ← hcfg']⟩

/-! ### `CREATE` -/

/-- The context that the configuration `cfg` builds, with this capacity of the output buffer. -/
structure CreatedWith (cfg : Cfg) (cap : Word) (s : State) : Prop where
  lifecycle : s.lifecycle = .created
  cfg : s.cfg = cfg
  outCap : s.outCap = cap
  built : ContextBuilt s

section
variable {cfg : Cfg} {cap : Word} {s : State}

/-- A `CREATE` whose checks pass answers `OK` with the block count (R204). -/
theorem IdleWith.create_ok (h : IdleWith cfg cap s) (hg : geometryOk cfg = true) (hq : qualityOk cfg = true) :
    ∃ t, exec (.create false) s = .next t ∧ t.respPort = s.respPort ++ [⟨.ok, t.blkTotal⟩] ∧ CreatedWith cfg cap t := by
  obtain ⟨hs, rfl, rfl⟩ := h
  rw [exec_create hs, ruleCreate, if_pos hg, if_pos hq]
  exact ⟨_, rfl, rfl, rfl, rfl, rfl, hg, hq, rfl, rfl, rfl, rfl⟩

/-- A `CREATE` whose checks do not pass is answered with another code (R204). -/
theorem IdleWith.create_refused (h : IdleWith cfg cap s) (hbad : ¬(geometryOk cfg = true ∧ qualityOk cfg = true)) :
    ∃ t r, exec (.create false) s = .next t ∧ t.respPort = s.respPort ++ [r] ∧ r.code ≠ .ok := by
  obtain ⟨hs, rfl, rfl⟩ := h
  rw [exec_create hs, ruleCreate]
  by_cases hg : geometryOk s.cfg = true
  · rw [if_pos hg, if_neg fun hq => hbad ⟨hg, hq⟩]
    exact ⟨_, ⟨.eQuality, 0⟩, rfl, rfl, nofun⟩
  · rw [if_neg hg]
    exact ⟨_, ⟨.eGeometry, 0⟩, rfl, rfl, nofun⟩

end

/-! ### From reset -/

/-- A fresh state, whatever its datapath buffers hold, meets the invariant as the state after reset does. -/
theorem FreshReset.sound {s : State} (h : FreshReset s) : Sound s := by
  have hs := sound_resetWith s.outCap
  rw [h]
  exact ⟨hs.memory, hs.capacity, hs.idle, hs.destroyed, hs.valid, hs.created, hs.encoding, hs.configured, hs.counted⟩

section
variable {s : State} {writes : List Instr} {w h n q samp : Word} (hs : FreshReset s)
  (hp : writes.Perm (configWrites w h n q samp)) (rest : List CmdWord)
include hs hp

/-- The five writes after reset: the configuration is written, and the `CREATE` is next. -/
theorem FreshReset.ran_writes : ∃ t, Ran writes ([Instr.create false].flatMap encode ++ rest)
      (hostSend ((writes ++ [Instr.create false]).flatMap encode ++ rest) s) t (List.replicate 5 ⟨.ok, 0⟩) ∧
    IdleWith ⟨w, h, n, q, samp⟩ s.outCap t := by
  have hport : s.cmdPort = [] := congrArg State.cmdPort hs
  have hready : Ready ((writes ++ [Instr.create false]).flatMap encode ++ rest)
      (hostSend ((writes ++ [Instr.create false]).flatMap encode ++ rest) s) :=
    ⟨congrArg State.resetIn hs, by rw [hostSend, hport, List.nil_append], sound_cmdPort _ hs.sound⟩
  have hidle : IdleWith s.cfg s.outCap (hostSend ((writes ++ [Instr.create false]).flatMap encode ++ rest) s) :=
    ⟨congrArg State.lifecycle hs, rfl, rfl⟩
  obtain ⟨t, hran, ht⟩ := hidle.ran hready.append fun i hi => exists_wrcfg_of_mem (hp.mem_iff.mp hi)
  rw [foldl_writeOf hp] at ht
  rw [show writes.length = 5 from hp.length_eq] at hran
  exact ⟨t, hran, ht⟩

/-- With checks that pass, the six commands lead to the context (R204). -/
theorem FreshReset.run_ok (hg : geometryOk ⟨w, h, n, q, samp⟩ = true) (hq : qualityOk ⟨w, h, n, q, samp⟩ = true) :
    ∃ t, core.run 6 (hostSend ((writes ++ [Instr.create false]).flatMap encode ++ rest) s) = .next t ∧
      t.respPort = s.respPort ++ List.replicate 5 ⟨.ok, 0⟩ ++ [⟨.ok, t.blkTotal⟩] ∧
      CreatedWith ⟨w, h, n, q, samp⟩ s.outCap t ∧ Ready rest t := by
  obtain ⟨u, hran, hu⟩ := hs.ran_writes hp rest
  obtain ⟨t, he, hresp, ht⟩ := (hu.port rest).create_ok hg hq
  have hall := hran.append (Ran.single hran.ready he hresp)
  have hrun := hall.run
  rw [List.length_append, show writes.length = 5 from hp.length_eq] at hrun
  exact ⟨t, hrun, hall.resp.trans (List.append_assoc _ _ _).symm, ht, hall.ready⟩

/-- With checks that do not pass, the last of the six responses is not `OK` (R204). -/
theorem FreshReset.run_refused (hbad : ¬(geometryOk ⟨w, h, n, q, samp⟩ = true ∧ qualityOk ⟨w, h, n, q, samp⟩ = true)) :
    ∃ t, core.run 6 (hostSend ((writes ++ [Instr.create false]).flatMap encode ++ rest) s) = .next t ∧
      t.respPort.getLast?.map Response.code ≠ some .ok := by
  obtain ⟨u, hran, hu⟩ := hs.ran_writes hp rest
  obtain ⟨t, r, he, hresp, hcode⟩ := (hu.port rest).create_refused hbad
  have hrun := (hran.append (Ran.single hran.ready he hresp)).run
  rw [List.length_append, show writes.length = 5 from hp.length_eq] at hrun
  refine ⟨t, hrun, ?_⟩
  rw [hresp, List.getLast?_concat]
  exact fun hok => hcode (Option.some.inj hok)

/-- `CREATE` is answered `OK` exactly when its checks pass (R204). -/
theorem FreshReset.configured_iff :
    (∃ t, Configured w h n q samp writes (hostSend ((writes ++ [Instr.create false]).flatMap encode ++ rest) s) t) ↔
      geometryOk ⟨w, h, n, q, samp⟩ = true ∧ qualityOk ⟨w, h, n, q, samp⟩ = true := by
  constructor
  · rintro ⟨t, -, -, hrun, hlast⟩
    by_contra hbad
    obtain ⟨t', hrun', hlast'⟩ := hs.run_refused hp rest hbad
    cases hrun.symm.trans hrun'
    exact hlast' hlast
  · rintro ⟨hg, hq⟩
    obtain ⟨t, hrun, hresp, -, -⟩ := hs.run_ok hp rest hg hq
    refine ⟨t, hp, ⟨rest, ?_⟩, hrun, ?_⟩
    · rw [hostSend, show s.cmdPort = [] from congrArg State.cmdPort hs, List.nil_append]
    · rw [hresp, List.getLast?_concat]
      rfl

end

/-- Settles O59: the six commands after reset build the context, from which the image is encoded as from any other (O58). -/
theorem everyImageFromResetIsEncoded : Obligations.EveryImageFromResetIsEncoded := by
  intro w h n q samp writes rest s hs hp start
  have hiff := hs.configured_iff hp rest
  refine ⟨hiff, fun t ht => ?_⟩
  obtain ⟨hg, hq⟩ := hiff.mp ⟨t, ht⟩
  obtain ⟨-, -, hrun, -⟩ := ht
  obtain ⟨t', hrun', hresp, hcreated, hready⟩ := hs.run_ok hp rest hg hq
  obtain rfl : t = t' := Host.Outcome.next.inj (hrun.symm.trans hrun')
  refine ⟨hcreated.lifecycle, hcreated.cfg, hcreated.built, hready.sound, hready.port, hresp, ?_⟩
  rintro cmds after stream rfl hx hwf hstream hcap
  obtain ⟨stream', -, hunique, -, u, rs, hrun_u, hresp_u, -, hlife, hport, -, hfits, -⟩ :=
    everyImageIsEncoded t cmds after hready.sound hcreated.lifecycle hready.released hready.port hx hwf
  obtain rfl : stream = stream' := hunique stream (by rwa [hcreated.cfg])
  obtain ⟨hcodes, hlast, hvalid, hbytes, -⟩ := hfits (by rwa [CapAtLeast, hcreated.outCap])
  exact ⟨u, rs, (core_run_add 6 _ hrun).trans hrun_u, hresp_u, hcodes, hlast, hbytes, hvalid, hlife, hport⟩

end Sys2Proof.Machine
end
